-- ==== Sys2Proof/Word.lean ====
section
/-! DEFINITION. The widths the spec fixes (00_scope.md R9): a register and an OBUF cell are 32 bits, an IBUF cell 8 bits, a half-precision pattern 16 bits. -/

namespace Sys2Proof

/-- A register value, a command word, an `OBUF` cell or a binary32 pattern (R9). -/
abbrev Word := BitVec 32

/-- One `IBUF` cell (R9). -/
abbrev Byte := BitVec 8

/-- A half-precision (binary16) pattern (R9, R110). -/
abbrev Half := BitVec 16

end Sys2Proof
end

