-- ==== Sys2Proof/Syntax.lean ====
section
/-! DEFINITION. The sixteen commands of DQU command set 1 (00_scope.md R3, 30_encoding.md R83): one constructor per row of the opcode table. -/

namespace Sys2Proof

/-- A command. Every operand but the immediate `J` is implicit in the registers (R82); `J` is the 4-bit field
`w[19:16]`, an unsigned integer (R81). -/
inductive Instr where
  /-- `H2F` (R113): half to single. -/
  | h2f
  /-- `F2H` (R119): single to half. -/
  | f2h
  /-- `E8M0H` (R123): exponent-only code to single. -/
  | e8m0h
  /-- `GSM6 J` (R181): 6-bit scale and minimum of sub-block `J`; legal for `J` up to 7 (R84). -/
  | gsm6 (j : BitVec 4)
  /-- `SC3K J` (R185): q3_K scale `J`. -/
  | sc3k (j : BitVec 4)
  /-- `DQ4_0` (R165). -/
  | dq4_0
  /-- `DQ4_1` (R166). -/
  | dq4_1
  /-- `DQ5_0` (R168). -/
  | dq5_0
  /-- `DQ5_1` (R169). -/
  | dq5_1
  /-- `DQ8_0` (R170). -/
  | dq8_0
  /-- `DQ2_K` (R192). -/
  | dq2_K
  /-- `DQ3_K` (R194). -/
  | dq3_K
  /-- `DQ4_K` (R196). -/
  | dq4_K
  /-- `DQ5_K` (R198). -/
  | dq5_K
  /-- `DQ6_K` (R200). -/
  | dq6_K
  /-- `DQ8_K` (R202). -/
  | dq8_K
  deriving DecidableEq, Repr

end Sys2Proof
end

