-- ==== Sys2Proof/WellFormed.lean ====
section
/-! DEFINITION. Which commands have an encoding (30_encoding.md R84). -/

namespace Sys2Proof

/-- The one restriction on an immediate: `GSM6` takes a sub-block index 0 to 7, `SC3K` any of 0 to 15
(R81, R84). -/
def Instr.wellFormed : Instr → Bool
  | .gsm6 j => decide (j.toNat ≤ 7)
  | .sc3k _ => true
  | .h2f => true
  | .f2h => true
  | .e8m0h => true
  | .dq4_0 => true
  | .dq4_1 => true
  | .dq5_0 => true
  | .dq5_1 => true
  | .dq8_0 => true
  | .dq2_K => true
  | .dq3_K => true
  | .dq4_K => true
  | .dq5_K => true
  | .dq6_K => true
  | .dq8_K => true

end Sys2Proof
end

