-- ==== Sys2Proof/Decode.lean ====
section
/-! DEFINITION. The command word (30_encoding.md): its fields R80, the decoding procedure R90, the encoder, and the opcode table R83. -/

namespace Sys2Proof

/-- Why a word is illegal (R84 to R86, R90). Every one completes with the same error `IllegalCommand`
(60_exceptions.md R222). -/
inductive Illegal where
  /-- `Z0 = w[15:8]` is not zero. -/
  | nonzeroZ0
  /-- `Z1 = w[31:20]` is not zero. -/
  | nonzeroZ1
  /-- `OPC = 0x30`, set aside for the `iq4_nl` decoder, whose definition the source does not give (R86). -/
  | reservedIq4nl
  /-- `OPC` is in no row of R83. -/
  | unassigned (opc : BitVec 8)
  /-- The command takes no immediate and `J` is not zero, or `J` is out of `GSM6`'s range. -/
  | immediate (j : BitVec 4)
  deriving DecidableEq, Repr

/-- `OPC`, bits 7:0 (R80). -/
def opcField (w : Word) : BitVec 8 := w.extractLsb' 0 8

/-- `Z0`, bits 15:8 (R80). -/
def z0Field (w : Word) : BitVec 8 := w.extractLsb' 8 8

/-- `J`, bits 19:16 (R80, R81). -/
def jField (w : Word) : BitVec 4 := w.extractLsb' 16 4

/-- `Z1`, bits 31:20 (R80). -/
def z1Field (w : Word) : BitVec 12 := w.extractLsb' 20 12

/-- A command without immediate requires `J = 0` (R90). -/
def withoutImmediate (j : BitVec 4) (i : Instr) : Except Illegal Instr :=
  if j = 0#4 then .ok i else .error (.immediate j)

/-- The lookup of R90: the row of R83 that `opc` names, with the requirement that row puts on `J`. -/
def decodeOpcode (opc : BitVec 8) (j : BitVec 4) : Except Illegal Instr :=
  match opc with
  | 0x01#8 => withoutImmediate j .h2f
  | 0x02#8 => withoutImmediate j .f2h
  | 0x03#8 => withoutImmediate j .e8m0h
  | 0x08#8 => if j.toNat ≤ 7 then .ok (.gsm6 j) else .error (.immediate j)
  | 0x09#8 => .ok (.sc3k j)
  | 0x10#8 => withoutImmediate j .dq4_0
  | 0x11#8 => withoutImmediate j .dq4_1
  | 0x12#8 => withoutImmediate j .dq5_0
  | 0x13#8 => withoutImmediate j .dq5_1
  | 0x14#8 => withoutImmediate j .dq8_0
  | 0x20#8 => withoutImmediate j .dq2_K
  | 0x21#8 => withoutImmediate j .dq3_K
  | 0x22#8 => withoutImmediate j .dq4_K
  | 0x23#8 => withoutImmediate j .dq5_K
  | 0x24#8 => withoutImmediate j .dq6_K
  | 0x25#8 => withoutImmediate j .dq8_K
  | 0x30#8 => .error .reservedIq4nl
  | _ => .error (.unassigned opc)

/-- The decoding procedure, total on any word (R90). -/
def decode (w : Word) : Except Illegal Instr :=
  if z0Field w ≠ 0#8 then .error .nonzeroZ0
  else if z1Field w ≠ 0#12 then .error .nonzeroZ1
  else decodeOpcode (opcField w) (jField w)

/-- The operation code of a command (R83). -/
def Instr.opcode : Instr → BitVec 8
  | .h2f => 0x01#8
  | .f2h => 0x02#8
  | .e8m0h => 0x03#8
  | .gsm6 _ => 0x08#8
  | .sc3k _ => 0x09#8
  | .dq4_0 => 0x10#8
  | .dq4_1 => 0x11#8
  | .dq5_0 => 0x12#8
  | .dq5_1 => 0x13#8
  | .dq8_0 => 0x14#8
  | .dq2_K => 0x20#8
  | .dq3_K => 0x21#8
  | .dq4_K => 0x22#8
  | .dq5_K => 0x23#8
  | .dq6_K => 0x24#8
  | .dq8_K => 0x25#8

/-- The value of the field `J`: zero for a command that takes none (R80). -/
def Instr.immediate : Instr → BitVec 4
  | .gsm6 j => j
  | .sc3k j => j
  | .h2f => 0#4
  | .f2h => 0#4
  | .e8m0h => 0#4
  | .dq4_0 => 0#4
  | .dq4_1 => 0#4
  | .dq5_0 => 0#4
  | .dq5_1 => 0#4
  | .dq8_0 => 0#4
  | .dq2_K => 0#4
  | .dq3_K => 0#4
  | .dq4_K => 0#4
  | .dq5_K => 0#4
  | .dq6_K => 0#4
  | .dq8_K => 0#4

/-- The command word of a command: `Z1`, `J`, `Z0`, `OPC` from the top (R80). -/
def encode (i : Instr) : Word := 0#12 ++ i.immediate ++ 0#8 ++ i.opcode

/-- One row of the opcode table as R83 prints it: a word is of the row when `(w & mask) = match`. -/
structure OpcodeRow where
  mnemonic : String
  pattern : Word
  mask : Word
  deriving DecidableEq, Repr

/-- The table of R83, as data. `decode` follows R90 and not this list; that the two agree is a statement
about them (R84, "Equivalently"). -/
def opcodeTable : List OpcodeRow := [
  ⟨"H2F", 0x00000001#32, 0xFFFFFFFF#32⟩,
  ⟨"F2H", 0x00000002#32, 0xFFFFFFFF#32⟩,
  ⟨"E8M0H", 0x00000003#32, 0xFFFFFFFF#32⟩,
  ⟨"GSM6", 0x00000008#32, 0xFFF8FFFF#32⟩,
  ⟨"SC3K", 0x00000009#32, 0xFFF0FFFF#32⟩,
  ⟨"DQ4_0", 0x00000010#32, 0xFFFFFFFF#32⟩,
  ⟨"DQ4_1", 0x00000011#32, 0xFFFFFFFF#32⟩,
  ⟨"DQ5_0", 0x00000012#32, 0xFFFFFFFF#32⟩,
  ⟨"DQ5_1", 0x00000013#32, 0xFFFFFFFF#32⟩,
  ⟨"DQ8_0", 0x00000014#32, 0xFFFFFFFF#32⟩,
  ⟨"DQ2_K", 0x00000020#32, 0xFFFFFFFF#32⟩,
  ⟨"DQ3_K", 0x00000021#32, 0xFFFFFFFF#32⟩,
  ⟨"DQ4_K", 0x00000022#32, 0xFFFFFFFF#32⟩,
  ⟨"DQ5_K", 0x00000023#32, 0xFFFFFFFF#32⟩,
  ⟨"DQ6_K", 0x00000024#32, 0xFFFFFFFF#32⟩,
  ⟨"DQ8_K", 0x00000025#32, 0xFFFFFFFF#32⟩]

/-- Whether some row of the table matches the word (R83, R84). -/
def matchesTable (w : Word) : Bool := opcodeTable.any fun r => w &&& r.mask == r.pattern

/-- The command word that an opcode-table row's `nbits` bits `w` make, every higher bit zero. A command is one
32-bit register write and has no byte order (20_memory.md R52), so the bits are the word. -/
def tableWord (nbits w : Nat) : Word := BitVec.ofNat 32 (w % 2 ^ nbits)

/-- What the decoder reads from the bits of a row of spec/opcode_table.json. -/
def decodeTableWord (nbits w : Nat) : Option Instr :=
  match decode (tableWord nbits w) with
  | .ok i => some i
  | .error _ => none

end Sys2Proof
end

