-- ==== Sys2Proof/Config.lean ====
section
/-! DEFINITION. What an implementation fixes (00_scope.md R8) and what the spec leaves unspecified. A constant without a body is a free value: nothing in Lean can evaluate it. -/

namespace Sys2Proof

/-- The implementation parameters of 00_scope.md R8 that some rule reads. They are fixed for the life of the
model (10_state.md R20); a state carries them so that a statement about every state is one about every
implementation (log 1). -/
structure Params where
  /-- `IBUF_BYTES`, the size of the input buffer in bytes (R27). -/
  ibufBytes : Nat
  /-- `OBUF_WORDS`, the size of the output buffer in words (R28). -/
  obufWords : Nat
  /-- `Q8K_D_F32`: the q8_K scale is a binary32 pattern and the block has 292 bytes (R152). -/
  q8kDF32 : Bool
  /-- `H2F_QUIET`: `H2F` sets the quiet bit of a NaN result (R114). -/
  h2fQuiet : Bool
  /-- `CANON_NAN`: the pattern of every NaN that arithmetic returns (R104). -/
  canonNan : Word
  /-- `F2H_NAN`: the non-sign bits `F2H` returns for a NaN (R121). -/
  f2hNan : BitVec 15
  deriving DecidableEq, Repr

/-- The bounds R8 puts on the parameters: one block of the largest format fits `IBUF`, its elements fit `OBUF`,
`CANON_NAN` is a quiet binary32 NaN and `F2H_NAN` a half NaN. -/
abbrev Params.wf (p : Params) : Prop :=
  292 ≤ p.ibufBytes ∧ 256 ≤ p.obufWords ∧
  p.canonNan.extractLsb' 22 9 = 0x1FF#9 ∧
  p.f2hNan.extractLsb' 10 5 = 31#5 ∧ p.f2hNan.extractLsb' 0 10 ≠ 0#10

namespace Config

/-- `Q8K_D_F32` of the machine that `State.reset` describes: an open parameter without a default
(R8, R152, 90_conflicts.md C8), so a free value (log 2). -/
opaque q8kDF32 : Bool

/-- What an `IBUF` cell holds after a reset until it is written: some definite value that no rule gives
(R36, R250). First argument: how many resets came before; second: the cell (log 3). -/
opaque ibufAfterReset : Nat → Nat → Byte

/-- What an `OBUF` cell holds after a reset until it is written (R36, R250); arguments as for
`ibufAfterReset` (log 3). -/
opaque obufAfterReset : Nat → Nat → Word

/-- `REG_BASE`, the bus address of the register space: the platform's (R57, log 16). -/
opaque regBase : Nat

/-- `IBUF_BASE`, the bus address of `IBUF`: the platform's (R57, log 16). -/
opaque ibufBase : Nat

/-- `OBUF_BASE`, the bus address of `OBUF`: the platform's (R57, log 16). -/
opaque obufBase : Nat

end Config

/-- The parameters at the defaults of R8, with the one that has no default given (log 1). -/
def Params.default (q8kDF32 : Bool) : Params where
  ibufBytes := 65536
  obufWords := 16384
  q8kDF32 := q8kDF32
  h2fQuiet := true
  canonNan := 0x7FC00000#32
  f2hNan := 0x7E00#15

end Sys2Proof
end

