-- ==== Sys2Proof/Machine/State.lean ====
section
/-! DEFINITION. The state of the DQU (10_state.md R20 to R36), what the outside does to it, and the reasons a step can stop. -/

namespace Sys2Proof.Machine

/-- `phase` of R20: whether a command is in flight. -/
inductive Phase where
  | idle
  | busy
  deriving DecidableEq, Repr

/-- The errors a command reports (60_exceptions.md R220). They are not stops: the command completes and
`STATUS` says so (R225). -/
inductive CmdError where
  /-- `ECODE` 1 (R221). -/
  | invalidLength
  /-- `ECODE` 2 (R222). -/
  | illegalCommand
  /-- `ECODE` 3 (R223). -/
  | bufferRange
  deriving DecidableEq, Repr

/-- How many bytes one host access to `IBUF` moves. R51 makes an access wider than one byte little-endian and
spells out four bytes; two bytes follow the same rule (log 9). -/
inductive Width where
  | one
  | two
  | four
  deriving DecidableEq, Repr

/-- One access of the host (R20, R25 to R28, R35). Registers are named by the byte offset of R21, `IBUF` by byte
index, `OBUF` by word index. -/
inductive HostAccess where
  | readReg (offset : Nat)
  | writeReg (offset : Nat) (value : Word)
  | readIbuf (width : Width) (index : Nat)
  | writeIbuf (width : Width) (index : Nat) (value : Word)
  | readObuf (index : Nat)
  | writeObuf (index : Nat) (value : Word)
  deriving DecidableEq, Repr

/-- What happens next outside or inside the unit. The list of these in `State.inputs` orders the two agents of
R20; the number of host accesses before a `dquTurn` is the latency that R262 leaves open (log 4). -/
inductive Input where
  /-- The host makes an access. -/
  | host (access : HostAccess)
  /-- The DQU's turn: it completes the command in flight, if there is one (R33). -/
  | dquTurn
  /-- The reset input is asserted (R250). -/
  | assertReset
  /-- The reset input is released (R250). -/
  | releaseReset
  deriving DecidableEq, Repr

/-- Why a run stops at an access to something the spec says does not exist. Only the host's own accesses raise
these; no command does (R223: every range is checked). All are safe: the model says nothing after them. -/
inductive Fault where
  /-- The host named a register offset of 0x100 or more, outside the register space (R35, R57). Safe. -/
  | registerOffsetOutside
  /-- The host named a byte inside one of the nine words of R21 that is not its first; the spec describes whole
  32-bit registers only (R9, R21, log 8). Safe. -/
  | registerOffsetInsideWord
  /-- The host named a cell beyond `IBUF_BYTES - 1` (R27). Safe. -/
  | ibufIndexOutside
  /-- The host named a cell beyond `OBUF_WORDS - 1` (R28). Safe. -/
  | obufIndexOutside
  deriving DecidableEq, Repr

/-- Why the model refuses to go on. All but the first are host accesses that R257 or R258 forbid while a command
runs: R259 gives them no meaning and tells a model to refuse the trace. All are safe. -/
inductive Refusal where
  /-- An instruction that has no meaning yet, by its mnemonic; raised by `exec`'s arm alone. Safe. -/
  | notModelled (mnemonic : String)
  /-- A write of `CMD` while busy (R257). Safe. -/
  | commandWrittenWhileBusy
  /-- A write of `SRC`, `DST`, `K`, `NB` or `OPA` while busy (R257). Safe. -/
  | argumentWrittenWhileBusy
  /-- A write of an `IBUF` byte in the range the command reads, while busy (R257, R55). Safe. -/
  | inputWrittenWhileBusy
  /-- A read or write of an `OBUF` cell in the range of the block decoder in flight (R258). Safe. -/
  | outputTouchedWhileBusy
  /-- A read or write of `RES0` or `RES1` while a scalar command is in flight (R258). Safe. -/
  | resultTouchedWhileBusy
  deriving DecidableEq, Repr

/-- The whole state: the registers, the buffers and `phase` of R20, then the model's own fields. A buffer is the
list of its cells written since the last reset, by rising index (log 3). -/
structure State where
  /-- Register 0, `CMD` (R25). -/
  cmd : Word
  /-- Register 1, `STATUS` (R26). -/
  status : Word
  /-- Register 2, `SRC` (R22). -/
  src : Word
  /-- Register 3, `DST` (R22). -/
  dst : Word
  /-- Register 4, `K` (R22). -/
  k : Word
  /-- Register 5, `NB` (R22). -/
  nb : Word
  /-- Register 6, `OPA` (R22). -/
  opa : Word
  /-- Register 7, `RES0` (R23). -/
  res0 : Word
  /-- Register 8, `RES1` (R23). -/
  res1 : Word
  /-- Whether a command is in flight (R20). Stored beside `STATUS.BUSY` (DEDUCED, safe: log 15). -/
  phase : Phase
  /-- `IBUF` (R27). -/
  ibuf : List Host.Cell
  /-- `OBUF` (R28). -/
  obuf : List (Nat × Word)
  /-- The model's: the parameters of R8, which no step changes (log 1). -/
  params : Params
  /-- The model's: how many resets came before, for the free buffer contents (R250, log 5). -/
  epoch : Nat
  /-- The model's: the level of the reset input, true while asserted (R250, log 6). -/
  resetPin : Bool
  /-- The model's: what happens next (log 4). -/
  inputs : List Input
  /-- The model's: what the host's reads answered, newest first (log 5). -/
  replies : List Word
  deriving DecidableEq, Repr

/-- The state when reset is released (R36, R250) in an implementation with parameters `p`, after `epoch` earlier
resets, with the outside world as given: all nine registers zero, idle, every buffer cell unspecified. -/
def State.afterReset (p : Params) (epoch : Nat) (inputs : List Input) (replies : List Word) : State where
  cmd := 0#32
  status := 0#32
  src := 0#32
  dst := 0#32
  k := 0#32
  nb := 0#32
  opa := 0#32
  res0 := 0#32
  res1 := 0#32
  phase := .idle
  ibuf := []
  obuf := []
  params := p
  epoch := epoch
  resetPin := false
  inputs := inputs
  replies := replies

/-- The machine right after reset (R36), with the default parameters of R8 and nothing yet to happen. -/
def State.reset : State := State.afterReset (Params.default Config.q8kDF32) 0 [] []

end Sys2Proof.Machine
end

