-- ==== Sys2Proof/Machine/Flags.lean ====
section
/-! DEFINITION. `STATUS` (10_state.md R26): its fields and every value the DQU ever stores there. There are no other flags (R26, R107). -/

namespace Sys2Proof.Machine

/-- `BUSY`, bit 0 (R26). -/
def State.busyFlag (s : State) : BitVec 1 := s.status.extractLsb' 0 1

/-- `DONE`, bit 1 (R26). -/
def State.doneFlag (s : State) : BitVec 1 := s.status.extractLsb' 1 1

/-- `ERR`, bit 2 (R26). -/
def State.errFlag (s : State) : BitVec 1 := s.status.extractLsb' 2 1

/-- `ECODE`, bits 7:4 (R26). -/
def State.ecodeField (s : State) : BitVec 4 := s.status.extractLsb' 4 4

/-- The code of an error (60_exceptions.md R220). -/
def CmdError.code : CmdError → Word
  | .invalidLength => 1#32
  | .illegalCommand => 2#32
  | .bufferRange => 3#32

/-- `STATUS` after a launch: `BUSY` alone (R32). -/
def statusLaunched : Word := 0x00000001#32

/-- `STATUS` after a command completed without error: `DONE` alone (R33). -/
def statusSuccess : Word := 0x00000002#32

/-- `STATUS` after a command ended in error `e`: `DONE`, `ERR` and the code (R33, R225). -/
def statusError (e : CmdError) : Word := 0x00000006#32 ||| (e.code <<< 4)

end Sys2Proof.Machine
end

