-- ==== Sys2Proof/Machine/Ops.lean ====
section
/-! DEFINITION. The named operations: cells of a buffer, launch, completion, the error report (the DQU's only exception) and reset. -/

namespace Sys2Proof.Machine

/-! ### Cells of a buffer -/

/-- The value listed for a cell, or none if nothing has written it since the last reset. -/
def cellAt {α : Type} (m : List (Nat × α)) (a : Nat) : Option α :=
  match m with
  | [] => none
  | (b, v) :: rest => if a = b then some v else cellAt rest a

/-- Write one cell, keeping the list in rising order of index. -/
def putCell {α : Type} (m : List (Nat × α)) (a : Nat) (v : α) : List (Nat × α) :=
  match m with
  | [] => [(a, v)]
  | (b, u) :: rest =>
    if a < b then (a, v) :: (b, u) :: rest
    else if a = b then (a, v) :: rest
    else (b, u) :: putCell rest a v

/-- Write the `n` cells from `base` on, cell `base + t` with `v t`. The order is not observable (R56); the last
cell is written first. -/
def putCells {α : Type} (m : List (Nat × α)) (base n : Nat) (v : Nat → α) : List (Nat × α) :=
  (List.range n).foldr (fun t m' => putCell m' (base + t) (v t)) m

/-- The canonical form of a buffer: indices strictly rising. An unlisted cell has no value (nothing has written
it since reset), and no entry stands for "no value", so two buffers written alike are equal data (log 3). -/
abbrev cellsWf {α : Type} (m : List (Nat × α)) : Prop := m.Pairwise (fun x y => x.1 < y.1)

/-- Every listed cell is one of the buffer's `size` cells (R27, R28). -/
abbrev cellsWithin {α : Type} (m : List (Nat × α)) (size : Nat) : Prop := ∀ c ∈ m, c.1 < size

/-- `IBUF[a]` (R13): the byte last written there, or the unspecified byte it holds since reset (R36, R253). -/
def State.ibufByte (s : State) (a : Nat) : Byte := (cellAt s.ibuf a).getD (Config.ibufAfterReset s.epoch a)

/-- `OBUF[i]`: the word last written there, or the unspecified word it holds since reset (R36). The host reads it;
no command does (R28). -/
def State.obufWord (s : State) (i : Nat) : Word := (cellAt s.obuf i).getD (Config.obufAfterReset s.epoch i)

/-- `IBUF[a] <- b`. Only the host does this (R27). -/
def State.setIbufByte (s : State) (a : Nat) (b : Byte) : State := { s with ibuf := putCell s.ibuf a b }

/-- `OBUF[i] <- w` (R13). -/
def State.setObufWord (s : State) (i : Nat) (w : Word) : State := { s with obuf := putCell s.obuf i w }

/-- `OBUF[base + t] <- v t` for every `t < n`: all the output writes of one command, made at once (R33, R56; DESIGN
CHOICE, safe: log 13). -/
def State.setObufRange (s : State) (base n : Nat) (v : Nat → Word) : State :=
  { s with obuf := putCells s.obuf base n v }

/-! ### Launch and completion -/

/-- Launch of the command word `w` (R32): nothing but `CMD`, `STATUS` and `phase` changes. It is also what clears
the report of an earlier error (60_exceptions.md R226). -/
def State.launch (s : State) (w : Word) : State :=
  { s with cmd := w, status := statusLaunched, phase := .busy }

/-- Completion without error, after the command's own writes (R33). -/
def State.complete (s : State) : State := { s with status := statusSuccess, phase := .idle }

/-- Taking the error `e`, the DQU's one exception entry (R33, R225): `STATUS` and `phase` change and nothing else;
nothing is saved and control goes nowhere. There is no return from it (R226): the next `State.launch` clears it. -/
def State.raiseError (s : State) (e : CmdError) : State := { s with status := statusError e, phase := .idle }

/-- Completion of a scalar command with one result: `RES0 <- v`, `RES1` unchanged (R23). -/
def State.completeScalar (s : State) (v : Word) : State := ({ s with res0 := v }).complete

/-- Completion of a scalar command with two results (R23). -/
def State.completeScalar2 (s : State) (v0 v1 : Word) : State := ({ s with res0 := v0, res1 := v1 }).complete

/-! ### Reset -/

/-- Release of the reset input (R250 to R252): the reset state, whatever was in flight, with new unspecified
buffer contents; the parameters and the outside world stay. -/
def State.releaseReset (s : State) : State := State.afterReset s.params (s.epoch + 1) s.inputs s.replies

end Sys2Proof.Machine
end

