-- ==== Sys2Proof/Machine/Operands.lean ====
section
/-! DEFINITION. The operand forms: the registers by number and offset (10_state.md R21), the fields of `OPA` and the arguments (30_encoding.md R82), the bytes of a block (00_scope.md R13), and the ranges a command reads and writes (20_memory.md R55). -/

namespace Sys2Proof.Machine

/-! ### Registers -/

/-- The nine registers of R21. -/
inductive Reg where
  | cmd
  | status
  | src
  | dst
  | k
  | nb
  | opa
  | res0
  | res1
  deriving DecidableEq, Repr

/-- The register's number, its word offset (R21). -/
def Reg.number : Reg → Nat
  | .cmd => 0
  | .status => 1
  | .src => 2
  | .dst => 3
  | .k => 4
  | .nb => 5
  | .opa => 6
  | .res0 => 7
  | .res1 => 8

/-- The register's byte offset in the register space (R21). -/
def Reg.offset (r : Reg) : Nat := 4 * r.number

/-- `x[i]` (R12): the value a read of the register returns. Reading changes nothing (R54). -/
def State.readReg (s : State) : Reg → Word
  | .cmd => s.cmd
  | .status => s.status
  | .src => s.src
  | .dst => s.dst
  | .k => s.k
  | .nb => s.nb
  | .opa => s.opa
  | .res0 => s.res0
  | .res1 => s.res1

/-- What a byte offset names for a 32-bit register access. -/
inductive RegTarget where
  /-- One of the nine registers. -/
  | register (r : Reg)
  /-- The reserved offsets 0x24 to 0xFF: read as zero, ignore writes (R35). Those that are not multiples of four are
  among them: DEDUCED (log 18). -/
  | reserved
  /-- A byte inside one of the nine words that is not its first (log 8). -/
  | insideWord
  /-- 0x100 or more: not in the register space. -/
  | outside
  deriving DecidableEq, Repr

/-- The map of the register space (R21, R35, R57). -/
def regTarget (offset : Nat) : RegTarget :=
  match offset with
  | 0x00 => .register .cmd
  | 0x04 => .register .status
  | 0x08 => .register .src
  | 0x0C => .register .dst
  | 0x10 => .register .k
  | 0x14 => .register .nb
  | 0x18 => .register .opa
  | 0x1C => .register .res0
  | 0x20 => .register .res1
  | o => if o < 0x24 then .insideWord else if o < 0x100 then .reserved else .outside

/-! ### Scalar operands -/

/-- The operand of `H2F`: `OPA[15:0]`, the upper half ignored (R82, R113). -/
def State.opaHalf (s : State) : Half := s.opa.extractLsb' 0 16

/-- The operand of `E8M0H`: `OPA[7:0]`, the upper bits ignored (R82, R123). -/
def State.opaByte (s : State) : Byte := s.opa.extractLsb' 0 8

/-! ### Bytes -/

/-- `MemRead(a, n)` of R13 over any numbered bytes: the `n` bytes from `a` on as one little-endian integer
(R50). -/
def memRead (bytes : Nat → Byte) (a : Nat) : Nat → Nat
  | 0 => 0
  | n + 1 => (bytes a).toNat + 2 ^ 8 * memRead bytes (a + 1) n

/-- `blk16(o)`: the little-endian 16-bit field at offset `o` (R13). -/
def blk16 (blk : Nat → Byte) (o : Nat) : Half := BitVec.ofNat 16 (memRead blk o 2)

/-- `blk32(o)`: the little-endian 32-bit field at offset `o` (R13). -/
def blk32 (blk : Nat → Byte) (o : Nat) : Word := BitVec.ofNat 32 (memRead blk o 4)

/-- The array of bytes that starts at offset `o`, as in `blk[2..17]`: entry `j` is `blk[o + j]`. -/
def fieldAt (blk : Nat → Byte) (o : Nat) (j : Nat) : Byte := blk (o + j)

/-- `s8(b)`: the byte as a two's complement integer (00_scope.md R11). -/
def s8 (b : Byte) : Int := if b.toNat < 128 then (b.toNat : Int) else (b.toNat : Int) - 256

/-- The bytes from `SRC + skip` on, entry `o` being `IBUF[SRC + skip + o]` (R13, R217). -/
def State.bytesAt (s : State) (skip : Nat) (o : Nat) : Byte := s.ibufByte (s.src.toNat + skip + o)

/-! ### Block formats -/

/-- The eleven block formats (41_block_catalog.md R141). -/
inductive BlockFormat where
  | q4_0
  | q4_1
  | q5_0
  | q5_1
  | q8_0
  | q2_K
  | q3_K
  | q4_K
  | q5_K
  | q6_K
  | q8_K
  deriving DecidableEq, Repr

/-- `ELEMS` of a format (R141). -/
def BlockFormat.elems : BlockFormat → Nat
  | .q4_0 => 32
  | .q4_1 => 32
  | .q5_0 => 32
  | .q5_1 => 32
  | .q8_0 => 32
  | .q2_K => 256
  | .q3_K => 256
  | .q4_K => 256
  | .q5_K => 256
  | .q6_K => 256
  | .q8_K => 256

/-- `BLOCK_BYTES` of a format (R141); q8_K's depends on `Q8K_D_F32` (R152). -/
def BlockFormat.blockBytes (p : Params) : BlockFormat → Nat
  | .q4_0 => 18
  | .q4_1 => 20
  | .q5_0 => 22
  | .q5_1 => 24
  | .q8_0 => 34
  | .q2_K => 84
  | .q3_K => 110
  | .q4_K => 144
  | .q5_K => 176
  | .q6_K => 210
  | .q8_K => if p.q8kDF32 then 292 else 290

/-- The three classes of commands (R82). -/
inductive CmdClass where
  /-- `H2F`, `F2H`, `E8M0H`. -/
  | conversion
  /-- `GSM6`, `SC3K`. -/
  | extraction
  /-- The block decoder of a format. -/
  | block (f : BlockFormat)
  deriving DecidableEq, Repr

/-- The class of a command (R82). -/
def classOf : Instr → CmdClass
  | .h2f => .conversion
  | .f2h => .conversion
  | .e8m0h => .conversion
  | .gsm6 _ => .extraction
  | .sc3k _ => .extraction
  | .dq4_0 => .block .q4_0
  | .dq4_1 => .block .q4_1
  | .dq5_0 => .block .q5_0
  | .dq5_1 => .block .q5_1
  | .dq8_0 => .block .q8_0
  | .dq2_K => .block .q2_K
  | .dq3_K => .block .q3_K
  | .dq4_K => .block .q4_K
  | .dq5_K => .block .q5_K
  | .dq6_K => .block .q6_K
  | .dq8_K => .block .q8_K

/-! ### The ranges of the command in flight -/

/-- The class of the command that `CMD` encodes, none if the word is illegal. -/
def State.commandClass (s : State) : Option CmdClass :=
  match decode s.cmd with
  | .ok i => some (classOf i)
  | .error _ => none

/-- How many `IBUF` bytes from `SRC` on the command may read (R55): for a block decoder `NB * BLOCK_BYTES`, for an
extractor 12. It does not depend on whether the command will end in an error (log 7). -/
def State.readLength (s : State) : Nat :=
  match s.commandClass with
  | some (.block f) => s.nb.toNat * f.blockBytes s.params
  | some .extraction => 12
  | some .conversion => 0
  | none => 0

/-- Whether `IBUF[a]` is in the range the command reads (R55, R257). -/
def State.readsIbuf (s : State) (a : Nat) : Bool :=
  decide (s.src.toNat ≤ a) && decide (a < s.src.toNat + s.readLength)

/-- Whether `OBUF[i]` is in `[DST, DST + K)` of a block decoder (R55, R258). -/
def State.writesObuf (s : State) (i : Nat) : Bool :=
  match s.commandClass with
  | some (.block _) => decide (s.dst.toNat ≤ i) && decide (i < s.dst.toNat + s.k.toNat)
  | some .extraction => false
  | some .conversion => false
  | none => false

/-- Whether the command is a scalar command, whose results are in `RES0`, `RES1` (R23, R258). -/
def State.isScalarCommand (s : State) : Bool :=
  match s.commandClass with
  | some (.block _) => false
  | some .extraction => true
  | some .conversion => true
  | none => false

/-! ### Where the spaces sit on the host's bus -/

/-- The bus address of a register (R57). -/
def busOfReg (r : Reg) : Nat := Config.regBase + r.offset

/-- The bus address of `IBUF[a]` (R57). -/
def busOfIbuf (a : Nat) : Nat := Config.ibufBase + a

/-- The bus address of byte `b` (0 to 3) of `OBUF[i]` where the platform exposes `OBUF` to a byte-addressed bus
(R51, R57). DEDUCED: cells of four bytes stand back to back (log 16). -/
def busOfObuf (i b : Nat) : Nat := Config.obufBase + 4 * i + b

/-- Byte `b` (0 to 3) of `OBUF[i]` as such a bus shows it: little-endian (R51). -/
def State.obufBusByte (s : State) (i b : Nat) : Byte := (s.obufWord i).extractLsb' (8 * b) 8

end Sys2Proof.Machine
end

