-- ==== Sys2Proof/Machine/Blocks.lean ====
section
/-! DEFINITION. The procedure all eleven block decoders share (42_linear_decoders.md R160 to R164, R176; 44_superblock_decoders.md R190). -/

namespace Sys2Proof.Machine

/-- An element function `elem_<fmt>` (R161): from the bytes of one block and an element index to the pattern. -/
abbrev ElemFn := (Nat → Byte) → Nat → Word

/-- The bytes of block `i` of format `f`: `blk[o] = IBUF[SRC + i*BLOCK_BYTES + o]` (R13, R164). -/
def State.block (s : State) (f : BlockFormat) (i : Nat) : Nat → Byte := s.bytesAt (i * f.blockBytes s.params)

/-- The output of rank `t` of a decode: element `t mod ELEMS` of block `t div ELEMS` (R56, R164). -/
def State.blockOutput (s : State) (f : BlockFormat) (elem : ElemFn) (t : Nat) : Word :=
  elem (s.block f (t / f.elems)) (t % f.elems)

/-- The procedure of R161: the length check (R162), the range check (R163), then every output. The sums and
products are over the naturals (R214). -/
def State.decodeBlocks (s : State) (f : BlockFormat) (elem : ElemFn) : State :=
  if s.k.toNat % f.elems ≠ 0 ∨ s.nb.toNat * f.elems ≠ s.k.toNat then s.raiseError .invalidLength
  else if s.params.ibufBytes < s.src.toNat + s.nb.toNat * f.blockBytes s.params
      ∨ s.params.obufWords < s.dst.toNat + s.k.toNat then s.raiseError .bufferRange
  else (s.setObufRange s.dst.toNat s.k.toNat (s.blockOutput f elem)).complete

end Sys2Proof.Machine
end

