-- ==== Sys2Proof/Machine/Numerics.lean ====
section
/-! DEFINITION. Binary32 arithmetic on patterns (40_conversion.md R100 to R107): values are computed exactly over the integers and rounded once, at the end. -/

namespace Sys2Proof.Machine

/-- The sign bit of a binary32 pattern (R100). -/
def signF (w : Word) : Bool := w.getLsbD 31

/-- The exponent field `E = w[30:23]` (R100). -/
def expF (w : Word) : Nat := (w.extractLsb' 23 8).toNat

/-- The fraction `M = w[22:0]` (R100). -/
def fracF (w : Word) : Nat := (w.extractLsb' 0 23).toNat

/-- A NaN (R100). -/
def isNaN (w : Word) : Bool := expF w == 255 && fracF w != 0

/-- An infinity (R100). -/
def isInf (w : Word) : Bool := expF w == 255 && fracF w == 0

/-- A zero of either sign (R100). -/
def isZero (w : Word) : Bool := expF w == 0 && fracF w == 0

/-- `val32(w) * 2^149` for a finite pattern (R100): every finite binary32 value is an integer multiple of
`2^-149`, so this is exact. -/
def scaledF (w : Word) : Int :=
  let magnitude : Nat := if expF w = 0 then fracF w else (2 ^ 23 + fracF w) * 2 ^ (expF w - 1)
  if signF w then -(magnitude : Int) else (magnitude : Int)

/-- The pattern with the given sign and the magnitude bits `mag` (below `2^31`). -/
def withSign (neg : Bool) (mag : Nat) : Word := BitVec.ofNat 32 ((if neg then 2 ^ 31 else 0) + mag)

/-- The integer nearest to `m / 2^k`, the even one of two equally near (R101). -/
def nearestEven (m k : Nat) : Nat :=
  let n := m / 2 ^ k
  let r := m % 2 ^ k
  if 2 ^ k < 2 * r ∨ (2 * r = 2 ^ k ∧ n % 2 = 1) then n + 1 else n

/-- The magnitude bits of `n * 2^(e-23)` where `n <= 2^24`, `-126 <= e`, and `n < 2^23` only if `e = -126` (R101):
a zero or subnormal, a normal, or, for `n = 2^24`, the power of two `2^(e+1)`. -/
def packMagnitude (n : Nat) (e : Int) : Nat :=
  if n < 2 ^ 23 then n
  else if n = 2 ^ 24 then (e + 128).toNat * 2 ^ 23
  else (e + 127).toNat * 2 ^ 23 + (n - 2 ^ 23)

/-- `round32(x)` for the nonzero real `x` of sign `neg` and magnitude `m * 2^t` (R101): round to nearest, ties to
even, gradual underflow, overflow to infinity. The test `n * q >= 2^128` is made after multiplying by `2^149`. -/
def round32 (neg : Bool) (m : Nat) (t : Int) : Word :=
  let e : Int := max ((Nat.log2 m : Int) + t) (-126)
  let k : Int := e - 23 - t
  let n : Nat := if k ≤ 0 then m * 2 ^ (-k).toNat else nearestEven m k.toNat
  if 2 ^ 277 ≤ n * 2 ^ (e + 126).toNat then withSign neg 0x7F800000
  else withSign neg (packMagnitude n e)

/-- `i2f(n)` (R102): the pattern of the integer `n`, `+0` for 0. Beyond `2^24` it rounds: DEDUCED, safe
(log 19). -/
def i2f (n : Int) : Word := if n = 0 then 0#32 else round32 (decide (n < 0)) n.natAbs 0

/-- `fmul(a, b)` (R103), with the tests in its order; every NaN result is `CANON_NAN` (R104, log 12). -/
def fmul (p : Params) (a b : Word) : Word :=
  if isNaN a || isNaN b then p.canonNan
  else if (isInf a && isZero b) || (isZero a && isInf b) then p.canonNan
  else
    let s := signF a ^^ signF b
    if isInf a || isInf b then withSign s 0x7F800000
    else if isZero a || isZero b then withSign s 0
    else round32 s (scaledF a * scaledF b).natAbs (-298)

/-- `fadd(a, b)` (R105), with the tests in its order; every NaN result is `CANON_NAN` (R104). -/
def fadd (p : Params) (a b : Word) : Word :=
  if isNaN a || isNaN b then p.canonNan
  else if isInf a && isInf b then (if a = b then a else p.canonNan)
  else if isInf a then a
  else if isInf b then b
  else
    let x := scaledF a + scaledF b
    if x ≠ 0 then round32 (decide (x < 0)) x.natAbs (-149)
    else if a = 0x80000000#32 ∧ b = 0x80000000#32 then 0x80000000#32
    else 0#32

/-- `fsub(a, b)` (R106): the sign bit of `b` is flipped and the two are added. -/
def fsub (p : Params) (a b : Word) : Word := fadd p a (b ^^^ 0x80000000#32)

end Sys2Proof.Machine
end

