-- ==== Sys2Proof/Machine/Conversion.lean ====
section
/-! DEFINITION. The half-precision conversion engine (40_conversion.md): `H2F`, `F2H`, `E8M0H`. -/

namespace Sys2Proof.Machine

/-- A binary32 pattern from its sign bit, exponent field and fraction (R100). -/
def packF (s : BitVec 1) (e : BitVec 8) (m : BitVec 23) : Word := s ++ e ++ m

/-- `h2f(h)` (R113; NaN by R114). -/
def h2f (p : Params) (h : Half) : Word :=
  let s := h.extractLsb' 15 1
  let e := h.extractLsb' 10 5
  let m := h.extractLsb' 0 10
  if e = 0#5 ∧ m = 0#10 then packF s 0#8 0#23
  else if e = 0#5 then
    let lead := Nat.log2 m.toNat
    packF s (BitVec.ofNat 8 (103 + lead)) (m.setWidth 23 <<< (23 - lead))
  else if e = 31#5 ∧ m = 0#10 then packF s 0xFF#8 0#23
  else if e = 31#5 then
    packF s 0xFF#8 ((m ++ 0#13) ||| (if p.h2fQuiet then 0x400000#23 else 0#23))
  else packF s (e.setWidth 8 + 112#8) (m ++ 0#13)

/-- `f2h(w)` (R119; NaN by R121). -/
def f2h (p : Params) (w : Word) : Half :=
  let s := w.extractLsb' 31 1
  let e := (w.extractLsb' 23 8).toNat
  let m := (w.extractLsb' 0 23).toNat
  if e = 255 ∧ m ≠ 0 then s ++ p.f2hNan
  else if e = 255 then s ++ 0x7C00#15
  else if 113 ≤ e then
    let c := (e - 112) * 2 ^ 10 + m / 2 ^ 13
    let r := m % 2 ^ 13
    let c := if 0x1000 < r ∨ (r = 0x1000 ∧ c % 2 = 1) then c + 1 else c
    let c := if 0x7C00 ≤ c then 0x7C00 else c
    s ++ BitVec.ofNat 15 c
  else if e ≤ 101 then s ++ 0#15
  else
    let sh := 126 - e
    let sig := 0x800000 + m
    let n := sig / 2 ^ sh
    let r := sig % 2 ^ sh
    let half := 2 ^ (sh - 1)
    let n := if half < r ∨ (r = half ∧ n % 2 = 1) then n + 1 else n
    s ++ BitVec.ofNat 15 n

/-- `e8m0h(x)` (R123). -/
def e8m0h (x : Byte) : Word :=
  if 2 ≤ x.toNat then packF 0#1 (x - 1#8) 0#23
  else if x = 1#8 then 0x00400000#32
  else 0x00200000#32

/-- `H2F` (R113): `RES0 <- h2f(OPA[15:0])`. -/
def execH2f (s : State) : Host.Outcome State Fault Refusal :=
  .next (s.completeScalar (h2f s.params s.opaHalf))

/-- `F2H` (R119): `RES0 <- zext_32(f2h(OPA))`. -/
def execF2h (s : State) : Host.Outcome State Fault Refusal :=
  .next (s.completeScalar ((f2h s.params s.opa).setWidth 32))

/-- `E8M0H` (R123): `RES0 <- e8m0h(OPA[7:0])`. -/
def execE8m0h (s : State) : Host.Outcome State Fault Refusal :=
  .next (s.completeScalar (e8m0h s.opaByte))

end Sys2Proof.Machine
end

