-- ==== Sys2Proof/Machine/Linear.lean ====
section
/-! DEFINITION. The linear block decoders (42_linear_decoders.md): `DQ4_0`, `DQ4_1`, `DQ5_0`, `DQ5_1`, `DQ8_0`. -/

namespace Sys2Proof.Machine

/-- `nib(qs, e)` (R172): elements 0 to 15 are the low nibbles of `qs[0..15]`, 16 to 31 the high ones. -/
def nib (qs : Nat → Byte) (e : Nat) : Nat := ((qs (e % 16)).toNat >>> (4 * (e / 16))) &&& 15

/-- `hb(qh, e)` (R167): bit `e` of the 32-bit field. -/
def hb (qh : Word) (e : Nat) : Nat := (qh.toNat >>> e) &&& 1

/-- `code5(qs, qh, e)` (R167), 0 to 31. -/
def code5 (qs : Nat → Byte) (qh : Word) (e : Nat) : Nat := nib qs e ||| (hb qh e <<< 4)

/-! ### Element codes (R173) -/

/-- The signed code of an element of q4_0 (R165), -8 to 7 (R173). -/
def codeQ4_0 (blk : Nat → Byte) (e : Nat) : Int := (nib (fieldAt blk 2) e : Int) - 8

/-- The code of an element of q4_1 (R166), 0 to 15 (R173). -/
def codeQ4_1 (blk : Nat → Byte) (e : Nat) : Int := nib (fieldAt blk 4) e

/-- The signed code of an element of q5_0 (R168), -16 to 15 (R173). -/
def codeQ5_0 (blk : Nat → Byte) (e : Nat) : Int := (code5 (fieldAt blk 6) (blk32 blk 2) e : Int) - 16

/-- The code of an element of q5_1 (R169), 0 to 31 (R173). -/
def codeQ5_1 (blk : Nat → Byte) (e : Nat) : Int := code5 (fieldAt blk 8) (blk32 blk 4) e

/-- The signed code of an element of q8_0 (R170), -128 to 127 (R173). -/
def codeQ8_0 (blk : Nat → Byte) (e : Nat) : Int := s8 (blk (2 + e))

/-! ### Elements -/

/-- `elem_q4_0` (R165). -/
def elemQ4_0 (p : Params) : ElemFn := fun blk e => fmul p (i2f (codeQ4_0 blk e)) (h2f p (blk16 blk 0))

/-- `elem_q4_1` (R166). -/
def elemQ4_1 (p : Params) : ElemFn := fun blk e =>
  fadd p (fmul p (i2f (codeQ4_1 blk e)) (h2f p (blk16 blk 0))) (h2f p (blk16 blk 2))

/-- `elem_q5_0` (R168). -/
def elemQ5_0 (p : Params) : ElemFn := fun blk e => fmul p (i2f (codeQ5_0 blk e)) (h2f p (blk16 blk 0))

/-- `elem_q5_1` (R169). -/
def elemQ5_1 (p : Params) : ElemFn := fun blk e =>
  fadd p (fmul p (i2f (codeQ5_1 blk e)) (h2f p (blk16 blk 0))) (h2f p (blk16 blk 2))

/-- `elem_q8_0` (R170). -/
def elemQ8_0 (p : Params) : ElemFn := fun blk e => fmul p (i2f (codeQ8_0 blk e)) (h2f p (blk16 blk 0))

/-- `DQ4_0` (R165). -/
def execDq4_0 (s : State) : Host.Outcome State Fault Refusal := .next (s.decodeBlocks .q4_0 (elemQ4_0 s.params))

/-- `DQ4_1` (R166). -/
def execDq4_1 (s : State) : Host.Outcome State Fault Refusal := .next (s.decodeBlocks .q4_1 (elemQ4_1 s.params))

/-- `DQ5_0` (R168). -/
def execDq5_0 (s : State) : Host.Outcome State Fault Refusal := .next (s.decodeBlocks .q5_0 (elemQ5_0 s.params))

/-- `DQ5_1` (R169). -/
def execDq5_1 (s : State) : Host.Outcome State Fault Refusal := .next (s.decodeBlocks .q5_1 (elemQ5_1 s.params))

/-- `DQ8_0` (R170). -/
def execDq8_0 (s : State) : Host.Outcome State Fault Refusal := .next (s.decodeBlocks .q8_0 (elemQ8_0 s.params))

end Sys2Proof.Machine
end

