-- ==== Sys2Proof/Machine/Scales.lean ====
section
/-! DEFINITION. The super-block scale extractors (43_scale_extract.md): `GSM6`, `SC3K` and their pure functions. The two are different functions of the same bytes and stay apart (R187). -/

namespace Sys2Proof.Machine

/-- The scale of `gsm(j, q)` (R180), 0 to 63; `q` is a 12-byte array, `j` a sub-block index 0 to 7. -/
def gsmScale (q : Nat → Byte) (j : Nat) : Nat :=
  if j < 4 then (q j).toNat &&& 63
  else ((q (j + 4)).toNat &&& 15) ||| (((q (j - 4)).toNat >>> 6) <<< 4)

/-- The minimum of `gsm(j, q)` (R180), 0 to 63. -/
def gsmMin (q : Nat → Byte) (j : Nat) : Nat :=
  if j < 4 then (q (j + 4)).toNat &&& 63
  else ((q (j + 4)).toNat >>> 4) ||| (((q j).toNat >>> 6) <<< 4)

/-- `sc3(s, t)` (R184): the raw 6-bit scale code, 0 to 63, of the 16-element sub-block `t`, 0 to 15. -/
def sc3 (b : Nat → Byte) (t : Nat) : Nat :=
  let k := t % 4
  let g := t / 4
  let lo :=
    if g = 0 then (b k).toNat &&& 15
    else if g = 1 then (b (4 + k)).toNat &&& 15
    else if g = 2 then (b k).toNat >>> 4
    else (b (4 + k)).toNat >>> 4
  let hi := ((b (8 + k)).toNat >>> (2 * g)) &&& 3
  lo ||| (hi <<< 4)

/-- The range check of the extractors (R181, R185, R223), then the two results. -/
def State.extractScale (s : State) (v0 v1 : Word) : State :=
  if s.params.ibufBytes < s.src.toNat + 12 then s.raiseError .bufferRange
  else s.completeScalar2 v0 v1

/-- `GSM6 J` (R181). An index above 7 has no legal word; R181 names its error all the same.
DESIGN CHOICE, safe (log 14). -/
def execGsm6 (j : BitVec 4) (s : State) : Host.Outcome State Fault Refusal :=
  .next (if 7 < j.toNat then s.raiseError .illegalCommand
    else s.extractScale (BitVec.ofNat 32 (gsmScale (s.bytesAt 0) j.toNat))
      (BitVec.ofNat 32 (gsmMin (s.bytesAt 0) j.toNat)))

/-- `SC3K J` (R185): `RES0` the signed scale in two's complement, `RES1` the raw code. -/
def execSc3k (j : BitVec 4) (s : State) : Host.Outcome State Fault Refusal :=
  .next (s.extractScale (BitVec.ofInt 32 ((sc3 (s.bytesAt 0) j.toNat : Int) - 32))
    (BitVec.ofNat 32 (sc3 (s.bytesAt 0) j.toNat)))

end Sys2Proof.Machine
end

