-- ==== Sys2Proof/Machine/SuperBlock.lean ====
section
/-! DEFINITION. The super-block decoders (44_superblock_decoders.md): `DQ2_K`, `DQ3_K`, `DQ4_K`, `DQ5_K`, `DQ6_K`, `DQ8_K`. -/

namespace Sys2Proof.Machine

/-- `q2(qs, e)` (R193): the 2-bit field of element `e` in a 64-byte array. -/
def q2 (qs : Nat → Byte) (e : Nat) : Nat :=
  ((qs (32 * (e / 128) + e % 32)).toNat >>> (2 * ((e % 128) / 32))) &&& 3

/-- `nibK(qs, e)` (R197): the nibble of element `e` in a 128-byte array. -/
def nibK (qs : Nat → Byte) (e : Nat) : Nat :=
  ((qs (32 * (e / 64) + e % 32)).toNat >>> (4 * ((e / 32) % 2))) &&& 15

/-- `hbK(a, e)` (R199): the high bit of element `e` in a 32-byte array, byte `e mod 32`, bit `e div 32`. -/
def hbK (a : Nat → Byte) (e : Nat) : Nat := ((a (e % 32)).toNat >>> (e / 32)) &&& 1

/-- The 6-bit code of element `e` of a q6_K block before the bias (R200, R201): half `N`, span `g`, lane `l`. -/
def code6 (blk : Nat → Byte) (e : Nat) : Nat :=
  let half := e / 128
  let g := (e % 128) / 32
  let l := e % 32
  let lo := ((blk (64 * half + 32 * (g % 2) + l)).toNat >>> (4 * (g / 2))) &&& 15
  let hi := ((blk (128 + 32 * half + l)).toNat >>> (2 * g)) &&& 3
  lo ||| (hi <<< 4)

/-! ### Scale, minimum and element codes: the integers that the elements multiply (R204) -/

/-- The scale code of an element of q2_K (R191, R192), 0 to 15 (R204). -/
def scaleQ2_K (blk : Nat → Byte) (e : Nat) : Int := ((blk (e / 16)).toNat &&& 15 : Nat)

/-- The minimum code of an element of q2_K (R191, R192), 0 to 15 (R204). -/
def minQ2_K (blk : Nat → Byte) (e : Nat) : Int := ((blk (e / 16)).toNat >>> 4 : Nat)

/-- The code of an element of q2_K (R192), 0 to 3 (R204). -/
def codeQ2_K (blk : Nat → Byte) (e : Nat) : Int := q2 (fieldAt blk 16) e

/-- The signed scale of an element of q3_K (R194), -32 to 31 (R204). -/
def scaleQ3_K (blk : Nat → Byte) (e : Nat) : Int := (sc3 (fieldAt blk 96) (e / 16) : Int) - 32

/-- The signed code of an element of q3_K (R194), -4 to 3 (R204). -/
def codeQ3_K (blk : Nat → Byte) (e : Nat) : Int := (q2 (fieldAt blk 32) e : Int) + 4 * (hbK blk e : Int) - 4

/-- The scale code of an element of q4_K or q5_K (R196, R198), 0 to 63 (R204). -/
def scaleQ45_K (blk : Nat → Byte) (e : Nat) : Int := gsmScale (fieldAt blk 4) (e / 32)

/-- The minimum code of an element of q4_K or q5_K (R196, R198), 0 to 63 (R204). -/
def minQ45_K (blk : Nat → Byte) (e : Nat) : Int := gsmMin (fieldAt blk 4) (e / 32)

/-- The code of an element of q4_K (R196), 0 to 15 (R204). -/
def codeQ4_K (blk : Nat → Byte) (e : Nat) : Int := nibK (fieldAt blk 16) e

/-- The code of an element of q5_K (R198), 0 to 31 (R204). -/
def codeQ5_K (blk : Nat → Byte) (e : Nat) : Int := (nibK (fieldAt blk 48) e : Int) + 16 * (hbK (fieldAt blk 16) e : Int)

/-- The signed scale of an element of q6_K (R200), -128 to 127 (R204). -/
def scaleQ6_K (blk : Nat → Byte) (e : Nat) : Int := s8 (blk (192 + e / 16))

/-- The signed code of an element of q6_K (R200), -32 to 31 (R204). -/
def codeQ6_K (blk : Nat → Byte) (e : Nat) : Int := (code6 blk e : Int) - 32

/-- The signed code of an element of q8_K (R202), -128 to 127 (R204), for both values of `Q8K_D_F32`. -/
def codeQ8_K (p : Params) (blk : Nat → Byte) (e : Nat) : Int := s8 (blk ((if p.q8kDF32 then 4 else 2) + e))

/-! ### Elements: the super-block scale first takes the sub-block scale, then the element code (R206) -/

/-- `d * scale * code`, in the order R206 fixes. -/
def scaledCode (p : Params) (d : Half) (scale code : Int) : Word := fmul p (fmul p (h2f p d) (i2f scale)) (i2f code)

/-- `d * scale * code - dmin * min`: the minimum term by R206, the subtraction by R205. -/
def scaledCodeLessMin (p : Params) (d dmin : Half) (scale code min : Int) : Word :=
  fsub p (scaledCode p d scale code) (fmul p (h2f p dmin) (i2f min))

/-- `elem_q2_K` (R192). -/
def elemQ2_K (p : Params) : ElemFn := fun blk e =>
  scaledCodeLessMin p (blk16 blk 80) (blk16 blk 82) (scaleQ2_K blk e) (codeQ2_K blk e) (minQ2_K blk e)

/-- `elem_q3_K` (R194). -/
def elemQ3_K (p : Params) : ElemFn := fun blk e =>
  scaledCode p (blk16 blk 108) (scaleQ3_K blk e) (codeQ3_K blk e)

/-- `elem_q4_K` (R196). -/
def elemQ4_K (p : Params) : ElemFn := fun blk e =>
  scaledCodeLessMin p (blk16 blk 0) (blk16 blk 2) (scaleQ45_K blk e) (codeQ4_K blk e) (minQ45_K blk e)

/-- `elem_q5_K` (R198). -/
def elemQ5_K (p : Params) : ElemFn := fun blk e =>
  scaledCodeLessMin p (blk16 blk 0) (blk16 blk 2) (scaleQ45_K blk e) (codeQ5_K blk e) (minQ45_K blk e)

/-- `elem_q6_K` (R200). -/
def elemQ6_K (p : Params) : ElemFn := fun blk e =>
  scaledCode p (blk16 blk 208) (scaleQ6_K blk e) (codeQ6_K blk e)

/-- `elem_q8_K` (R202): the scale is a binary32 pattern as it stands, or a converted half. -/
def elemQ8_K (p : Params) : ElemFn := fun blk e =>
  fmul p (if p.q8kDF32 then blk32 blk 0 else h2f p (blk16 blk 0)) (i2f (codeQ8_K p blk e))

/-- `DQ2_K` (R192). -/
def execDq2_K (s : State) : Host.Outcome State Fault Refusal := .next (s.decodeBlocks .q2_K (elemQ2_K s.params))

/-- `DQ3_K` (R194). -/
def execDq3_K (s : State) : Host.Outcome State Fault Refusal := .next (s.decodeBlocks .q3_K (elemQ3_K s.params))

/-- `DQ4_K` (R196). -/
def execDq4_K (s : State) : Host.Outcome State Fault Refusal := .next (s.decodeBlocks .q4_K (elemQ4_K s.params))

/-- `DQ5_K` (R198). -/
def execDq5_K (s : State) : Host.Outcome State Fault Refusal := .next (s.decodeBlocks .q5_K (elemQ5_K s.params))

/-- `DQ6_K` (R200). -/
def execDq6_K (s : State) : Host.Outcome State Fault Refusal := .next (s.decodeBlocks .q6_K (elemQ6_K s.params))

/-- `DQ8_K` (R202). -/
def execDq8_K (s : State) : Host.Outcome State Fault Refusal := .next (s.decodeBlocks .q8_K (elemQ8_K s.params))

end Sys2Proof.Machine
end

