-- ==== Sys2Proof/Machine/Dispatch.lean ====
section
/-! DEFINITION. The meaning of every command at its completion: one arm per constructor, one direct call each. -/

namespace Sys2Proof.Machine

def exec (i : Instr) (s : State) : Host.Outcome State Fault Refusal :=
  match i with
  | .h2f => Sys2Proof.Machine.execH2f s
  | .f2h => Sys2Proof.Machine.execF2h s
  | .e8m0h => Sys2Proof.Machine.execE8m0h s
  | .gsm6 j => Sys2Proof.Machine.execGsm6 j s
  | .sc3k j => Sys2Proof.Machine.execSc3k j s
  | .dq4_0 => Sys2Proof.Machine.execDq4_0 s
  | .dq4_1 => Sys2Proof.Machine.execDq4_1 s
  | .dq5_0 => Sys2Proof.Machine.execDq5_0 s
  | .dq5_1 => Sys2Proof.Machine.execDq5_1 s
  | .dq8_0 => Sys2Proof.Machine.execDq8_0 s
  | .dq2_K => Sys2Proof.Machine.execDq2_K s
  | .dq3_K => Sys2Proof.Machine.execDq3_K s
  | .dq4_K => Sys2Proof.Machine.execDq4_K s
  | .dq5_K => Sys2Proof.Machine.execDq5_K s
  | .dq6_K => Sys2Proof.Machine.execDq6_K s
  | .dq8_K => Sys2Proof.Machine.execDq8_K s

end Sys2Proof.Machine
end

