-- ==== Sys2Proof/Machine/HostPort.lean ====
section
/-! DEFINITION. The host's side of the unit: what an access names, the hazards R257 and R258, and an access's effect (10_state.md R20 to R35, 20_memory.md R51, 70_reset_and_hazards.md R250 to R261). -/

namespace Sys2Proof.Machine

/-- How many bytes a width moves. -/
def Width.bytes : Width → Nat
  | .one => 1
  | .two => 2
  | .four => 4

/-! ### What an access names -/

/-- The fault of an access to something the spec says does not exist, none if it exists (R21, R27, R28, R35). -/
def HostAccess.fault (p : Params) : HostAccess → Option Fault
  | .readReg o | .writeReg o _ =>
    match regTarget o with
    | .register _ => none
    | .reserved => none
    | .insideWord => some .registerOffsetInsideWord
    | .outside => some .registerOffsetOutside
  | .readIbuf w a | .writeIbuf w a _ => if a + w.bytes ≤ p.ibufBytes then none else some .ibufIndexOutside
  | .readObuf i | .writeObuf i _ => if i < p.obufWords then none else some .obufIndexOutside

/-! ### Hazards -/

/-- The hazard of reading a register while a command is in flight (R258, R260). What neither rule names is allowed:
DEDUCED (log 11). -/
def State.readRegHazard (s : State) : Reg → Option Refusal
  | .res0 | .res1 => if s.isScalarCommand then some .resultTouchedWhileBusy else none
  | .cmd | .status | .src | .dst | .k | .nb | .opa => none

/-- The hazard of writing a register while a command is in flight (R257, R258). A write of `STATUS`, which is
ignored anyway (R26), is no hazard. -/
def State.writeRegHazard (s : State) : Reg → Option Refusal
  | .cmd => some .commandWrittenWhileBusy
  | .src | .dst | .k | .nb | .opa => some .argumentWrittenWhileBusy
  | .status => none
  | .res0 | .res1 => if s.isScalarCommand then some .resultTouchedWhileBusy else none

/-- The rule of R257 or R258 that an access breaks while a command is in flight, none if it breaks neither. -/
def State.hazard (s : State) : HostAccess → Option Refusal
  | .readReg o =>
    match regTarget o with
    | .register r => s.readRegHazard r
    | .reserved => none
    | .insideWord => none
    | .outside => none
  | .writeReg o _ =>
    match regTarget o with
    | .register r => s.writeRegHazard r
    | .reserved => none
    | .insideWord => none
    | .outside => none
  | .readIbuf _ _ => none
  | .writeIbuf w a _ =>
    if (List.range w.bytes).any (fun t => s.readsIbuf (a + t)) then some .inputWrittenWhileBusy else none
  | .readObuf i | .writeObuf i _ => if s.writesObuf i then some .outputTouchedWhileBusy else none

/-! ### Effects -/

/-- The answer to a host read. -/
def State.answer (s : State) (v : Word) : State := { s with replies := v :: s.replies }

/-- A host write of a register that is not forbidden (R25, R26, R35): `CMD` launches, the argument registers are
stored, the read-only registers ignore it. -/
def State.writeReg (s : State) (r : Reg) (v : Word) : State :=
  match r with
  | .cmd => s.launch v
  | .status => s
  | .src => { s with src := v }
  | .dst => { s with dst := v }
  | .k => { s with k := v }
  | .nb => { s with nb := v }
  | .opa => { s with opa := v }
  | .res0 => s
  | .res1 => s

/-- The low `n` bytes of `v` to `IBUF[a]` on, the least significant first (R51). -/
def State.setIbufBytes (s : State) (a : Nat) (v : Word) : Nat → State
  | 0 => s
  | n + 1 => (s.setIbufByte a (v.extractLsb' 0 8)).setIbufBytes (a + 1) (v >>> 8) n

/-- What an access does when nothing forbids it. Reads answer and change nothing else (R54); a narrow read answers
with zeros above (log 9); reserved offsets read zero and ignore writes (R35). -/
def State.accessEffect (s : State) : HostAccess → State
  | .readReg o =>
    match regTarget o with
    | .register r => s.answer (s.readReg r)
    | .reserved => s.answer 0#32
    | .insideWord => s
    | .outside => s
  | .writeReg o v =>
    match regTarget o with
    | .register r => s.writeReg r v
    | .reserved => s
    | .insideWord => s
    | .outside => s
  | .readIbuf w a => s.answer (BitVec.ofNat 32 (memRead s.ibufByte a w.bytes))
  | .writeIbuf w a v => s.setIbufBytes a v w.bytes
  | .readObuf i => s.answer (s.obufWord i)
  | .writeObuf i v => s.setObufWord i v

/-- One access of the host. While reset is asserted it is ignored (R250). An access to what does not exist faults;
one that R257 or R258 forbids while a command is in flight is refused (R259); any other has its effect. Among these
is an access to the results after the completion that comes before the host has read `DONE = 1`: R60 and R256 promise
nothing to it, and the model lets it act on the completed state, DESIGN CHOICE, unsafe (log 21). -/
def State.hostAccess (s : State) (a : HostAccess) : Host.Outcome State Fault Refusal :=
  if s.resetPin then .next s
  else
    match a.fault s.params with
    | some f => .fault f
    | none =>
      match s.phase with
      | .idle => .next (s.accessEffect a)
      | .busy =>
        match s.hazard a with
        | some r => .refused r
        | none => .next (s.accessEffect a)

end Sys2Proof.Machine
end

