-- ==== Sys2Proof/Machine/Completion.lean ====
section
/-! DEFINITION. The DQU's own step (10_state.md R33): the completion of the command that `CMD` encodes; and how a command word is put in flight. -/

namespace Sys2Proof.Machine

/-- The completion step (R33): the rule of the command `CMD` encodes, or `IllegalCommand` if it encodes none
(R85, R222). -/
def State.completeCommand (s : State) : Host.Outcome State Fault Refusal :=
  match decode s.cmd with
  | .ok i => exec i s
  | .error _ => .next (s.raiseError .illegalCommand)

/-- The DQU's turn: it completes the command in flight; idle (R24; DEDUCED, safe: log 20), or while reset is asserted
(R250), it does nothing. -/
def State.dquTurn (s : State) : Host.Outcome State Fault Refusal :=
  if s.resetPin then .next s
  else
    match s.phase with
    | .idle => .next s
    | .busy => s.completeCommand

/-- What the next of the inputs does; with none left it is the DQU's turn. -/
def State.act (s : State) : Input → Host.Outcome State Fault Refusal
  | .host a => s.hostAccess a
  | .dquTurn => s.dquTurn
  | .assertReset => .next { s with resetPin := true }
  | .releaseReset => if s.resetPin then .next s.releaseReset else .next s

/-- The command word `w` in flight with the DQU's turn next: it is launched (R32), reset is not asserted, and if
other inputs wait, the DQU's turn is put before them (log 10). -/
def State.inFlight (s : State) (w : Word) : State :=
  let s := { s with resetPin := false }.launch w
  match s.inputs with
  | [] => s
  | _ :: _ => { s with inputs := .dquTurn :: s.inputs }

end Sys2Proof.Machine
end

