-- ==== Sys2Proof/Machine/Step.lean ====
section
/-! DEFINITION. One step of the whole machine: the next input acts, or, with no input left, the DQU has its turn. -/

namespace Sys2Proof.Machine

/-- One step. The head of `inputs` says whose move it is (R20); an empty list leaves every further move to the DQU,
so a launched command completes (R34). -/
def step (s : State) : Host.Outcome State Fault Refusal :=
  match s.inputs with
  | [] => s.dquTurn
  | x :: rest => State.act { s with inputs := rest } x

/-- The instruction of an opcode-table row's bits put where the next step runs it: `CMD` is written and the command
launched, as by the host's write (R25, R32; log 10). -/
def State.withFetchWord (s : State) (nbits w : Nat) : State := s.inFlight (tableWord nbits w)

end Sys2Proof.Machine
end

