-- ==== Sys2Proof/Machine/Script.lean ====
section
/-! DEFINITION. The host script of 30_encoding.md R88 and its pseudo-instructions R89, as lists of inputs. None of them is a command of the DQU. -/

namespace Sys2Proof.Machine

/-- One line of the host script (R88). -/
inductive ScriptLine where
  /-- `WR <reg>, <value>`. -/
  | wr (r : Reg) (value : Word)
  /-- `RD <reg>`. -/
  | rd (r : Reg)
  /-- `IB <offset>: <b0> <b1> ...`. -/
  | ib (offset : Nat) (bytes : List Byte)
  /-- `OB <index>`. -/
  | ob (index : Nat)
  /-- A mnemonic: `WR CMD` with the command's word. -/
  | command (i : Instr)
  /-- `WAIT`: `RD STATUS` until `DONE` is set. -/
  | wait
  deriving DecidableEq, Repr

/-- The byte writes of an `IB` line (R88). -/
def ibInputs (offset : Nat) : List Byte → List Input
  | [] => []
  | b :: bs => .host (.writeIbuf .one offset (b.setWidth 32)) :: ibInputs (offset + 1) bs

/-- A line as inputs (R88; DESIGN CHOICE, safe: log 17). `polls` is how many reads of `STATUS` a `WAIT` makes before the command completes:
the latency, which the spec leaves open (R262). The last read of a `WAIT` finds `DONE` set. -/
def ScriptLine.inputs (polls : Nat) : ScriptLine → List Input
  | .wr r v => [.host (.writeReg r.offset v)]
  | .rd r => [.host (.readReg r.offset)]
  | .ib o bs => ibInputs o bs
  | .ob i => [.host (.readObuf i)]
  | .command i => [.host (.writeReg Reg.cmd.offset (encode i))]
  | .wait =>
    List.replicate polls (.host (.readReg Reg.status.offset)) ++ [.dquTurn, .host (.readReg Reg.status.offset)]

/-- A script as inputs, every `WAIT` with the same number of early polls. -/
def scriptInputs (polls : Nat) (lines : List ScriptLine) : List Input := lines.flatMap (ScriptLine.inputs polls)

/-- `DEQ.<fmt> src, dst, k, nb` (R89), `i` the block decoder of the format. -/
def scriptDeq (i : Instr) (src dst k nb : Word) : List ScriptLine :=
  [.wr .src src, .wr .dst dst, .wr .k k, .wr .nb nb, .command i, .wait]

/-- `CVT.H2F h` (R89). -/
def scriptCvtH2f (h : Word) : List ScriptLine := [.wr .opa h, .command .h2f, .wait, .rd .res0]

/-- `CVT.F2H f` (R89). -/
def scriptCvtF2h (f : Word) : List ScriptLine := [.wr .opa f, .command .f2h, .wait, .rd .res0]

/-- `CVT.E8M0H x` (R89). -/
def scriptCvtE8m0h (x : Word) : List ScriptLine := [.wr .opa x, .command .e8m0h, .wait, .rd .res0]

/-- `XSM j, src` (R89). -/
def scriptXsm (j : BitVec 4) (src : Word) : List ScriptLine :=
  [.wr .src src, .command (.gsm6 j), .wait, .rd .res0, .rd .res1]

/-- `XS3 j, src` (R89). -/
def scriptXs3 (j : BitVec 4) (src : Word) : List ScriptLine :=
  [.wr .src src, .command (.sc3k j), .wait, .rd .res0, .rd .res1]

end Sys2Proof.Machine
end

