-- ==== Sys2Proof/Machine/Values.lean ====
section
/-! DEFINITION. The numbers that patterns denote (40_conversion.md R100, R110), for the statements. No meaning of a command uses this file. -/

namespace Sys2Proof.Machine

/-- A finite binary32 pattern: neither infinity nor NaN (R100). -/
def isFinite (w : Word) : Bool := expF w != 255

/-- `val32(w)` of a finite pattern (R100). -/
def val32 (w : Word) : ℚ := (scaledF w : ℚ) / 2 ^ 149

/-- The exponent field of a half pattern, `h[14:10]` (R110). -/
def expH (h : Half) : Nat := (h.extractLsb' 10 5).toNat

/-- The fraction of a half pattern, `h[9:0]` (R110). -/
def fracH (h : Half) : Nat := (h.extractLsb' 0 10).toNat

/-- A finite half pattern (R110). -/
def isFiniteH (h : Half) : Bool := expH h != 31

/-- A half NaN (R110). -/
def isNaNH (h : Half) : Bool := expH h == 31 && fracH h != 0

/-- A half infinity (R110). -/
def isInfH (h : Half) : Bool := expH h == 31 && fracH h == 0

/-- `val16(h)` of a finite pattern (R110): `m * 2^-24` or `(1024 + m) * 2^(e-25)`, with the sign. -/
def val16 (h : Half) : ℚ :=
  (if h.getLsbD 15 then -1 else 1) *
    (if expH h = 0 then (fracH h : ℚ) else (1024 + (fracH h : ℚ)) * 2 ^ (expH h - 1)) / 2 ^ 24

/-- `r` is `x` rounded to nearest, ties to even, as R101 has it: below the overflow threshold `2^128 - 2^103` no
finite pattern is nearer, and of two equally near ones `r` is the even one; from the threshold on `r` is the
infinity with the sign of `x`. -/
def correctlyRounded (x : ℚ) (r : Word) : Prop :=
  (|x| < 2 ^ 128 - 2 ^ 103 → isFinite r = true ∧
    ∀ w, isFinite w = true → |val32 r - x| ≤ |val32 w - x| ∧
      (|val32 w - x| = |val32 r - x| → val32 w = val32 r ∨ r.getLsbD 0 = false)) ∧
  (2 ^ 128 - 2 ^ 103 ≤ |x| → r = if x < 0 then 0xFF800000#32 else 0x7F800000#32)

/-- The element function of a format (R165 to R170, R192 to R202). -/
def elemOf (p : Params) : BlockFormat → ElemFn
  | .q4_0 => elemQ4_0 p
  | .q4_1 => elemQ4_1 p
  | .q5_0 => elemQ5_0 p
  | .q5_1 => elemQ5_1 p
  | .q8_0 => elemQ8_0 p
  | .q2_K => elemQ2_K p
  | .q3_K => elemQ3_K p
  | .q4_K => elemQ4_K p
  | .q5_K => elemQ5_K p
  | .q6_K => elemQ6_K p
  | .q8_K => elemQ8_K p

/-- The arguments of a decode are in order: the counts agree (R162) and both ranges fit (R163). -/
abbrev decodeFits (s : State) (f : BlockFormat) : Prop :=
  s.nb.toNat * f.elems = s.k.toNat ∧
  s.src.toNat + s.nb.toNat * f.blockBytes s.params ≤ s.params.ibufBytes ∧
  s.dst.toNat + s.k.toNat ≤ s.params.obufWords

/-- Byte `o` of block `b` of format `f` (R13). -/
abbrev blockByte (s : State) (f : BlockFormat) (b o : Nat) : Nat :=
  (s.ibufByte (s.src.toNat + b * f.blockBytes s.params + o)).toNat

/-- The little-endian half pattern at offset `o` of block `b` (R50). -/
abbrev blockHalf (s : State) (f : BlockFormat) (b o : Nat) : Half :=
  BitVec.ofNat 16 (blockByte s f b o + 256 * blockByte s f b (o + 1))

/-- The cell of `OBUF` that element `e` of block `b` goes to (R164). -/
abbrev outputCell (s : State) (f : BlockFormat) (b e : Nat) : Nat := s.dst.toNat + b * f.elems + e

end Sys2Proof.Machine
end

