-- ==== Sys2Proof/Safety.lean ====
section
/-! DEFINITION. What counts as a well-kept state and as a host that respects the hazards, in the terms the statements use. -/

namespace Sys2Proof.Machine

/-- `n` steps of the machine, stopping at the first fault or refusal. -/
abbrev runMachine (n : Nat) (s : State) : Host.Outcome State Fault Refusal := Host.Core.run Sys2Proof.core n s

/-- The values `STATUS` takes (10_state.md R26, R33, 60_exceptions.md R220): zero after reset, `BUSY` alone,
`DONE` alone, or `DONE`, `ERR` and one of the three codes. -/
abbrev statusLegal (w : Word) : Prop :=
  w = 0#32 ∨ w = statusLaunched ∨ w = statusSuccess ∨
  w = statusError .invalidLength ∨ w = statusError .illegalCommand ∨ w = statusError .bufferRange

/-- The invariant of the machine: the parameters are as R8 bounds them, both buffers are in canonical form with no
cell outside the array (R27, R28), `STATUS` has a legal value and its `BUSY` is `phase` (R20, R26). -/
structure Inv (s : State) : Prop where
  params : s.params.wf
  ibufWf : cellsWf s.ibuf
  ibufWithin : cellsWithin s.ibuf s.params.ibufBytes
  obufWf : cellsWf s.obuf
  obufWithin : cellsWithin s.obuf s.params.obufWords
  status : statusLegal s.status
  phase : s.phase = .busy ↔ s.status = statusLaunched

/-- A host access the spec gives a meaning in state `s`: it names something that exists and, while a command is in
flight, breaks neither R257 nor R258 (R259 makes the two a precondition of every host step). -/
abbrev hostPermitted (s : State) (a : HostAccess) : Prop :=
  a.fault s.params = none ∧ (s.phase = .busy → s.hazard a = none)

/-- The commands whose results are in `RES0`, `RES1`: all but the block decoders (R23). -/
abbrev scalarInFlight (s : State) : Prop := ∃ i, decode s.cmd = .ok i ∧ ∀ f, classOf i ≠ .block f

/-- `IBUF[c]` is in the range the command in flight reads (R55): from `SRC` on, `NB` blocks of a block decoder, twelve
bytes of an extractor, nothing of a conversion or of an illegal word. -/
abbrev readByCommand (s : State) (c : Nat) : Prop :=
  ∃ i, decode s.cmd = .ok i ∧ s.src.toNat ≤ c ∧
    ((∃ f, classOf i = .block f ∧ c < s.src.toNat + s.nb.toNat * f.blockBytes s.params) ∨
      (classOf i = .extraction ∧ c < s.src.toNat + 12))

/-- `OBUF[c]` is in `[DST, DST + K)` of a block decoder in flight (R55, R258). -/
abbrev writtenByCommand (s : State) (c : Nat) : Prop :=
  ∃ i f, decode s.cmd = .ok i ∧ classOf i = .block f ∧ s.dst.toNat ≤ c ∧ c < s.dst.toNat + s.k.toNat

/-- What R257 and R258 forbid the host while a command is in flight, in their own words. -/
def forbiddenWhileBusy (s : State) : HostAccess → Prop
  | .writeReg o _ =>
    o = 0x00 ∨ o = 0x08 ∨ o = 0x0C ∨ o = 0x10 ∨ o = 0x14 ∨ o = 0x18 ∨ ((o = 0x1C ∨ o = 0x20) ∧ scalarInFlight s)
  | .readReg o => (o = 0x1C ∨ o = 0x20) ∧ scalarInFlight s
  | .writeIbuf w a _ => ∃ c, a ≤ c ∧ c < a + w.bytes ∧ readByCommand s c
  | .readIbuf _ _ => False
  | .readObuf i => writtenByCommand s i
  | .writeObuf i _ => writtenByCommand s i

/-- Two states in which a command finds the same operands (R31): the parameters, the command word, the argument
registers its class names (R82) and every `IBUF` byte of the range the command reads are the same. The range is R55's
static one, also for a command that will end in an error: DEDUCED (log 7). -/
structure SameOperands (s t : State) : Prop where
  params : s.params = t.params
  cmd : s.cmd = t.cmd
  opa : s.commandClass = some .conversion → s.opa = t.opa
  src : s.commandClass ≠ some .conversion → s.commandClass ≠ none → s.src = t.src
  block : ∀ f, s.commandClass = some (.block f) → s.dst = t.dst ∧ s.k = t.k ∧ s.nb = t.nb
  bytes : ∀ a, s.readsIbuf a = true → s.ibufByte a = t.ibufByte a

end Sys2Proof.Machine
end

