-- ==== Sys2Proof/Certificates/Slice0/Obligations.lean ====
section
/-! DEFINITION. The statements for the provers: what the numbered rules say the commands and the machine do. -/

open Sys2Proof Sys2Proof.Machine

/-! ### Encoding -/

/-- R80, R83, R84, R90: decoding and encoding are inverse, on every word and every command. -/
def Obligations.DecodeAndEncodeAgree : Prop :=
  ∀ (w : Word) (i : Instr), decode w = .ok i ↔ i.wellFormed = true ∧ w = encode i

/-- R84: which words are legal commands, field by field; equivalently some row of the opcode table matches; and the
legal words are 38. -/
def Obligations.LegalWordsAreThoseOfTheTable : Prop :=
  (∀ w : Word, (∃ i, decode w = .ok i) ↔
    (w.extractLsb' 8 8 = 0#8 ∧ w.extractLsb' 20 12 = 0#12 ∧
      ((w.extractLsb' 0 8 ∈ [0x01#8, 0x02#8, 0x03#8, 0x10#8, 0x11#8, 0x12#8, 0x13#8, 0x14#8, 0x20#8, 0x21#8, 0x22#8,
          0x23#8, 0x24#8, 0x25#8] ∧ w.extractLsb' 16 4 = 0#4) ∨
        (w.extractLsb' 0 8 = 0x08#8 ∧ w.getLsbD 19 = false) ∨ w.extractLsb' 0 8 = 0x09#8))) ∧
  (∀ w : Word, (∃ i, decode w = .ok i) ↔ matchesTable w = true) ∧
  (∃ words : List Word, words.length = 38 ∧ words.Nodup ∧ ∀ w, w ∈ words ↔ ∃ i, decode w = .ok i)

/-- Words written out from R83 and 95_test_vectors.md section 2.10, one of every family and the reserved ones. -/
def Obligations.WrittenOutWordsDecode : Prop :=
  decode 0x00000001#32 = .ok .h2f ∧ decode 0x00050008#32 = .ok (.gsm6 5#4) ∧ decode 0x000F0009#32 = .ok (.sc3k 15#4) ∧
  decode 0x00000010#32 = .ok .dq4_0 ∧ decode 0x00000022#32 = .ok .dq4_K ∧
  decode 0x00000030#32 = .error .reservedIq4nl ∧ decode 0x00080008#32 = .error (.immediate 8#4) ∧
  decode 0x00000110#32 = .error .nonzeroZ0 ∧ decode 0x00100009#32 = .error .nonzeroZ1

/-! ### The step, launch and completion -/

/-- R33: with a command in flight and reset not asserted, the DQU's turn is the meaning of the command that `CMD`
decodes to; and the model's own placing of a word (log 10) has exactly this effect. Whose turn it is stands in the
model's list of inputs (log 4). -/
def Obligations.StepRunsTheDecodedCommand : Prop :=
  (∀ (s : State) (i : Instr), s.resetPin = false → s.phase = .busy → decode s.cmd = .ok i →
    (s.inputs = [] → step s = exec i s) ∧
    (∀ rest, s.inputs = .dquTurn :: rest → step s = exec i { s with inputs := rest })) ∧
  (∀ (s : State) (i : Instr), i.wellFormed = true →
    step (s.withFetchWord 32 (encode i).toNat) = exec i (State.launch { s with resetPin := false } (encode i)))

/-- R25, R32: a host write of `CMD` while idle stores the word, legal or not, sets `STATUS` to `BUSY` alone, makes the
unit busy and changes nothing else. -/
def Obligations.CommandWriteLaunches : Prop :=
  ∀ (s : State) (w : Word) (rest : List Input), s.phase = .idle → s.resetPin = false →
    s.inputs = .host (.writeReg 0 w) :: rest →
    step s = .next { s with inputs := rest, cmd := w, status := 0x00000001#32, phase := .busy }

/-- R85, R86, R222, R225: a launched word that no row of the table matches, any word with `OPC` 0x30 among them,
completes with `IllegalCommand` and changes only `STATUS` and the phase. -/
def Obligations.IllegalWordReportsIllegalCommand : Prop :=
  ∀ s : State, s.resetPin = false → s.phase = .busy → s.inputs = [] →
    (matchesTable s.cmd = false ∨ s.cmd.extractLsb' 0 8 = 0x30#8) →
    step s = .next { s with status := 0x00000026#32, phase := .idle }

/-- R34, R262: however many times the host polls `STATUS` first, a launched command completes at the DQU's turn; the
early polls read `BUSY` alone, and afterwards `DONE` is set and `BUSY` clear. The order of polls and turn is the model's
list of inputs (log 4). -/
def Obligations.LaunchedCommandCompletes : Prop :=
  ∀ (s : State) (n : Nat), s.resetPin = false → s.phase = .busy → s.status = 0x00000001#32 →
    s.inputs = List.replicate n (.host (.readReg 4)) ++ [.dquTurn] →
    ∃ t, runMachine (n + 1) s = .next t ∧ t.phase = .idle ∧ t.busyFlag = 0#1 ∧ t.doneFlag = 1#1 ∧ t.inputs = [] ∧
      t.replies = List.replicate n 0x00000001#32 ++ s.replies

/-- R33, R34, R228: every command, on every state, answers a next state, idle, with `DONE` set, and with `ERR` and a
code of R220 or neither. No data value stops a run. -/
def Obligations.EveryCommandEndsDone : Prop :=
  ∀ (i : Instr) (s : State), ∃ t, exec i s = .next t ∧ t.phase = .idle ∧ t.busyFlag = 0#1 ∧ t.doneFlag = 1#1 ∧
    ((t.errFlag = 0#1 ∧ t.ecodeField = 0#4) ∨
      (t.errFlag = 1#1 ∧ (t.ecodeField = 1#4 ∨ t.ecodeField = 2#4 ∨ t.ecodeField = 3#4)))

/-! ### Errors -/

/-- R162, R221, R224: a block decoder reports `InvalidLength` exactly when `NB * ELEMS` is not `K`, over the naturals
and whatever the ranges are. -/
def Obligations.InvalidLengthExactlyOnCountMismatch : Prop :=
  ∀ (i : Instr) (f : BlockFormat) (s : State), classOf i = .block f →
    (s.nb.toNat * f.elems ≠ s.k.toNat → exec i s = .next { s with status := 0x00000016#32, phase := .idle }) ∧
    (s.k.toNat % f.elems ≠ 0 → exec i s = .next { s with status := 0x00000016#32, phase := .idle }) ∧
    (s.nb.toNat * f.elems = s.k.toNat → ∃ t, exec i s = .next t ∧ t.status ≠ 0x00000016#32)

/-- R58, R163, R181, R185, R223: with the counts in order a block decoder, and an extractor with a legal immediate,
reports `BufferRange` exactly when a range does not fit its buffer, over the naturals. -/
def Obligations.BufferRangeExactlyWhenARangeDoesNotFit : Prop :=
  (∀ (i : Instr) (f : BlockFormat) (s : State), classOf i = .block f → s.nb.toNat * f.elems = s.k.toNat →
    ((s.params.ibufBytes < s.src.toNat + s.nb.toNat * f.blockBytes s.params ∨
        s.params.obufWords < s.dst.toNat + s.k.toNat) →
      exec i s = .next { s with status := 0x00000036#32, phase := .idle }) ∧
    (s.src.toNat + s.nb.toNat * f.blockBytes s.params ≤ s.params.ibufBytes →
      s.dst.toNat + s.k.toNat ≤ s.params.obufWords → ∃ t, exec i s = .next t ∧ t.status = 0x00000002#32)) ∧
  (∀ (i : Instr) (s : State), classOf i = .extraction → i.wellFormed = true →
    (s.params.ibufBytes < s.src.toNat + 12 → exec i s = .next { s with status := 0x00000036#32, phase := .idle }) ∧
    (s.src.toNat + 12 ≤ s.params.ibufBytes → ∃ t, exec i s = .next t ∧ t.status = 0x00000002#32))

/-- R225: whenever a command in flight ends in an error of code `c`, `STATUS` becomes `0x6 | (c << 4)` and the phase
idle, and nothing else changes. -/
def Obligations.ErrorChangesStatusAndPhaseOnly : Prop :=
  ∀ s t : State, s.completeCommand = .next t → t.errFlag = 1#1 →
    ∃ c : Word, (c = 1#32 ∨ c = 2#32 ∨ c = 3#32) ∧
      t = { s with status := 0x00000006#32 ||| (c <<< 4), phase := .idle }

/-- R176: `K = 0` with `NB = 0` needs only `SRC <= IBUF_BYTES` and `DST <= OBUF_WORDS`, succeeds and writes nothing;
with `NB` not 0 it is `InvalidLength`. -/
def Obligations.ZeroElementDecode : Prop :=
  ∀ (i : Instr) (f : BlockFormat) (s : State), classOf i = .block f → s.k = 0#32 →
    (s.nb = 0#32 → s.src.toNat ≤ s.params.ibufBytes → s.dst.toNat ≤ s.params.obufWords →
      exec i s = .next { s with status := 0x00000002#32, phase := .idle }) ∧
    (s.nb = 0#32 → (s.params.ibufBytes < s.src.toNat ∨ s.params.obufWords < s.dst.toNat) →
      exec i s = .next { s with status := 0x00000036#32, phase := .idle }) ∧
    (s.nb ≠ 0#32 → exec i s = .next { s with status := 0x00000016#32, phase := .idle })

/-! ### Conversions -/

/-- R113, R114, R115: `H2F` completes on every state, changes `RES0` besides `STATUS` and the phase only, and gives the
exact value of the half pattern in `OPA[15:0]`: finite values and the sign exactly, infinity to infinity, a NaN with
its sign and payload kept and the quiet bit set if `H2F_QUIET`. -/
def Obligations.H2fCompletesWithTheExactValue : Prop :=
  ∀ s : State, ∃ t, exec .h2f s = .next t ∧
    t = { s with res0 := t.res0, status := 0x00000002#32, phase := .idle } ∧
    (let h : Half := s.opa.extractLsb' 0 16
     signF t.res0 = h.getLsbD 15 ∧
     (isFiniteH h = true → isFinite t.res0 = true ∧ val32 t.res0 = val16 h) ∧
     (isInfH h = true → isInf t.res0 = true) ∧
     (isNaNH h = true → expF t.res0 = 255 ∧ t.res0.extractLsb' 0 13 = 0#13 ∧
       t.res0.extractLsb' 13 10 = h.extractLsb' 0 10 ||| (if s.params.h2fQuiet then 0x200#10 else 0#10)))

/-- R115: `h2f` is injective on the patterns that are not NaN, and maps NaN to NaN and nothing else to NaN. -/
def Obligations.H2fIsInjectiveOffNaN : Prop :=
  ∀ (p : Params) (g h : Half),
    (isNaNH g = false → isNaNH h = false → h2f p g = h2f p h → g = h) ∧ isNaN (h2f p h) = isNaNH h

/-- R119, R121, R122: `F2H` completes on every state, changes `RES0` besides `STATUS` and the phase only, and gives a
nearest half pattern, ties to even, with the sign kept; from 65520 on infinity; for a NaN the sign and `F2H_NAN`. -/
def Obligations.F2hCompletesRoundingToNearestEven : Prop :=
  ∀ s : State, ∃ t, exec .f2h s = .next t ∧
    t = { s with res0 := t.res0, status := 0x00000002#32, phase := .idle } ∧
    (let r : Half := t.res0.extractLsb' 0 16
     t.res0.extractLsb' 16 16 = 0#16 ∧ r.getLsbD 15 = signF s.opa ∧
     (isFinite s.opa = true → |val32 s.opa| < 65520 → isFiniteH r = true ∧
       ∀ g, isFiniteH g = true → |val16 r - val32 s.opa| ≤ |val16 g - val32 s.opa| ∧
         (|val16 g - val32 s.opa| = |val16 r - val32 s.opa| → val16 g = val16 r ∨ r.getLsbD 0 = false)) ∧
     (isFinite s.opa = true → 65520 ≤ |val32 s.opa| → isInfH r = true) ∧
     (isInf s.opa = true → isInfH r = true) ∧
     (isNaN s.opa = true → r.extractLsb' 0 15 = s.params.f2hNan))

/-- R122: `f2h` undoes `h2f` on every pattern that is not a NaN; on a NaN it keeps the sign and gives `F2H_NAN`. -/
def Obligations.F2hUndoesH2f : Prop :=
  ∀ (p : Params) (h : Half),
    (isNaNH h = false → f2h p (h2f p h) = h) ∧ (isNaNH h = true → f2h p (h2f p h) = h.extractLsb' 15 1 ++ p.f2hNan)

/-- R123: `E8M0H` completes on every state, changes `RES0` besides `STATUS` and the phase only, and gives `2^(x-128)`
for the code `x = OPA[7:0]`, codes 0 and 1 among them. -/
def Obligations.E8m0hCompletesWithAPowerOfTwo : Prop :=
  ∀ s : State, ∃ t, exec .e8m0h s = .next t ∧
    t = { s with res0 := t.res0, status := 0x00000002#32, phase := .idle } ∧
    isFinite t.res0 = true ∧ val32 t.res0 = 2 ^ (s.opa.toNat % 256) / 2 ^ 128

/-! ### Scale extractors -/

/-- R180, R181: `GSM6 J` with `J` up to 7 and its twelve bytes inside `IBUF` completes and writes the scale and the
minimum that the two bit-borrowing patterns give, and nothing else besides `STATUS` and the phase; with `J` above 7,
which no word encodes, it is `IllegalCommand` (the model's choice, log 14). -/
def Obligations.Gsm6CompletesWithScaleAndMinimum : Prop :=
  ∀ (s : State) (j : BitVec 4),
    (j.toNat ≤ 7 → s.src.toNat + 12 ≤ s.params.ibufBytes →
      (let q : Nat → Nat := fun o => (s.ibufByte (s.src.toNat + o)).toNat
       let n := j.toNat
       exec (.gsm6 j) s = .next { s with
         res0 := BitVec.ofNat 32 (if n < 4 then q n % 64 else q (n + 4) % 16 + 16 * (q (n - 4) / 64))
         res1 := BitVec.ofNat 32 (if n < 4 then q (n + 4) % 64 else q (n + 4) / 16 + 16 * (q n / 64))
         status := 0x00000002#32, phase := .idle })) ∧
    (7 < j.toNat → exec (.gsm6 j) s = .next { s with status := 0x00000026#32, phase := .idle })

/-- R184, R185: `SC3K J` with its twelve bytes inside `IBUF` completes and writes the raw code to `RES1` and the code
less 32 in two's complement to `RES0`, and nothing else besides `STATUS` and the phase. -/
def Obligations.Sc3kCompletesWithTheBiasedScale : Prop :=
  ∀ (s : State) (j : BitVec 4), s.src.toNat + 12 ≤ s.params.ibufBytes →
    (let q : Nat → Nat := fun o => (s.ibufByte (s.src.toNat + o)).toNat
     let k := j.toNat % 4
     let g := j.toNat / 4
     let lo := q (4 * (g % 2) + k) / 16 ^ (g / 2) % 16
     let hi := q (8 + k) / 4 ^ g % 4
     ∃ t, exec (.sc3k j) s = .next t ∧
       t = { s with res0 := t.res0, res1 := BitVec.ofNat 32 (lo + 16 * hi), status := 0x00000002#32, phase := .idle } ∧
       t.res0.toInt = (lo : Int) + 16 * (hi : Int) - 32)

/-- R182, R186: neither packing loses information: twelve bytes are determined by the sixteen values `gsm` extracts
from them, and by the sixteen values `sc3` extracts. -/
def Obligations.PackedScalesLoseNoBit : Prop :=
  ∀ q r : Nat → Byte,
    ((∀ j < 8, gsmScale q j = gsmScale r j ∧ gsmMin q j = gsmMin r j) → ∀ o < 12, q o = r o) ∧
    ((∀ t < 16, sc3 q t = sc3 r t) → ∀ o < 12, q o = r o)

/-! ### Arithmetic -/

/-- R102: `i2f` is exact up to `2^24` in magnitude, and 0 gives `+0`. -/
def Obligations.IntegerPatternsAreExact : Prop :=
  ∀ n : Int, |n| ≤ 2 ^ 24 → isFinite (i2f n) = true ∧ val32 (i2f n) = n ∧ signF (i2f n) = decide (n < 0) ∧
    (n = 0 → i2f n = 0x00000000#32)

/-- R101, R103, R105, R106: on finite operands products, sums and differences are the exact ones, correctly rounded
once, and their signs are fixed, zeros and underflowed results included: of a product the exclusive-or of the signs, of
a nonzero sum the exact sum's, of a zero sum `+0` unless both terms are `-0`. With an infinite operand, no NaN and none
of the cases that give NaN, the result is the infinity those rules name. -/
def Obligations.ArithmeticIsCorrectlyRounded : Prop :=
  ∀ (p : Params) (a b : Word),
    (isFinite a = true → isFinite b = true →
      correctlyRounded (val32 a * val32 b) (fmul p a b) ∧ signF (fmul p a b) = (signF a ^^ signF b) ∧
      correctlyRounded (val32 a + val32 b) (fadd p a b) ∧
      (val32 a + val32 b ≠ 0 → signF (fadd p a b) = decide (val32 a + val32 b < 0)) ∧
      (val32 a + val32 b = 0 →
        fadd p a b = if a = 0x80000000#32 ∧ b = 0x80000000#32 then 0x80000000#32 else 0x00000000#32) ∧
      correctlyRounded (val32 a - val32 b) (fsub p a b) ∧
      (val32 a - val32 b ≠ 0 → signF (fsub p a b) = decide (val32 a - val32 b < 0)) ∧
      (val32 a - val32 b = 0 →
        fsub p a b = if a = 0x80000000#32 ∧ b = 0x00000000#32 then 0x80000000#32 else 0x00000000#32)) ∧
    (isNaN a = false → isNaN b = false →
      (isInf a = true ∨ isInf b = true → isZero a = false → isZero b = false →
        fmul p a b = if signF a ^^ signF b then 0xFF800000#32 else 0x7F800000#32) ∧
      (isInf a = true → isInf b = false → fadd p a b = a ∧ fsub p a b = a) ∧
      (isInf a = false → isInf b = true → fadd p a b = b ∧ fsub p a b = b ^^^ 0x80000000#32) ∧
      (isInf a = true → isInf b = true → (a = b → fadd p a b = a) ∧ (a ≠ b → fsub p a b = a)))

/-- R103, R104, R105, R106: `fmul` and `fadd` are commutative; each operation returns a NaN only in the cases those
rules name, and then it is `CANON_NAN`. -/
def Obligations.OnlyTheNamedCasesGiveNaNAndItIsCanonical : Prop :=
  ∀ (p : Params) (a b : Word), p.wf →
    fmul p a b = fmul p b a ∧ fadd p a b = fadd p b a ∧
    (isNaN (fmul p a b) = true ↔
      isNaN a = true ∨ isNaN b = true ∨ (isInf a = true ∧ isZero b = true) ∨ (isZero a = true ∧ isInf b = true)) ∧
    (isNaN (fadd p a b) = true ↔
      isNaN a = true ∨ isNaN b = true ∨ (isInf a = true ∧ isInf b = true ∧ signF a ≠ signF b)) ∧
    (isNaN (fsub p a b) = true ↔
      isNaN a = true ∨ isNaN b = true ∨ (isInf a = true ∧ isInf b = true ∧ signF a = signF b)) ∧
    (isNaN (fmul p a b) = true → fmul p a b = p.canonNan) ∧ (isNaN (fadd p a b) = true → fadd p a b = p.canonNan) ∧
    (isNaN (fsub p a b) = true → fsub p a b = p.canonNan)

/-- R108: products of a finite half-precision scale and one or two nonzero integer codes, whose own product is below
`2^13` in magnitude, are exact, in one multiplication or two. -/
def Obligations.HalfScaleProductsAreExact : Prop :=
  ∀ (p : Params) (h : Half) (m n : Int), isFiniteH h = true → 1 ≤ |m * n| → |m * n| < 2 ^ 13 →
    isFinite (fmul p (h2f p h) (i2f m)) = true ∧ val32 (fmul p (h2f p h) (i2f m)) = val16 h * m ∧
    isFinite (fmul p (fmul p (h2f p h) (i2f m)) (i2f n)) = true ∧
    val32 (fmul p (fmul p (h2f p h) (i2f m)) (i2f n)) = val16 h * m * n

/-- R171: what an infinite, NaN or zero half-precision scale makes of a code: `CANON_NAN` for the code 0 with an
infinity and for every code with a NaN; else an infinity or a zero whose sign is that of the scale and the code
together, the code 0 counting as positive. By R190 and R206 the same holds of the chain scale, sub-block scale, code. -/
def Obligations.SpecialScalesPropagate : Prop :=
  (∀ (p : Params) (h : Half) (q : Int), |q| ≤ 128 →
    (let r := fmul p (i2f q) (h2f p h)
     let neg := h.getLsbD 15 ^^ decide (q < 0)
     (isInfH h = true → r = if q = 0 then p.canonNan else if neg then 0xFF800000#32 else 0x7F800000#32) ∧
     (isNaNH h = true → r = p.canonNan) ∧
     (expH h = 0 → fracH h = 0 → r = if neg then 0x80000000#32 else 0x00000000#32))) ∧
  (∀ (p : Params) (h : Half) (m q : Int), p.wf → |m| ≤ 128 → |q| ≤ 128 →
    (let r := scaledCode p h m q
     let neg := (h.getLsbD 15 ^^ decide (m < 0)) ^^ decide (q < 0)
     (isInfH h = true → r = if m = 0 ∨ q = 0 then p.canonNan else if neg then 0xFF800000#32 else 0x7F800000#32) ∧
     (isNaNH h = true → r = p.canonNan) ∧
     (expH h = 0 → fracH h = 0 → r = if neg then 0x80000000#32 else 0x00000000#32)))

/-- R206: the multiplications of a super-block element may be associated otherwise, whatever the scale is: finite, zero,
infinite or NaN. -/
def Obligations.ScaleProductsAssociate : Prop :=
  ∀ (p : Params) (h : Half) (m q : Int), p.wf → |m| ≤ 128 → |q| ≤ 128 → |m * q| < 2 ^ 13 →
    scaledCode p h m q = fmul p (h2f p h) (fmul p (i2f m) (i2f q)) ∧
    scaledCode p h m q = fmul p (fmul p (h2f p h) (i2f q)) (i2f m)

/-- R173, R204: the range of every code, scale and minimum that an element multiplies, and the largest product of two
integer factors. -/
def Obligations.CodesLieInTheirRanges : Prop :=
  ∀ (p : Params) (blk : Nat → Byte) (e : Nat),
    (-8 ≤ codeQ4_0 blk e ∧ codeQ4_0 blk e ≤ 7) ∧ (0 ≤ codeQ4_1 blk e ∧ codeQ4_1 blk e ≤ 15) ∧
    (-16 ≤ codeQ5_0 blk e ∧ codeQ5_0 blk e ≤ 15) ∧ (0 ≤ codeQ5_1 blk e ∧ codeQ5_1 blk e ≤ 31) ∧
    (-128 ≤ codeQ8_0 blk e ∧ codeQ8_0 blk e ≤ 127) ∧
    (0 ≤ scaleQ2_K blk e ∧ scaleQ2_K blk e ≤ 15) ∧ (0 ≤ minQ2_K blk e ∧ minQ2_K blk e ≤ 15) ∧
    (0 ≤ codeQ2_K blk e ∧ codeQ2_K blk e ≤ 3) ∧
    (-32 ≤ scaleQ3_K blk e ∧ scaleQ3_K blk e ≤ 31) ∧ (-4 ≤ codeQ3_K blk e ∧ codeQ3_K blk e ≤ 3) ∧
    (0 ≤ scaleQ45_K blk e ∧ scaleQ45_K blk e ≤ 63) ∧ (0 ≤ minQ45_K blk e ∧ minQ45_K blk e ≤ 63) ∧
    (0 ≤ codeQ4_K blk e ∧ codeQ4_K blk e ≤ 15) ∧ (0 ≤ codeQ5_K blk e ∧ codeQ5_K blk e ≤ 31) ∧
    (-128 ≤ scaleQ6_K blk e ∧ scaleQ6_K blk e ≤ 127) ∧ (-32 ≤ codeQ6_K blk e ∧ codeQ6_K blk e ≤ 31) ∧
    (-128 ≤ codeQ8_K p blk e ∧ codeQ8_K p blk e ≤ 127) ∧
    |scaleQ2_K blk e * codeQ2_K blk e| ≤ 4096 ∧ |scaleQ3_K blk e * codeQ3_K blk e| ≤ 4096 ∧
    |scaleQ45_K blk e * codeQ4_K blk e| ≤ 4096 ∧ |scaleQ45_K blk e * codeQ5_K blk e| ≤ 4096 ∧
    |scaleQ6_K blk e * codeQ6_K blk e| ≤ 4096

/-! ### Block decoders -/

/-- R56, R161, R164: every block decoder whose arguments are in order completes without error, puts element `e` of block
`b` at `OBUF[DST + b*ELEMS + e]`, leaves every other cell as it was, and changes nothing else besides `STATUS` and
the phase. -/
def Obligations.BlockDecoderPlacesEveryElement : Prop :=
  ∀ (i : Instr) (f : BlockFormat) (s : State), classOf i = .block f → decodeFits s f →
    ∃ t, exec i s = .next t ∧ t = { s with obuf := t.obuf, status := 0x00000002#32, phase := .idle } ∧
      (∀ b < s.nb.toNat, ∀ e < f.elems, t.obufWord (s.dst.toNat + b * f.elems + e) =
        elemOf s.params f (fun o => s.ibufByte (s.src.toNat + b * f.blockBytes s.params + o)) e) ∧
      (∀ c, c < s.dst.toNat ∨ s.dst.toNat + s.k.toNat ≤ c → t.obufWord c = s.obufWord c)

/-- R165, R168, R170 with R167, R172, R108: every output of `DQ4_0`, `DQ5_0` and `DQ8_0`, whatever its scale is, is
the product of the code and the converted scale; with a finite scale its value is exactly that, and its sign that of
the two together. -/
def Obligations.LinearDecodersWithoutMinimum : Prop :=
  ∀ (s : State) (b e : Nat), b < s.nb.toNat → e < 32 →
    (decodeFits s .q4_0 → ∃ t, exec .dq4_0 s = .next t ∧
      (let d := blockHalf s .q4_0 b 0
       let q : Int := (blockByte s .q4_0 b (2 + e % 16) / 16 ^ (e / 16) % 16 : Nat) - 8
       let out := t.obufWord (outputCell s .q4_0 b e)
       out = fmul s.params (i2f q) (h2f s.params d) ∧
       (isFiniteH d = true →
         isFinite out = true ∧ val32 out = val16 d * q ∧ signF out = (d.getLsbD 15 ^^ decide (q < 0))))) ∧
    (decodeFits s .q5_0 → ∃ t, exec .dq5_0 s = .next t ∧
      (let d := blockHalf s .q5_0 b 0
       let q : Int := (blockByte s .q5_0 b (6 + e % 16) / 16 ^ (e / 16) % 16 +
         16 * (blockByte s .q5_0 b (2 + e / 8) / 2 ^ (e % 8) % 2) : Nat) - 16
       let out := t.obufWord (outputCell s .q5_0 b e)
       out = fmul s.params (i2f q) (h2f s.params d) ∧
       (isFiniteH d = true →
         isFinite out = true ∧ val32 out = val16 d * q ∧ signF out = (d.getLsbD 15 ^^ decide (q < 0))))) ∧
    (decodeFits s .q8_0 → ∃ t, exec .dq8_0 s = .next t ∧
      (let d := blockHalf s .q8_0 b 0
       let q : Int := (s.ibufByte (s.src.toNat + b * 34 + (2 + e))).toInt
       let out := t.obufWord (outputCell s .q8_0 b e)
       out = fmul s.params (i2f q) (h2f s.params d) ∧
       (isFiniteH d = true →
         isFinite out = true ∧ val32 out = val16 d * q ∧ signF out = (d.getLsbD 15 ^^ decide (q < 0)))))

/-- R166, R169 with R167, R172, R108: every output of `DQ4_1` and `DQ5_1`, whatever its scales are, is the sum `fadd`
of the product of code and converted scale and the converted minimum; with a finite scale that product is exact, with
the sign of the scale. -/
def Obligations.LinearDecodersWithMinimum : Prop :=
  ∀ (s : State) (b e : Nat), b < s.nb.toNat → e < 32 →
    (decodeFits s .q4_1 → ∃ t, exec .dq4_1 s = .next t ∧
      (let d := blockHalf s .q4_1 b 0
       let q := blockByte s .q4_1 b (4 + e % 16) / 16 ^ (e / 16) % 16
       let out := t.obufWord (outputCell s .q4_1 b e)
       let m := h2f s.params (blockHalf s .q4_1 b 2)
       out = fadd s.params (fmul s.params (i2f q) (h2f s.params d)) m ∧
       (isFiniteH d = true → ∃ x, isFinite x = true ∧ val32 x = val16 d * q ∧ signF x = d.getLsbD 15 ∧
         out = fadd s.params x m))) ∧
    (decodeFits s .q5_1 → ∃ t, exec .dq5_1 s = .next t ∧
      (let d := blockHalf s .q5_1 b 0
       let q := blockByte s .q5_1 b (8 + e % 16) / 16 ^ (e / 16) % 16 +
         16 * (blockByte s .q5_1 b (4 + e / 8) / 2 ^ (e % 8) % 2)
       let out := t.obufWord (outputCell s .q5_1 b e)
       let m := h2f s.params (blockHalf s .q5_1 b 2)
       out = fadd s.params (fmul s.params (i2f q) (h2f s.params d)) m ∧
       (isFiniteH d = true → ∃ x, isFinite x = true ∧ val32 x = val16 d * q ∧ signF x = d.getLsbD 15 ∧
         out = fadd s.params x m)))

/-- R191, R192, R193, R196, R197, R198, R199, R205: every output of `DQ2_K`, `DQ4_K` and `DQ5_K`, whatever its
scales are, is the difference `fsub` of scale times sub-block scale times code and minimum scale times sub-block
minimum, multiplied in that order (R206); with finite scales it is the one rounded difference of two exact products. -/
def Obligations.SuperBlockDecodersWithMinimum : Prop :=
  ∀ (s : State) (b e : Nat), b < s.nb.toNat → e < 256 →
    (decodeFits s .q2_K → ∃ t, exec .dq2_K s = .next t ∧
      (let d := blockHalf s .q2_K b 80
       let dmin := blockHalf s .q2_K b 82
       let sc := blockByte s .q2_K b (e / 16) % 16
       let mc := blockByte s .q2_K b (e / 16) / 16
       let q := blockByte s .q2_K b (16 + 32 * (e / 128) + e % 32) / 4 ^ (e % 128 / 32) % 4
       let out := t.obufWord (outputCell s .q2_K b e)
       out = fsub s.params (fmul s.params (fmul s.params (h2f s.params d) (i2f sc)) (i2f q))
         (fmul s.params (h2f s.params dmin) (i2f mc)) ∧
       (isFiniteH d = true → isFiniteH dmin = true → ∃ x y, isFinite x = true ∧ isFinite y = true ∧
         val32 x = val16 d * sc * q ∧ signF x = d.getLsbD 15 ∧ val32 y = val16 dmin * mc ∧ signF y = dmin.getLsbD 15 ∧
         out = fsub s.params x y))) ∧
    (decodeFits s .q4_K → ∃ t, exec .dq4_K s = .next t ∧
      (let d := blockHalf s .q4_K b 0
       let dmin := blockHalf s .q4_K b 2
       let scales : Nat → Byte := fun o => s.ibufByte (s.src.toNat + b * 144 + (4 + o))
       let sc := gsmScale scales (e / 32)
       let mc := gsmMin scales (e / 32)
       let q := blockByte s .q4_K b (16 + 32 * (e / 64) + e % 32) / 16 ^ (e / 32 % 2) % 16
       let out := t.obufWord (outputCell s .q4_K b e)
       out = fsub s.params (fmul s.params (fmul s.params (h2f s.params d) (i2f sc)) (i2f q))
         (fmul s.params (h2f s.params dmin) (i2f mc)) ∧
       (isFiniteH d = true → isFiniteH dmin = true → ∃ x y, isFinite x = true ∧ isFinite y = true ∧
         val32 x = val16 d * sc * q ∧ signF x = d.getLsbD 15 ∧ val32 y = val16 dmin * mc ∧ signF y = dmin.getLsbD 15 ∧
         out = fsub s.params x y))) ∧
    (decodeFits s .q5_K → ∃ t, exec .dq5_K s = .next t ∧
      (let d := blockHalf s .q5_K b 0
       let dmin := blockHalf s .q5_K b 2
       let scales : Nat → Byte := fun o => s.ibufByte (s.src.toNat + b * 176 + (4 + o))
       let sc := gsmScale scales (e / 32)
       let mc := gsmMin scales (e / 32)
       let q := blockByte s .q5_K b (48 + 32 * (e / 64) + e % 32) / 16 ^ (e / 32 % 2) % 16 +
         16 * (blockByte s .q5_K b (16 + e % 32) / 2 ^ (e / 32) % 2)
       let out := t.obufWord (outputCell s .q5_K b e)
       out = fsub s.params (fmul s.params (fmul s.params (h2f s.params d) (i2f sc)) (i2f q))
         (fmul s.params (h2f s.params dmin) (i2f mc)) ∧
       (isFiniteH d = true → isFiniteH dmin = true → ∃ x y, isFinite x = true ∧ isFinite y = true ∧
         val32 x = val16 d * sc * q ∧ signF x = d.getLsbD 15 ∧ val32 y = val16 dmin * mc ∧ signF y = dmin.getLsbD 15 ∧
         out = fsub s.params x y)))

/-- R194, R199, R200, R201: every output of `DQ3_K` and `DQ6_K`, whatever its scale is, is the product of scale,
sub-block scale and code in that order (R206); with a finite scale its value is exactly that product, with the sign of
the three together. -/
def Obligations.SuperBlockDecodersWithoutMinimum : Prop :=
  ∀ (s : State) (b e : Nat), b < s.nb.toNat → e < 256 →
    (decodeFits s .q3_K → ∃ t, exec .dq3_K s = .next t ∧
      (let d := blockHalf s .q3_K b 108
       let sc : Int := sc3 (fun o => s.ibufByte (s.src.toNat + b * 110 + (96 + o))) (e / 16) - 32
       let q : Int := (blockByte s .q3_K b (32 + 32 * (e / 128) + e % 32) / 4 ^ (e % 128 / 32) % 4 +
         4 * (blockByte s .q3_K b (e % 32) / 2 ^ (e / 32) % 2) : Nat) - 4
       let out := t.obufWord (outputCell s .q3_K b e)
       out = fmul s.params (fmul s.params (h2f s.params d) (i2f sc)) (i2f q) ∧
       (isFiniteH d = true → isFinite out = true ∧ val32 out = val16 d * sc * q ∧
         signF out = ((d.getLsbD 15 ^^ decide (sc < 0)) ^^ decide (q < 0))))) ∧
    (decodeFits s .q6_K → ∃ t, exec .dq6_K s = .next t ∧
      (let d := blockHalf s .q6_K b 208
       let sc : Int := (s.ibufByte (s.src.toNat + b * 210 + (192 + e / 16))).toInt
       let q : Int := (blockByte s .q6_K b (64 * (e / 128) + 32 * (e / 32 % 2) + e % 32) / 16 ^ (e / 64 % 2) % 16 +
         16 * (blockByte s .q6_K b (128 + 32 * (e / 128) + e % 32) / 4 ^ (e / 32 % 4) % 4) : Nat) - 32
       let out := t.obufWord (outputCell s .q6_K b e)
       out = fmul s.params (fmul s.params (h2f s.params d) (i2f sc)) (i2f q) ∧
       (isFiniteH d = true → isFinite out = true ∧ val32 out = val16 d * sc * q ∧
         signF out = ((d.getLsbD 15 ^^ decide (sc < 0)) ^^ decide (q < 0)))))

/-- R152, R202: `DQ8_K` in both layouts. With a half-precision scale every output is the product of the converted
scale and the code, and its value is exactly that if the scale is finite; with a binary32 scale it is the rounded
product of that pattern, as it stands, and the code. -/
def Obligations.Dq8KInBothLayouts : Prop :=
  ∀ (s : State) (b e : Nat), b < s.nb.toNat → e < 256 → decodeFits s .q8_K →
    ∃ t, exec .dq8_K s = .next t ∧
      (s.params.q8kDF32 = false →
        (let d := blockHalf s .q8_K b 0
         let q : Int := (s.ibufByte (s.src.toNat + b * 290 + (2 + e))).toInt
         let out := t.obufWord (outputCell s .q8_K b e)
         out = fmul s.params (h2f s.params d) (i2f q) ∧
         (isFiniteH d = true → isFinite out = true ∧ val32 out = val16 d * q ∧
           signF out = (d.getLsbD 15 ^^ decide (q < 0))))) ∧
      (s.params.q8kDF32 = true →
        (let at4 : Nat → Byte := fun o => s.ibufByte (s.src.toNat + b * 292 + o)
         let d : Word := at4 3 ++ at4 2 ++ at4 1 ++ at4 0
         let q : Int := (at4 (4 + e)).toInt
         ∃ x, isFinite x = true ∧ val32 x = q ∧ signF x = decide (q < 0) ∧
           t.obufWord (outputCell s .q8_K b e) = fmul s.params d x))

/-- R175, R261: running a completed command again on the state it left changes nothing. -/
def Obligations.RepeatingACommandChangesNothing : Prop :=
  ∀ (i : Instr) (s t : State), cellsWf s.obuf → exec i s = .next t → exec i t = .next t

/-! ### What a command leaves alone, and what it depends on -/

/-- R22, R23, R27, R28, R55: no command writes `CMD`, an argument register, `IBUF` or the model's own fields; a block
decoder writes neither result register and no `OBUF` cell outside `[DST, DST + K)`; a scalar command writes no `OBUF`
cell; a single-result command leaves `RES1`. -/
def Obligations.CommandWritesItsResultsOnly : Prop :=
  ∀ (i : Instr) (s t : State), exec i s = .next t →
    t = { s with res0 := t.res0, res1 := t.res1, obuf := t.obuf, status := t.status, phase := .idle } ∧
    (∀ a, t.ibufByte a = s.ibufByte a) ∧
    (∀ f, classOf i = .block f → t.res0 = s.res0 ∧ t.res1 = s.res1 ∧
      ∀ c, c < s.dst.toNat ∨ s.dst.toNat + s.k.toNat ≤ c → t.obufWord c = s.obufWord c) ∧
    ((∀ f, classOf i ≠ .block f) → t.obuf = s.obuf) ∧ (classOf i = .conversion → t.res1 = s.res1)

/-- From R31 and R55: what a command word in flight reports and writes depends on its operands alone: two states that agree on the
word, the parameters, the argument registers its rule names and the `IBUF` bytes it reads end with the same `STATUS`,
the same output cells and the same results, whatever else they hold. That the bytes it reads are R55's static range, also when the
command will end in an error and depends on no byte, is the model's reading (log 7), and makes this weaker than R31
there. -/
def Obligations.CommandDependsOnItsOperandsOnly : Prop :=
  ∀ s u : State, SameOperands s u →
    ∃ t v, s.completeCommand = .next t ∧ u.completeCommand = .next v ∧ t.status = v.status ∧ t.phase = v.phase ∧
      (t.status = 0x00000002#32 →
        (∀ c, s.writesObuf c = true → t.obufWord c = v.obufWord c) ∧
        (s.isScalarCommand = true → t.res0 = v.res0) ∧
        (s.commandClass = some .extraction → t.res1 = v.res1))

/-- R260: an access the host may make while a command is in flight (`STATUS` itself apart) commutes with the completion
of the command: both orders end in the same state. That an access neither forbidden nor listed by R260 is allowed is the
model's reading (log 11). -/
def Obligations.PermittedAccessCommutesWithCompletion : Prop :=
  ∀ (s : State) (a : HostAccess), Inv s → s.phase = .busy → s.resetPin = false → hostPermitted s a →
    a ≠ .readReg 4 →
    ∃ s1 s2 t, s.hostAccess a = .next s1 ∧ s1.completeCommand = .next t ∧
      s.completeCommand = .next s2 ∧ s2.hostAccess a = .next t

/-! ### The host's side -/

/-- R257, R258, R259, R260: while a command is in flight an access to something that exists is refused if R257 or R258
forbids it, and has its effect if neither does (log 11 for what R260 does not list). The range an erroneous command is
said to read is R55's all the same (log 7). -/
def Obligations.ForbiddenAccessesAreRefused : Prop :=
  ∀ (s : State) (a : HostAccess) (rest : List Input), s.phase = .busy → s.resetPin = false →
    s.inputs = .host a :: rest → a.fault s.params = none →
    (forbiddenWhileBusy s a → ∃ r, step s = .refused r) ∧
    (¬ forbiddenWhileBusy s a → step s = .next (State.accessEffect { s with inputs := rest } a))

/-- The model's own choice in every clause that faults (log 8): R27, R28, R35 and R57 give the extent of the spaces and
not what an access beyond them does. An access to a cell or an offset that does not exist, or inside a register word,
stops with a fault; every other access, while idle, has its effect. -/
def Obligations.AccessOutsideTheSpacesFaults : Prop :=
  ∀ (s : State) (a : HostAccess) (rest : List Input), s.resetPin = false → s.inputs = .host a :: rest →
    (let outside := match a with
      | .readReg o => 0x100 ≤ o ∨ (o < 0x24 ∧ o % 4 ≠ 0)
      | .writeReg o _ => 0x100 ≤ o ∨ (o < 0x24 ∧ o % 4 ≠ 0)
      | .readIbuf w i => s.params.ibufBytes < i + w.bytes
      | .writeIbuf w i _ => s.params.ibufBytes < i + w.bytes
      | .readObuf i => s.params.obufWords ≤ i
      | .writeObuf i _ => s.params.obufWords ≤ i
     (outside → ∃ f, step s = .fault f) ∧
     (¬ outside → s.phase = .idle → step s = .next (State.accessEffect { s with inputs := rest } a)))

/-- R26, R35: a host write of `STATUS` or of a reserved offset is ignored at any time, and of `RES0` or `RES1` while
idle; a reserved offset reads zero. That offsets which are not multiples of four count as reserved is the model's
reading (log 18). -/
def Obligations.ReadOnlyAndReservedOffsets : Prop :=
  ∀ (s : State) (o : Nat) (v : Word) (rest : List Input),
    (s.inputs = .host (.writeReg o v) :: rest →
      (o = 0x04 ∨ (0x24 ≤ o ∧ o < 0x100) ∨ ((o = 0x1C ∨ o = 0x20) ∧ s.phase = .idle)) →
      step s = .next { s with inputs := rest }) ∧
    (s.inputs = .host (.readReg o) :: rest → s.resetPin = false → 0x24 ≤ o → o < 0x100 →
      step s = .next { s with inputs := rest, replies := 0#32 :: s.replies })

/-- R12, R13, R54: while idle a host read answers the register, the little-endian bytes or the `OBUF` cell, and changes
nothing. That a narrow read answers with zeros above, and that there are two-byte reads, is the model's reading (log 9);
that a read of results answers before the host has read `DONE` is its choice (log 21). -/
def Obligations.HostReadsAnswerAndChangeNothing : Prop :=
  ∀ (s : State) (rest : List Input), s.resetPin = false → s.phase = .idle →
    (∀ r : Reg, s.inputs = .host (.readReg r.offset) :: rest →
      step s = .next { s with inputs := rest, replies := s.readReg r :: s.replies }) ∧
    (∀ a, a + 4 ≤ s.params.ibufBytes → s.inputs = .host (.readIbuf .four a) :: rest →
      step s = .next { s with
        inputs := rest
        replies := (s.ibufByte (a + 3) ++ s.ibufByte (a + 2) ++ s.ibufByte (a + 1) ++ s.ibufByte a) :: s.replies }) ∧
    (∀ a, a + 1 ≤ s.params.ibufBytes → s.inputs = .host (.readIbuf .one a) :: rest →
      step s = .next { s with inputs := rest, replies := (s.ibufByte a).setWidth 32 :: s.replies }) ∧
    (∀ a, a + 2 ≤ s.params.ibufBytes → s.inputs = .host (.readIbuf .two a) :: rest →
      step s = .next { s with
        inputs := rest
        replies := (s.ibufByte (a + 1) ++ s.ibufByte a).setWidth 32 :: s.replies }) ∧
    (∀ i, i < s.params.obufWords → s.inputs = .host (.readObuf i) :: rest →
      step s = .next { s with inputs := rest, replies := s.obufWord i :: s.replies })

/-- R51: a 32-bit host write to `IBUF` while idle stores its bytes little-endian, changes no other byte and nothing else,
and reads back as the same word. -/
def Obligations.WideHostWriteIsLittleEndian : Prop :=
  ∀ (s : State) (a : Nat) (w : Word) (rest : List Input), s.resetPin = false → s.phase = .idle →
    a + 4 ≤ s.params.ibufBytes → s.inputs = .host (.writeIbuf .four a w) :: rest →
    ∃ t, step s = .next t ∧ t = { s with inputs := rest, ibuf := t.ibuf } ∧
      t.ibufByte a = w.extractLsb' 0 8 ∧ t.ibufByte (a + 1) = w.extractLsb' 8 8 ∧
      t.ibufByte (a + 2) = w.extractLsb' 16 8 ∧ t.ibufByte (a + 3) = w.extractLsb' 24 8 ∧
      (∀ c, c < a ∨ a + 4 ≤ c → t.ibufByte c = s.ibufByte c) ∧ memRead t.ibufByte a 4 = w.toNat

/-- R13, R27, R28, R51: what a permitted host write of a narrower width stores in `IBUF`, and one of a cell in `OBUF`,
idle or busy: the low byte, the two low bytes little-endian, the word; no other cell and nothing else changes. That
there are two-byte writes and that a narrow write takes the low bytes is the model's reading (log 9); so is the write of
results before the host has read `DONE` (log 21). -/
def Obligations.NarrowAndOutputHostWritesStore : Prop :=
  ∀ (s : State) (a : Nat) (v : Word) (rest : List Input), s.resetPin = false →
    (hostPermitted s (.writeIbuf .one a v) → s.inputs = .host (.writeIbuf .one a v) :: rest →
      ∃ t, step s = .next t ∧ t = { s with inputs := rest, ibuf := t.ibuf } ∧
        t.ibufByte a = v.extractLsb' 0 8 ∧ ∀ c, c ≠ a → t.ibufByte c = s.ibufByte c) ∧
    (hostPermitted s (.writeIbuf .two a v) → s.inputs = .host (.writeIbuf .two a v) :: rest →
      ∃ t, step s = .next t ∧ t = { s with inputs := rest, ibuf := t.ibuf } ∧
        t.ibufByte a = v.extractLsb' 0 8 ∧ t.ibufByte (a + 1) = v.extractLsb' 8 8 ∧
        ∀ c, c < a ∨ a + 2 ≤ c → t.ibufByte c = s.ibufByte c) ∧
    (hostPermitted s (.writeObuf a v) → s.inputs = .host (.writeObuf a v) :: rest →
      ∃ t, step s = .next t ∧ t = { s with inputs := rest, obuf := t.obuf } ∧
        t.obufWord a = v ∧ ∀ c, c ≠ a → t.obufWord c = s.obufWord c)

/-- R22, R35: a host write of an argument register while idle stores the value and changes nothing else. -/
def Obligations.ArgumentRegistersHoldWhatIsWritten : Prop :=
  ∀ (s : State) (v : Word) (rest : List Input), s.resetPin = false → s.phase = .idle →
    (s.inputs = .host (.writeReg 0x08 v) :: rest → step s = .next { s with inputs := rest, src := v }) ∧
    (s.inputs = .host (.writeReg 0x0C v) :: rest → step s = .next { s with inputs := rest, dst := v }) ∧
    (s.inputs = .host (.writeReg 0x10 v) :: rest → step s = .next { s with inputs := rest, k := v }) ∧
    (s.inputs = .host (.writeReg 0x14 v) :: rest → step s = .next { s with inputs := rest, nb := v }) ∧
    (s.inputs = .host (.writeReg 0x18 v) :: rest → step s = .next { s with inputs := rest, opa := v })

/-- R22, R27, R28, R250: a buffer cell keeps its value through every step but a host write that covers it, a release of
reset, and, for an `OBUF` cell, the DQU's turn; a cell not written since reset among them, whatever it holds (log 3). -/
def Obligations.CellsKeepTheirValueUntilWritten : Prop :=
  ∀ (s t : State) (c : Nat), step s = .next t → (∀ rest, s.inputs ≠ .releaseReset :: rest) →
    ((∀ w a v rest, s.inputs = .host (.writeIbuf w a v) :: rest → c < a ∨ a + w.bytes ≤ c) →
      t.ibufByte c = s.ibufByte c) ∧
    (s.inputs ≠ [] → (∀ rest, s.inputs ≠ .dquTurn :: rest) →
      (∀ v rest, s.inputs ≠ .host (.writeObuf c v) :: rest) → t.obufWord c = s.obufWord c)

/-! ### Reset and the invariant -/

/-- R36, R250, R251, R252: whatever was in flight, after the release of reset all nine registers are zero and the unit
is idle; the parameters stay. That the registers take these values at the release is the model's reading (log 6). -/
def Obligations.ReleaseOfResetGivesTheResetState : Prop :=
  ∀ (s : State) (rest : List Input), s.resetPin = true → s.inputs = .releaseReset :: rest →
    ∃ t, step s = .next t ∧ (∀ r : Reg, t.readReg r = 0#32) ∧ t.phase = .idle ∧ t.busyFlag = 0#1 ∧
      t.doneFlag = 0#1 ∧ t.errFlag = 0#1 ∧ t.ecodeField = 0#4 ∧ t.params = s.params ∧ t.resetPin = false ∧
      t.inputs = rest ∧ t.replies = s.replies

/-- R250: while reset is asserted the DQU does nothing and host accesses are ignored, a hazard or an access to nothing
among them; that a read then gets no answer is the model's reading (log 6). -/
def Obligations.AssertedResetIgnoresHostAndCommand : Prop :=
  ∀ (s : State) (rest : List Input), s.resetPin = true →
    (∀ a, s.inputs = .host a :: rest → step s = .next { s with inputs := rest }) ∧
    (s.inputs = .dquTurn :: rest → step s = .next { s with inputs := rest }) ∧ (s.inputs = [] → step s = .next s)

/-- R250: the step that asserts reset raises the reset input and changes nothing else, whatever was in flight; a release
of an input that is not asserted changes nothing. The two inputs, and what such a release does, are the model's reading
(log 6). -/
def Obligations.AssertingResetChangesThePinAlone : Prop :=
  ∀ (s : State) (rest : List Input),
    (s.inputs = .assertReset :: rest → step s = .next { s with inputs := rest, resetPin := true }) ∧
    (s.inputs = .releaseReset :: rest → s.resetPin = false → step s = .next { s with inputs := rest })

/-- R8, R26, R36: the machine after reset, with the default parameters (the model's choice, log 1), satisfies the
invariant. -/
def Obligations.InvariantHoldsAfterReset : Prop := Inv State.reset

/-- R20, R26, R27, R28: every step keeps the invariant: legal `STATUS` values, `BUSY` equal to the phase, both buffers in
canonical form inside their arrays (the model's form, log 3), the parameters in their bounds. That `BUSY` is stored
beside the phase is the model's choice (log 15). -/
def Obligations.EveryStepKeepsTheInvariant : Prop :=
  ∀ s t : State, Inv s → step s = .next t → Inv t

/-- R26, R220: what the fields of `STATUS` say wherever the invariant holds. -/
def Obligations.StatusFieldsAreConsistent : Prop :=
  ∀ s : State, Inv s →
    ¬ (s.busyFlag = 1#1 ∧ s.doneFlag = 1#1) ∧ (s.errFlag = 1#1 → s.doneFlag = 1#1 ∧ s.ecodeField ≠ 0#4) ∧
    (s.errFlag = 0#1 → s.ecodeField = 0#4) ∧ s.status.getLsbD 3 = false ∧ s.status.extractLsb' 8 24 = 0#24 ∧
    s.ecodeField.toNat ≤ 3 ∧ (s.busyFlag = 1#1 ↔ s.phase = .busy)

/-! ### Host programs -/

/-- R89, R254: the conversion scripts, from any idle state and with any latency, end idle with the result in `RES0` and
as the last reply. A fixed number of early polls stands for the latency (log 17). -/
def Obligations.ConversionScriptsAnswer : Prop :=
  ∀ (s : State) (n : Nat) (v : Word), s.phase = .idle → s.resetPin = false →
    (runMachine (n + 5) { s with inputs := scriptInputs n (scriptCvtH2f v) } =
      .next { s with
        inputs := [], opa := v, cmd := 1#32, status := 2#32, res0 := h2f s.params (v.extractLsb' 0 16)
        replies := h2f s.params (v.extractLsb' 0 16) :: 2#32 :: (List.replicate n 1#32 ++ s.replies) }) ∧
    (runMachine (n + 5) { s with inputs := scriptInputs n (scriptCvtF2h v) } =
      .next { s with
        inputs := [], opa := v, cmd := 2#32, status := 2#32, res0 := (f2h s.params v).setWidth 32
        replies := (f2h s.params v).setWidth 32 :: 2#32 :: (List.replicate n 1#32 ++ s.replies) }) ∧
    (runMachine (n + 5) { s with inputs := scriptInputs n (scriptCvtE8m0h v) } =
      .next { s with
        inputs := [], opa := v, cmd := 3#32, status := 2#32, res0 := e8m0h (v.extractLsb' 0 8)
        replies := e8m0h (v.extractLsb' 0 8) :: 2#32 :: (List.replicate n 1#32 ++ s.replies) })

/-- R33, R89: the extraction scripts `XSM` and `XS3`, from any idle state and with any latency, end where the command's
meaning on the launched state ends, the last replies being its `STATUS`, `RES0` and `RES1`. A fixed number of early
polls stands for the latency (log 17). -/
def Obligations.ExtractionScriptsAnswer : Prop :=
  ∀ (s : State) (n : Nat) (j : BitVec 4) (src : Word), s.phase = .idle → s.resetPin = false →
    (let launched (i : Instr) : State := { s with
       src := src, cmd := encode i, status := 1#32, phase := .busy, inputs := []
       replies := List.replicate n 1#32 ++ s.replies }
     (Instr.wellFormed (.gsm6 j) = true → ∃ u, exec (.gsm6 j) (launched (.gsm6 j)) = .next u ∧
       runMachine (n + 6) { s with inputs := scriptInputs n (scriptXsm j src) } =
         .next { u with replies := u.res1 :: u.res0 :: u.status :: u.replies }) ∧
     (∃ u, exec (.sc3k j) (launched (.sc3k j)) = .next u ∧
       runMachine (n + 6) { s with inputs := scriptInputs n (scriptXs3 j src) } =
         .next { u with replies := u.res1 :: u.res0 :: u.status :: u.replies }))

/-- R33, R89, R254: the decode script `DEQ`, from any idle state and with any latency, ends where the command's meaning
on the launched state ends, its `STATUS` being the last reply. A fixed number of early polls stands for the latency
(log 17). -/
def Obligations.DecodeScriptRunsTheCommand : Prop :=
  ∀ (s : State) (n : Nat) (i : Instr) (f : BlockFormat) (src dst k nb : Word), s.phase = .idle → s.resetPin = false →
    classOf i = .block f →
    ∃ u, exec i { s with
        src := src, dst := dst, k := k, nb := nb, cmd := encode i, status := 1#32, phase := .busy, inputs := []
        replies := List.replicate n 1#32 ++ s.replies } = .next u ∧
      runMachine (n + 7) { s with inputs := scriptInputs n (scriptDeq i src dst k nb) } =
        .next { u with replies := u.status :: u.replies }
end

