-- ==== Sys2Proof/Laws/State.lean ====
section
/-! SUPPORT. One lemma per field of State per named update, true by rfl, so that no later proof unfolds an update. -/

namespace Sys2Proof.Machine

variable (s : State)

/-! ### launch -/

@[simp] theorem launch_cmd (w : Word) : (s.launch w).cmd = w := rfl
@[simp] theorem launch_status (w : Word) : (s.launch w).status = statusLaunched := rfl
@[simp] theorem launch_src (w : Word) : (s.launch w).src = s.src := rfl
@[simp] theorem launch_dst (w : Word) : (s.launch w).dst = s.dst := rfl
@[simp] theorem launch_k (w : Word) : (s.launch w).k = s.k := rfl
@[simp] theorem launch_nb (w : Word) : (s.launch w).nb = s.nb := rfl
@[simp] theorem launch_opa (w : Word) : (s.launch w).opa = s.opa := rfl
@[simp] theorem launch_res0 (w : Word) : (s.launch w).res0 = s.res0 := rfl
@[simp] theorem launch_res1 (w : Word) : (s.launch w).res1 = s.res1 := rfl
@[simp] theorem launch_phase (w : Word) : (s.launch w).phase = .busy := rfl
@[simp] theorem launch_ibuf (w : Word) : (s.launch w).ibuf = s.ibuf := rfl
@[simp] theorem launch_obuf (w : Word) : (s.launch w).obuf = s.obuf := rfl
@[simp] theorem launch_params (w : Word) : (s.launch w).params = s.params := rfl
@[simp] theorem launch_epoch (w : Word) : (s.launch w).epoch = s.epoch := rfl
@[simp] theorem launch_resetPin (w : Word) : (s.launch w).resetPin = s.resetPin := rfl
@[simp] theorem launch_inputs (w : Word) : (s.launch w).inputs = s.inputs := rfl
@[simp] theorem launch_replies (w : Word) : (s.launch w).replies = s.replies := rfl

/-! ### complete -/

@[simp] theorem complete_cmd : (s.complete).cmd = s.cmd := rfl
@[simp] theorem complete_status : (s.complete).status = statusSuccess := rfl
@[simp] theorem complete_src : (s.complete).src = s.src := rfl
@[simp] theorem complete_dst : (s.complete).dst = s.dst := rfl
@[simp] theorem complete_k : (s.complete).k = s.k := rfl
@[simp] theorem complete_nb : (s.complete).nb = s.nb := rfl
@[simp] theorem complete_opa : (s.complete).opa = s.opa := rfl
@[simp] theorem complete_res0 : (s.complete).res0 = s.res0 := rfl
@[simp] theorem complete_res1 : (s.complete).res1 = s.res1 := rfl
@[simp] theorem complete_phase : (s.complete).phase = .idle := rfl
@[simp] theorem complete_ibuf : (s.complete).ibuf = s.ibuf := rfl
@[simp] theorem complete_obuf : (s.complete).obuf = s.obuf := rfl
@[simp] theorem complete_params : (s.complete).params = s.params := rfl
@[simp] theorem complete_epoch : (s.complete).epoch = s.epoch := rfl
@[simp] theorem complete_resetPin : (s.complete).resetPin = s.resetPin := rfl
@[simp] theorem complete_inputs : (s.complete).inputs = s.inputs := rfl
@[simp] theorem complete_replies : (s.complete).replies = s.replies := rfl

/-! ### raiseError -/

@[simp] theorem raiseError_cmd (e : CmdError) : (s.raiseError e).cmd = s.cmd := rfl
@[simp] theorem raiseError_status (e : CmdError) : (s.raiseError e).status = statusError e := rfl
@[simp] theorem raiseError_src (e : CmdError) : (s.raiseError e).src = s.src := rfl
@[simp] theorem raiseError_dst (e : CmdError) : (s.raiseError e).dst = s.dst := rfl
@[simp] theorem raiseError_k (e : CmdError) : (s.raiseError e).k = s.k := rfl
@[simp] theorem raiseError_nb (e : CmdError) : (s.raiseError e).nb = s.nb := rfl
@[simp] theorem raiseError_opa (e : CmdError) : (s.raiseError e).opa = s.opa := rfl
@[simp] theorem raiseError_res0 (e : CmdError) : (s.raiseError e).res0 = s.res0 := rfl
@[simp] theorem raiseError_res1 (e : CmdError) : (s.raiseError e).res1 = s.res1 := rfl
@[simp] theorem raiseError_phase (e : CmdError) : (s.raiseError e).phase = .idle := rfl
@[simp] theorem raiseError_ibuf (e : CmdError) : (s.raiseError e).ibuf = s.ibuf := rfl
@[simp] theorem raiseError_obuf (e : CmdError) : (s.raiseError e).obuf = s.obuf := rfl
@[simp] theorem raiseError_params (e : CmdError) : (s.raiseError e).params = s.params := rfl
@[simp] theorem raiseError_epoch (e : CmdError) : (s.raiseError e).epoch = s.epoch := rfl
@[simp] theorem raiseError_resetPin (e : CmdError) : (s.raiseError e).resetPin = s.resetPin := rfl
@[simp] theorem raiseError_inputs (e : CmdError) : (s.raiseError e).inputs = s.inputs := rfl
@[simp] theorem raiseError_replies (e : CmdError) : (s.raiseError e).replies = s.replies := rfl

/-! ### completeScalar -/

@[simp] theorem completeScalar_cmd (v : Word) : (s.completeScalar v).cmd = s.cmd := rfl
@[simp] theorem completeScalar_status (v : Word) : (s.completeScalar v).status = statusSuccess := rfl
@[simp] theorem completeScalar_src (v : Word) : (s.completeScalar v).src = s.src := rfl
@[simp] theorem completeScalar_dst (v : Word) : (s.completeScalar v).dst = s.dst := rfl
@[simp] theorem completeScalar_k (v : Word) : (s.completeScalar v).k = s.k := rfl
@[simp] theorem completeScalar_nb (v : Word) : (s.completeScalar v).nb = s.nb := rfl
@[simp] theorem completeScalar_opa (v : Word) : (s.completeScalar v).opa = s.opa := rfl
@[simp] theorem completeScalar_res0 (v : Word) : (s.completeScalar v).res0 = v := rfl
@[simp] theorem completeScalar_res1 (v : Word) : (s.completeScalar v).res1 = s.res1 := rfl
@[simp] theorem completeScalar_phase (v : Word) : (s.completeScalar v).phase = .idle := rfl
@[simp] theorem completeScalar_ibuf (v : Word) : (s.completeScalar v).ibuf = s.ibuf := rfl
@[simp] theorem completeScalar_obuf (v : Word) : (s.completeScalar v).obuf = s.obuf := rfl
@[simp] theorem completeScalar_params (v : Word) : (s.completeScalar v).params = s.params := rfl
@[simp] theorem completeScalar_epoch (v : Word) : (s.completeScalar v).epoch = s.epoch := rfl
@[simp] theorem completeScalar_resetPin (v : Word) : (s.completeScalar v).resetPin = s.resetPin := rfl
@[simp] theorem completeScalar_inputs (v : Word) : (s.completeScalar v).inputs = s.inputs := rfl
@[simp] theorem completeScalar_replies (v : Word) : (s.completeScalar v).replies = s.replies := rfl

/-! ### completeScalar2 -/

@[simp] theorem completeScalar2_cmd (v0 v1 : Word) : (s.completeScalar2 v0 v1).cmd = s.cmd := rfl
@[simp] theorem completeScalar2_status (v0 v1 : Word) : (s.completeScalar2 v0 v1).status = statusSuccess := rfl
@[simp] theorem completeScalar2_src (v0 v1 : Word) : (s.completeScalar2 v0 v1).src = s.src := rfl
@[simp] theorem completeScalar2_dst (v0 v1 : Word) : (s.completeScalar2 v0 v1).dst = s.dst := rfl
@[simp] theorem completeScalar2_k (v0 v1 : Word) : (s.completeScalar2 v0 v1).k = s.k := rfl
@[simp] theorem completeScalar2_nb (v0 v1 : Word) : (s.completeScalar2 v0 v1).nb = s.nb := rfl
@[simp] theorem completeScalar2_opa (v0 v1 : Word) : (s.completeScalar2 v0 v1).opa = s.opa := rfl
@[simp] theorem completeScalar2_res0 (v0 v1 : Word) : (s.completeScalar2 v0 v1).res0 = v0 := rfl
@[simp] theorem completeScalar2_res1 (v0 v1 : Word) : (s.completeScalar2 v0 v1).res1 = v1 := rfl
@[simp] theorem completeScalar2_phase (v0 v1 : Word) : (s.completeScalar2 v0 v1).phase = .idle := rfl
@[simp] theorem completeScalar2_ibuf (v0 v1 : Word) : (s.completeScalar2 v0 v1).ibuf = s.ibuf := rfl
@[simp] theorem completeScalar2_obuf (v0 v1 : Word) : (s.completeScalar2 v0 v1).obuf = s.obuf := rfl
@[simp] theorem completeScalar2_params (v0 v1 : Word) : (s.completeScalar2 v0 v1).params = s.params := rfl
@[simp] theorem completeScalar2_epoch (v0 v1 : Word) : (s.completeScalar2 v0 v1).epoch = s.epoch := rfl
@[simp] theorem completeScalar2_resetPin (v0 v1 : Word) : (s.completeScalar2 v0 v1).resetPin = s.resetPin := rfl
@[simp] theorem completeScalar2_inputs (v0 v1 : Word) : (s.completeScalar2 v0 v1).inputs = s.inputs := rfl
@[simp] theorem completeScalar2_replies (v0 v1 : Word) : (s.completeScalar2 v0 v1).replies = s.replies := rfl

/-! ### setIbufByte -/

@[simp] theorem setIbufByte_cmd (a : Nat) (b : Byte) : (s.setIbufByte a b).cmd = s.cmd := rfl
@[simp] theorem setIbufByte_status (a : Nat) (b : Byte) : (s.setIbufByte a b).status = s.status := rfl
@[simp] theorem setIbufByte_src (a : Nat) (b : Byte) : (s.setIbufByte a b).src = s.src := rfl
@[simp] theorem setIbufByte_dst (a : Nat) (b : Byte) : (s.setIbufByte a b).dst = s.dst := rfl
@[simp] theorem setIbufByte_k (a : Nat) (b : Byte) : (s.setIbufByte a b).k = s.k := rfl
@[simp] theorem setIbufByte_nb (a : Nat) (b : Byte) : (s.setIbufByte a b).nb = s.nb := rfl
@[simp] theorem setIbufByte_opa (a : Nat) (b : Byte) : (s.setIbufByte a b).opa = s.opa := rfl
@[simp] theorem setIbufByte_res0 (a : Nat) (b : Byte) : (s.setIbufByte a b).res0 = s.res0 := rfl
@[simp] theorem setIbufByte_res1 (a : Nat) (b : Byte) : (s.setIbufByte a b).res1 = s.res1 := rfl
@[simp] theorem setIbufByte_phase (a : Nat) (b : Byte) : (s.setIbufByte a b).phase = s.phase := rfl
@[simp] theorem setIbufByte_ibuf (a : Nat) (b : Byte) : (s.setIbufByte a b).ibuf = putCell s.ibuf a b := rfl
@[simp] theorem setIbufByte_obuf (a : Nat) (b : Byte) : (s.setIbufByte a b).obuf = s.obuf := rfl
@[simp] theorem setIbufByte_params (a : Nat) (b : Byte) : (s.setIbufByte a b).params = s.params := rfl
@[simp] theorem setIbufByte_epoch (a : Nat) (b : Byte) : (s.setIbufByte a b).epoch = s.epoch := rfl
@[simp] theorem setIbufByte_resetPin (a : Nat) (b : Byte) : (s.setIbufByte a b).resetPin = s.resetPin := rfl
@[simp] theorem setIbufByte_inputs (a : Nat) (b : Byte) : (s.setIbufByte a b).inputs = s.inputs := rfl
@[simp] theorem setIbufByte_replies (a : Nat) (b : Byte) : (s.setIbufByte a b).replies = s.replies := rfl

/-! ### setObufWord -/

@[simp] theorem setObufWord_cmd (i : Nat) (w : Word) : (s.setObufWord i w).cmd = s.cmd := rfl
@[simp] theorem setObufWord_status (i : Nat) (w : Word) : (s.setObufWord i w).status = s.status := rfl
@[simp] theorem setObufWord_src (i : Nat) (w : Word) : (s.setObufWord i w).src = s.src := rfl
@[simp] theorem setObufWord_dst (i : Nat) (w : Word) : (s.setObufWord i w).dst = s.dst := rfl
@[simp] theorem setObufWord_k (i : Nat) (w : Word) : (s.setObufWord i w).k = s.k := rfl
@[simp] theorem setObufWord_nb (i : Nat) (w : Word) : (s.setObufWord i w).nb = s.nb := rfl
@[simp] theorem setObufWord_opa (i : Nat) (w : Word) : (s.setObufWord i w).opa = s.opa := rfl
@[simp] theorem setObufWord_res0 (i : Nat) (w : Word) : (s.setObufWord i w).res0 = s.res0 := rfl
@[simp] theorem setObufWord_res1 (i : Nat) (w : Word) : (s.setObufWord i w).res1 = s.res1 := rfl
@[simp] theorem setObufWord_phase (i : Nat) (w : Word) : (s.setObufWord i w).phase = s.phase := rfl
@[simp] theorem setObufWord_ibuf (i : Nat) (w : Word) : (s.setObufWord i w).ibuf = s.ibuf := rfl
@[simp] theorem setObufWord_obuf (i : Nat) (w : Word) : (s.setObufWord i w).obuf = putCell s.obuf i w := rfl
@[simp] theorem setObufWord_params (i : Nat) (w : Word) : (s.setObufWord i w).params = s.params := rfl
@[simp] theorem setObufWord_epoch (i : Nat) (w : Word) : (s.setObufWord i w).epoch = s.epoch := rfl
@[simp] theorem setObufWord_resetPin (i : Nat) (w : Word) : (s.setObufWord i w).resetPin = s.resetPin := rfl
@[simp] theorem setObufWord_inputs (i : Nat) (w : Word) : (s.setObufWord i w).inputs = s.inputs := rfl
@[simp] theorem setObufWord_replies (i : Nat) (w : Word) : (s.setObufWord i w).replies = s.replies := rfl

/-! ### setObufRange -/

@[simp] theorem setObufRange_cmd (base n : Nat) (v : Nat → Word) : (s.setObufRange base n v).cmd = s.cmd := rfl
@[simp] theorem setObufRange_status (base n : Nat) (v : Nat → Word) : (s.setObufRange base n v).status = s.status := rfl
@[simp] theorem setObufRange_src (base n : Nat) (v : Nat → Word) : (s.setObufRange base n v).src = s.src := rfl
@[simp] theorem setObufRange_dst (base n : Nat) (v : Nat → Word) : (s.setObufRange base n v).dst = s.dst := rfl
@[simp] theorem setObufRange_k (base n : Nat) (v : Nat → Word) : (s.setObufRange base n v).k = s.k := rfl
@[simp] theorem setObufRange_nb (base n : Nat) (v : Nat → Word) : (s.setObufRange base n v).nb = s.nb := rfl
@[simp] theorem setObufRange_opa (base n : Nat) (v : Nat → Word) : (s.setObufRange base n v).opa = s.opa := rfl
@[simp] theorem setObufRange_res0 (base n : Nat) (v : Nat → Word) : (s.setObufRange base n v).res0 = s.res0 := rfl
@[simp] theorem setObufRange_res1 (base n : Nat) (v : Nat → Word) : (s.setObufRange base n v).res1 = s.res1 := rfl
@[simp] theorem setObufRange_phase (base n : Nat) (v : Nat → Word) : (s.setObufRange base n v).phase = s.phase := rfl
@[simp] theorem setObufRange_ibuf (base n : Nat) (v : Nat → Word) : (s.setObufRange base n v).ibuf = s.ibuf := rfl
@[simp] theorem setObufRange_obuf (base n : Nat) (v : Nat → Word) : (s.setObufRange base n v).obuf = putCells s.obuf base n v := rfl
@[simp] theorem setObufRange_params (base n : Nat) (v : Nat → Word) : (s.setObufRange base n v).params = s.params := rfl
@[simp] theorem setObufRange_epoch (base n : Nat) (v : Nat → Word) : (s.setObufRange base n v).epoch = s.epoch := rfl
@[simp] theorem setObufRange_resetPin (base n : Nat) (v : Nat → Word) : (s.setObufRange base n v).resetPin = s.resetPin := rfl
@[simp] theorem setObufRange_inputs (base n : Nat) (v : Nat → Word) : (s.setObufRange base n v).inputs = s.inputs := rfl
@[simp] theorem setObufRange_replies (base n : Nat) (v : Nat → Word) : (s.setObufRange base n v).replies = s.replies := rfl

/-! ### answer -/

@[simp] theorem answer_cmd (v : Word) : (s.answer v).cmd = s.cmd := rfl
@[simp] theorem answer_status (v : Word) : (s.answer v).status = s.status := rfl
@[simp] theorem answer_src (v : Word) : (s.answer v).src = s.src := rfl
@[simp] theorem answer_dst (v : Word) : (s.answer v).dst = s.dst := rfl
@[simp] theorem answer_k (v : Word) : (s.answer v).k = s.k := rfl
@[simp] theorem answer_nb (v : Word) : (s.answer v).nb = s.nb := rfl
@[simp] theorem answer_opa (v : Word) : (s.answer v).opa = s.opa := rfl
@[simp] theorem answer_res0 (v : Word) : (s.answer v).res0 = s.res0 := rfl
@[simp] theorem answer_res1 (v : Word) : (s.answer v).res1 = s.res1 := rfl
@[simp] theorem answer_phase (v : Word) : (s.answer v).phase = s.phase := rfl
@[simp] theorem answer_ibuf (v : Word) : (s.answer v).ibuf = s.ibuf := rfl
@[simp] theorem answer_obuf (v : Word) : (s.answer v).obuf = s.obuf := rfl
@[simp] theorem answer_params (v : Word) : (s.answer v).params = s.params := rfl
@[simp] theorem answer_epoch (v : Word) : (s.answer v).epoch = s.epoch := rfl
@[simp] theorem answer_resetPin (v : Word) : (s.answer v).resetPin = s.resetPin := rfl
@[simp] theorem answer_inputs (v : Word) : (s.answer v).inputs = s.inputs := rfl
@[simp] theorem answer_replies (v : Word) : (s.answer v).replies = v :: s.replies := rfl

/-! ### releaseReset -/

@[simp] theorem releaseReset_cmd : (s.releaseReset).cmd = 0#32 := rfl
@[simp] theorem releaseReset_status : (s.releaseReset).status = 0#32 := rfl
@[simp] theorem releaseReset_src : (s.releaseReset).src = 0#32 := rfl
@[simp] theorem releaseReset_dst : (s.releaseReset).dst = 0#32 := rfl
@[simp] theorem releaseReset_k : (s.releaseReset).k = 0#32 := rfl
@[simp] theorem releaseReset_nb : (s.releaseReset).nb = 0#32 := rfl
@[simp] theorem releaseReset_opa : (s.releaseReset).opa = 0#32 := rfl
@[simp] theorem releaseReset_res0 : (s.releaseReset).res0 = 0#32 := rfl
@[simp] theorem releaseReset_res1 : (s.releaseReset).res1 = 0#32 := rfl
@[simp] theorem releaseReset_phase : (s.releaseReset).phase = .idle := rfl
@[simp] theorem releaseReset_ibuf : (s.releaseReset).ibuf = [] := rfl
@[simp] theorem releaseReset_obuf : (s.releaseReset).obuf = [] := rfl
@[simp] theorem releaseReset_params : (s.releaseReset).params = s.params := rfl
@[simp] theorem releaseReset_epoch : (s.releaseReset).epoch = s.epoch + 1 := rfl
@[simp] theorem releaseReset_resetPin : (s.releaseReset).resetPin = false := rfl
@[simp] theorem releaseReset_inputs : (s.releaseReset).inputs = s.inputs := rfl
@[simp] theorem releaseReset_replies : (s.releaseReset).replies = s.replies := rfl

end Sys2Proof.Machine
end

