-- ==== Sys2Proof/Laws/Cells.lean ====
section
/-! SUPPORT. What reading and writing the cells of a buffer do, and that every write keeps the canonical form. -/

namespace Sys2Proof.Machine

variable {α : Type}

@[simp] theorem cellAt_nil (a : Nat) : cellAt ([] : List (Nat × α)) a = none := rfl

/-- Reading after one write: the written value at that cell, the old value at every other. -/
theorem cellAt_putCell (m : List (Nat × α)) (a b : Nat) (v : α) :
    cellAt (putCell m a v) b = if b = a then some v else cellAt m b := by
  induction m with
  | nil => simp [putCell, cellAt]
  | cons c m ih =>
    obtain ⟨d, u⟩ := c
    simp only [putCell]
    split
    · simp [cellAt]
    · split
      · subst a; simp only [cellAt]; split <;> simp_all
      · simp only [cellAt, ih]; split <;> split <;> simp_all

@[simp] theorem cellAt_putCell_same (m : List (Nat × α)) (a : Nat) (v : α) : cellAt (putCell m a v) a = some v := by
  simp [cellAt_putCell]

theorem cellAt_putCell_other (m : List (Nat × α)) {a b : Nat} (v : α) (h : b ≠ a) :
    cellAt (putCell m a v) b = cellAt m b := by
  simp [cellAt_putCell, h]

/-- The indices a write leaves in the list are the old ones and the written one. -/
theorem mem_putCell {m : List (Nat × α)} {a : Nat} {v : α} {c : Nat × α} (h : c ∈ putCell m a v) :
    c = (a, v) ∨ c ∈ m := by
  induction m with
  | nil => simpa [putCell] using h
  | cons d m ih =>
    obtain ⟨b, u⟩ := d
    simp only [putCell] at h
    split at h
    · simpa using h
    · split at h
      · rcases List.mem_cons.1 h with h | h
        · exact .inl h
        · exact .inr (List.mem_cons_of_mem _ h)
      · rcases List.mem_cons.1 h with h | h
        · exact .inr (h ▸ List.mem_cons_self)
        · exact (ih h).imp_right (List.mem_cons_of_mem _)

/-- One write keeps the canonical form. -/
theorem cellsWf_putCell {m : List (Nat × α)} (a : Nat) (v : α) (h : cellsWf m) : cellsWf (putCell m a v) := by
  induction m with
  | nil => simp [putCell]
  | cons d m ih =>
    obtain ⟨b, u⟩ := d
    obtain ⟨hb, hm⟩ := List.pairwise_cons.1 h
    simp only [putCell]
    split
    · rename_i hab
      refine List.pairwise_cons.2 ⟨fun c hc => ?_, h⟩
      rcases List.mem_cons.1 hc with rfl | hc
      · exact hab
      · exact Nat.lt_trans hab (hb c hc)
    · split
      · subst a; exact List.pairwise_cons.2 ⟨hb, hm⟩
      · refine List.pairwise_cons.2 ⟨fun c hc => ?_, ih hm⟩
        rcases mem_putCell hc with rfl | hc
        · simp only; omega
        · exact hb c hc

/-- One write inside a buffer keeps every listed cell inside it. -/
theorem cellsWithin_putCell {m : List (Nat × α)} {size a : Nat} (v : α) (h : cellsWithin m size) (ha : a < size) :
    cellsWithin (putCell m a v) size := by
  intro c hc
  rcases mem_putCell hc with rfl | hc
  · exact ha
  · exact h c hc

/-! ### Many cells -/

@[simp] theorem putCells_zero (m : List (Nat × α)) (base : Nat) (v : Nat → α) : putCells m base 0 v = m := rfl

theorem putCells_succ (m : List (Nat × α)) (base n : Nat) (v : Nat → α) :
    putCells m base (n + 1) v = putCells (putCell m (base + n) (v n)) base n v := by
  simp [putCells, List.range_succ]

/-- Reading after the writes of a range: `v` inside it, the old value outside. -/
theorem cellAt_putCells (m : List (Nat × α)) (base n : Nat) (v : Nat → α) (b : Nat) :
    cellAt (putCells m base n v) b = if base ≤ b ∧ b < base + n then some (v (b - base)) else cellAt m b := by
  induction n generalizing m with
  | zero => simp only [putCells_zero]; rw [if_neg (by omega)]
  | succ n ih =>
    rw [putCells_succ, ih, cellAt_putCell]
    by_cases h1 : base ≤ b ∧ b < base + n
    · rw [if_pos h1, if_pos (by omega)]
    · rw [if_neg h1]
      by_cases h2 : b = base + n
      · subst h2; simp
      · rw [if_neg h2, if_neg (by omega)]

theorem cellsWf_putCells {m : List (Nat × α)} (base n : Nat) (v : Nat → α) (h : cellsWf m) :
    cellsWf (putCells m base n v) := by
  induction n generalizing m with
  | zero => exact h
  | succ n ih => rw [putCells_succ]; exact ih (cellsWf_putCell _ _ h)

theorem cellsWithin_putCells {m : List (Nat × α)} {size : Nat} (base n : Nat) (v : Nat → α)
    (h : cellsWithin m size) (hn : base + n ≤ size) : cellsWithin (putCells m base n v) size := by
  induction n generalizing m with
  | zero => exact h
  | succ n ih =>
    rw [putCells_succ]
    exact ih (cellsWithin_putCell _ h (by omega)) (by omega)

/-- Only the values inside the range matter. -/
theorem putCells_congr (m : List (Nat × α)) (base n : Nat) {v w : Nat → α} (h : ∀ t < n, v t = w t) :
    putCells m base n v = putCells m base n w := by
  induction n generalizing m with
  | zero => rfl
  | succ n ih => rw [putCells_succ, putCells_succ, h n (by omega), ih _ fun t ht => h t (by omega)]

/-! ### Equal contents are equal data -/

theorem cellAt_eq_none_of_lt {m : List (Nat × α)} {a : Nat} (h : ∀ c ∈ m, a < c.1) : cellAt m a = none := by
  induction m with
  | nil => rfl
  | cons c m ih =>
    have h1 := h c List.mem_cons_self
    simp only [cellAt]
    rw [if_neg (by omega)]
    exact ih fun d hd => h d (List.mem_cons_of_mem _ hd)

/-- Two buffers in canonical form that read alike at every cell are the same list. -/
theorem cells_ext {m n : List (Nat × α)} (hm : cellsWf m) (hn : cellsWf n) (h : ∀ a, cellAt m a = cellAt n a) :
    m = n := by
  induction m generalizing n with
  | nil =>
    cases n with
    | nil => rfl
    | cons d n => simpa [cellAt] using h d.1
  | cons c m ih =>
    obtain ⟨a, u⟩ := c
    obtain ⟨ha, hm'⟩ := List.pairwise_cons.1 hm
    cases n with
    | nil => simpa [cellAt] using h a
    | cons d n =>
      obtain ⟨b, w⟩ := d
      obtain ⟨hb, hn'⟩ := List.pairwise_cons.1 hn
      have hab : a = b := by
        rcases Nat.lt_trichotomy a b with hlt | heq | hlt
        · have := h a
          rw [cellAt_eq_none_of_lt (m := (b, w) :: n)] at this
          · simp [cellAt] at this
          · intro c hc
            rcases List.mem_cons.1 hc with rfl | hc
            · exact hlt
            · exact Nat.lt_trans hlt (hb c hc)
        · exact heq
        · have := h b
          rw [cellAt_eq_none_of_lt (m := (a, u) :: m)] at this
          · simp [cellAt] at this
          · intro c hc
            rcases List.mem_cons.1 hc with rfl | hc
            · exact hlt
            · exact Nat.lt_trans hlt (ha c hc)
      subst hab
      have huw : u = w := by simpa [cellAt] using h a
      subst huw
      congr 1
      refine ih hm' hn' fun c => ?_
      have hc := h c
      simp only [cellAt] at hc
      by_cases hca : c = a
      · subst hca
        rw [cellAt_eq_none_of_lt fun d hd => ha d hd, cellAt_eq_none_of_lt fun d hd => hb d hd]
      · simpa [hca] using hc

/-- After reset both buffers are in canonical form, and no cell is outside them. -/
theorem reset_cells : cellsWf State.reset.ibuf ∧ cellsWf State.reset.obuf ∧
    (∀ size, cellsWithin State.reset.ibuf size) ∧ ∀ size, cellsWithin State.reset.obuf size :=
  ⟨List.Pairwise.nil, List.Pairwise.nil, fun _ _ h => absurd h (List.not_mem_nil), fun _ _ h => absurd h (List.not_mem_nil)⟩

/-! ### Reading the buffers of a state -/

theorem setIbufByte_ibufByte (s : State) (a : Nat) (b : Byte) (c : Nat) :
    (s.setIbufByte a b).ibufByte c = if c = a then b else s.ibufByte c := by
  simp only [State.ibufByte, setIbufByte_ibuf, setIbufByte_epoch, cellAt_putCell]
  split <;> simp

theorem setObufWord_obufWord (s : State) (i : Nat) (w : Word) (c : Nat) :
    (s.setObufWord i w).obufWord c = if c = i then w else s.obufWord c := by
  simp only [State.obufWord, setObufWord_obuf, setObufWord_epoch, cellAt_putCell]
  split <;> simp

theorem setObufRange_obufWord (s : State) (base n : Nat) (v : Nat → Word) (c : Nat) :
    (s.setObufRange base n v).obufWord c = if base ≤ c ∧ c < base + n then v (c - base) else s.obufWord c := by
  simp only [State.obufWord, setObufRange_obuf, setObufRange_epoch, cellAt_putCells]
  split <;> simp

/-- A read of `IBUF` depends on the list and the reset count alone. -/
theorem ibufByte_congr {s t : State} (h : s.ibuf = t.ibuf) (he : s.epoch = t.epoch) (a : Nat) :
    s.ibufByte a = t.ibufByte a := by
  simp [State.ibufByte, h, he]

/-- A read of `OBUF` depends on the list and the reset count alone. -/
theorem obufWord_congr {s t : State} (h : s.obuf = t.obuf) (he : s.epoch = t.epoch) (i : Nat) :
    s.obufWord i = t.obufWord i := by
  simp [State.obufWord, h, he]

end Sys2Proof.Machine
end

