-- ==== Sys2Proof/Laws/Ops.lean ====
section
/-! SUPPORT. For each shared operation of the commands, once, everything it can do. -/

namespace Sys2Proof.Machine

/-! ### STATUS -/

theorem status_values : statusLaunched = 0x01#32 ∧ statusSuccess = 0x02#32 ∧ statusError .invalidLength = 0x16#32 ∧
    statusError .illegalCommand = 0x26#32 ∧ statusError .bufferRange = 0x36#32 := by decide

/-! ### The common decode procedure -/

/-- The length check of R162 fails exactly when `NB * ELEMS` is not `K`: the second test implies the first. -/
theorem lengthCheck_iff (s : State) (f : BlockFormat) :
    (s.k.toNat % f.elems ≠ 0 ∨ s.nb.toNat * f.elems ≠ s.k.toNat) ↔ s.nb.toNat * f.elems ≠ s.k.toNat := by
  constructor
  · rintro (h | h)
    · intro he; rw [← he] at h; simp at h
    · exact h
  · exact .inr

/-- Everything `decodeBlocks` can do (R161): the length error, the range error, or every output and completion. -/
theorem decodeBlocks_cases (s : State) (f : BlockFormat) (elem : ElemFn) :
    (s.nb.toNat * f.elems ≠ s.k.toNat ∧ s.decodeBlocks f elem = s.raiseError .invalidLength) ∨
    (s.nb.toNat * f.elems = s.k.toNat ∧
      (s.params.ibufBytes < s.src.toNat + s.nb.toNat * f.blockBytes s.params ∨
        s.params.obufWords < s.dst.toNat + s.k.toNat) ∧
      s.decodeBlocks f elem = s.raiseError .bufferRange) ∨
    (s.nb.toNat * f.elems = s.k.toNat ∧ s.src.toNat + s.nb.toNat * f.blockBytes s.params ≤ s.params.ibufBytes ∧
      s.dst.toNat + s.k.toNat ≤ s.params.obufWords ∧
      s.decodeBlocks f elem = (s.setObufRange s.dst.toNat s.k.toNat (s.blockOutput f elem)).complete) := by
  unfold State.decodeBlocks
  by_cases h1 : s.nb.toNat * f.elems ≠ s.k.toNat
  · exact .inl ⟨h1, if_pos ((lengthCheck_iff s f).2 h1)⟩
  · rw [if_neg fun h => h1 ((lengthCheck_iff s f).1 h)]
    have h1 := not_not.1 h1
    split
    · rename_i h2; exact .inr (.inl ⟨h1, h2, rfl⟩)
    · rename_i h2; exact .inr (.inr ⟨h1, by omega, by omega, rfl⟩)

/-- A successful decode (R161 to R163). -/
theorem decodeBlocks_success {s : State} {f : BlockFormat} (elem : ElemFn)
    (hk : s.nb.toNat * f.elems = s.k.toNat)
    (hi : s.src.toNat + s.nb.toNat * f.blockBytes s.params ≤ s.params.ibufBytes)
    (ho : s.dst.toNat + s.k.toNat ≤ s.params.obufWords) :
    s.decodeBlocks f elem = (s.setObufRange s.dst.toNat s.k.toNat (s.blockOutput f elem)).complete := by
  rcases decodeBlocks_cases s f elem with ⟨h, -⟩ | ⟨-, h, -⟩ | ⟨-, -, -, h⟩
  · exact absurd hk h
  · omega
  · exact h

section
variable (s : State) (f : BlockFormat) (elem : ElemFn)

@[simp] theorem decodeBlocks_cmd : (s.decodeBlocks f elem).cmd = s.cmd := by unfold State.decodeBlocks; split <;> [skip; split] <;> rfl
@[simp] theorem decodeBlocks_src : (s.decodeBlocks f elem).src = s.src := by unfold State.decodeBlocks; split <;> [skip; split] <;> rfl
@[simp] theorem decodeBlocks_dst : (s.decodeBlocks f elem).dst = s.dst := by unfold State.decodeBlocks; split <;> [skip; split] <;> rfl
@[simp] theorem decodeBlocks_k : (s.decodeBlocks f elem).k = s.k := by unfold State.decodeBlocks; split <;> [skip; split] <;> rfl
@[simp] theorem decodeBlocks_nb : (s.decodeBlocks f elem).nb = s.nb := by unfold State.decodeBlocks; split <;> [skip; split] <;> rfl
@[simp] theorem decodeBlocks_opa : (s.decodeBlocks f elem).opa = s.opa := by unfold State.decodeBlocks; split <;> [skip; split] <;> rfl
@[simp] theorem decodeBlocks_res0 : (s.decodeBlocks f elem).res0 = s.res0 := by unfold State.decodeBlocks; split <;> [skip; split] <;> rfl
@[simp] theorem decodeBlocks_res1 : (s.decodeBlocks f elem).res1 = s.res1 := by unfold State.decodeBlocks; split <;> [skip; split] <;> rfl
@[simp] theorem decodeBlocks_phase : (s.decodeBlocks f elem).phase = .idle := by unfold State.decodeBlocks; split <;> [skip; split] <;> rfl
@[simp] theorem decodeBlocks_ibuf : (s.decodeBlocks f elem).ibuf = s.ibuf := by unfold State.decodeBlocks; split <;> [skip; split] <;> rfl
@[simp] theorem decodeBlocks_params : (s.decodeBlocks f elem).params = s.params := by unfold State.decodeBlocks; split <;> [skip; split] <;> rfl
@[simp] theorem decodeBlocks_epoch : (s.decodeBlocks f elem).epoch = s.epoch := by unfold State.decodeBlocks; split <;> [skip; split] <;> rfl
@[simp] theorem decodeBlocks_resetPin : (s.decodeBlocks f elem).resetPin = s.resetPin := by unfold State.decodeBlocks; split <;> [skip; split] <;> rfl
@[simp] theorem decodeBlocks_inputs : (s.decodeBlocks f elem).inputs = s.inputs := by unfold State.decodeBlocks; split <;> [skip; split] <;> rfl
@[simp] theorem decodeBlocks_replies : (s.decodeBlocks f elem).replies = s.replies := by unfold State.decodeBlocks; split <;> [skip; split] <;> rfl
end

/-- The output of rank `i*ELEMS + e` is element `e` of block `i` (R164). -/
theorem blockOutput_rank (s : State) (f : BlockFormat) (elem : ElemFn) (i : Nat) {e : Nat} (he : e < f.elems) :
    s.blockOutput f elem (i * f.elems + e) = elem (s.block f i) e := by
  have hp : 0 < f.elems := Nat.zero_lt_of_lt he
  unfold State.blockOutput
  rw [Nat.mul_comm i, Nat.mul_add_div hp, Nat.div_eq_of_lt he, Nat.mul_add_mod, Nat.mod_eq_of_lt he, Nat.add_zero]

theorem elems_pos (f : BlockFormat) : 0 < f.elems := by cases f <;> decide

/-! ### The extractors -/

/-- Everything `extractScale` can do: the range error or the two results (R181, R185). -/
theorem extractScale_cases (s : State) (v0 v1 : Word) :
    (s.params.ibufBytes < s.src.toNat + 12 ∧ s.extractScale v0 v1 = s.raiseError .bufferRange) ∨
    (s.src.toNat + 12 ≤ s.params.ibufBytes ∧ s.extractScale v0 v1 = s.completeScalar2 v0 v1) := by
  unfold State.extractScale
  split
  · exact .inl ⟨‹_›, rfl⟩
  · exact .inr ⟨by omega, rfl⟩

/-! ### Bytes -/

/-- `MemRead` depends on the bytes of its range alone (R13). -/
theorem memRead_congr {b c : Nat → Byte} {a n : Nat} (h : ∀ t < n, b (a + t) = c (a + t)) :
    memRead b a n = memRead c a n := by
  induction n generalizing a with
  | zero => rfl
  | succ n ih =>
    have h0 : b a = c a := by simpa using h 0 (by omega)
    rw [memRead, memRead, h0, ih fun t ht => by rw [Nat.add_assoc, Nat.add_comm 1]; exact h (t + 1) (by omega)]

/-- `MemRead(a, n)` has `8n` bits (R13). -/
theorem memRead_lt (b : Nat → Byte) (a n : Nat) : memRead b a n < 2 ^ (8 * n) := by
  induction n generalizing a with
  | zero => simp [memRead]
  | succ n ih =>
    have h0 := (b a).isLt
    have h1 := ih (a + 1)
    rw [memRead, Nat.mul_succ, Nat.pow_add, Nat.mul_comm (2 ^ (8 * n))]
    omega

theorem blk16_congr {b c : Nat → Byte} {o : Nat} (h0 : b o = c o) (h1 : b (o + 1) = c (o + 1)) :
    blk16 b o = blk16 c o := by
  simp [blk16, memRead, h0, h1]

theorem blk32_congr {b c : Nat → Byte} {o : Nat} (h : ∀ t < 4, b (o + t) = c (o + t)) :
    blk32 b o = blk32 c o := by
  rw [blk32, blk32, memRead_congr h]

theorem s8_range (b : Byte) : -128 ≤ s8 b ∧ s8 b ≤ 127 := by
  have := b.isLt
  unfold s8
  split <;> omega

/-! ### Ranges of the packed fields (R172, R180, R184, R193, R197, R199, R201) -/

theorem nib_lt (qs : Nat → Byte) (e : Nat) : nib qs e < 16 :=
  Nat.lt_of_le_of_lt Nat.and_le_right (by omega)

theorem hb_lt (qh : Word) (e : Nat) : hb qh e < 2 :=
  Nat.lt_of_le_of_lt Nat.and_le_right (by omega)

theorem code5_lt (qs : Nat → Byte) (qh : Word) (e : Nat) : code5 qs qh e < 32 := by
  have h1 : nib qs e < 2 ^ 5 := Nat.lt_trans (nib_lt qs e) (by decide)
  have h2 : hb qh e <<< 4 < 2 ^ 5 := by rw [Nat.shiftLeft_eq]; have := hb_lt qh e; omega
  exact Nat.or_lt_two_pow h1 h2

theorem q2_lt (qs : Nat → Byte) (e : Nat) : q2 qs e < 4 :=
  Nat.lt_of_le_of_lt Nat.and_le_right (by omega)

theorem nibK_lt (qs : Nat → Byte) (e : Nat) : nibK qs e < 16 :=
  Nat.lt_of_le_of_lt Nat.and_le_right (by omega)

theorem hbK_lt (a : Nat → Byte) (e : Nat) : hbK a e < 2 :=
  Nat.lt_of_le_of_lt Nat.and_le_right (by omega)

theorem code6_lt (blk : Nat → Byte) (e : Nat) : code6 blk e < 64 := by
  unfold code6
  have h1 : ((blk (64 * (e / 128) + 32 * (e % 128 / 32 % 2) + e % 32)).toNat >>> (4 * (e % 128 / 32 / 2))) &&& 15 < 2 ^ 6 :=
    Nat.lt_of_le_of_lt Nat.and_le_right (by omega)
  have h2 : (((blk (128 + 32 * (e / 128) + e % 32)).toNat >>> (2 * (e % 128 / 32))) &&& 3) <<< 4 < 2 ^ 6 := by
    rw [Nat.shiftLeft_eq]
    have : ((blk (128 + 32 * (e / 128) + e % 32)).toNat >>> (2 * (e % 128 / 32))) &&& 3 ≤ 3 := Nat.and_le_right
    omega
  exact Nat.or_lt_two_pow h1 h2

theorem gsmScale_lt (q : Nat → Byte) (j : Nat) : gsmScale q j < 64 := by
  unfold gsmScale
  split
  · exact Nat.lt_of_le_of_lt Nat.and_le_right (by omega)
  · refine Nat.or_lt_two_pow (n := 6) (Nat.lt_of_le_of_lt Nat.and_le_right (by omega)) ?_
    rw [Nat.shiftLeft_eq, Nat.shiftRight_eq_div_pow]
    have := (q (j - 4)).isLt
    omega

theorem gsmMin_lt (q : Nat → Byte) (j : Nat) : gsmMin q j < 64 := by
  unfold gsmMin
  split
  · exact Nat.lt_of_le_of_lt Nat.and_le_right (by omega)
  · refine Nat.or_lt_two_pow (n := 6) ?_ ?_
    · rw [Nat.shiftRight_eq_div_pow]; have := (q (j + 4)).isLt; omega
    · rw [Nat.shiftLeft_eq, Nat.shiftRight_eq_div_pow]; have := (q j).isLt; omega

theorem sc3_lt (b : Nat → Byte) (t : Nat) : sc3 b t < 64 := by
  unfold sc3
  refine Nat.or_lt_two_pow (n := 6) ?_ ?_
  · have h1 := (b (t % 4)).isLt
    have h2 := (b (4 + t % 4)).isLt
    have h3 : (b (t % 4)).toNat &&& 15 ≤ 15 := Nat.and_le_right
    have h4 : (b (4 + t % 4)).toNat &&& 15 ≤ 15 := Nat.and_le_right
    simp only [Nat.shiftRight_eq_div_pow]
    split <;> [omega; split] <;> [omega; split] <;> omega
  · rw [Nat.shiftLeft_eq]
    have : ((b (8 + t % 4)).toNat >>> (2 * (t / 4))) &&& 3 ≤ 3 := Nat.and_le_right
    omega

end Sys2Proof.Machine
end

