-- ==== Sys2Proof/Laws/Codes.lean ====
section
/-! SUPPORT. The range of every integer that an element multiplies (42_linear_decoders.md R173, 44_superblock_decoders.md R204), one lemma per code. -/

namespace Sys2Proof.Machine

variable (blk : Nat → Byte) (e : Nat)

/-! ### Linear formats (R173) -/

theorem codeQ4_0_range : -8 ≤ codeQ4_0 blk e ∧ codeQ4_0 blk e ≤ 7 := by
  have := nib_lt (fieldAt blk 2) e
  unfold codeQ4_0; omega

theorem codeQ4_1_range : 0 ≤ codeQ4_1 blk e ∧ codeQ4_1 blk e ≤ 15 := by
  have := nib_lt (fieldAt blk 4) e
  unfold codeQ4_1; omega

theorem codeQ5_0_range : -16 ≤ codeQ5_0 blk e ∧ codeQ5_0 blk e ≤ 15 := by
  have := code5_lt (fieldAt blk 6) (blk32 blk 2) e
  unfold codeQ5_0; omega

theorem codeQ5_1_range : 0 ≤ codeQ5_1 blk e ∧ codeQ5_1 blk e ≤ 31 := by
  have := code5_lt (fieldAt blk 8) (blk32 blk 4) e
  unfold codeQ5_1; omega

theorem codeQ8_0_range : -128 ≤ codeQ8_0 blk e ∧ codeQ8_0 blk e ≤ 127 := s8_range _

/-! ### Super-block formats (R204) -/

theorem scaleQ2_K_range : 0 ≤ scaleQ2_K blk e ∧ scaleQ2_K blk e ≤ 15 := by
  have : (blk (e / 16)).toNat &&& 15 ≤ 15 := Nat.and_le_right
  unfold scaleQ2_K; omega

theorem minQ2_K_range : 0 ≤ minQ2_K blk e ∧ minQ2_K blk e ≤ 15 := by
  have := (blk (e / 16)).isLt
  unfold minQ2_K
  rw [Nat.shiftRight_eq_div_pow]; omega

theorem codeQ2_K_range : 0 ≤ codeQ2_K blk e ∧ codeQ2_K blk e ≤ 3 := by
  have := q2_lt (fieldAt blk 16) e
  unfold codeQ2_K; omega

theorem scaleQ3_K_range : -32 ≤ scaleQ3_K blk e ∧ scaleQ3_K blk e ≤ 31 := by
  have := sc3_lt (fieldAt blk 96) (e / 16)
  unfold scaleQ3_K; omega

theorem codeQ3_K_range : -4 ≤ codeQ3_K blk e ∧ codeQ3_K blk e ≤ 3 := by
  have h1 := q2_lt (fieldAt blk 32) e
  have h2 := hbK_lt blk e
  unfold codeQ3_K; omega

theorem scaleQ45_K_range : 0 ≤ scaleQ45_K blk e ∧ scaleQ45_K blk e ≤ 63 := by
  have := gsmScale_lt (fieldAt blk 4) (e / 32)
  unfold scaleQ45_K; omega

theorem minQ45_K_range : 0 ≤ minQ45_K blk e ∧ minQ45_K blk e ≤ 63 := by
  have := gsmMin_lt (fieldAt blk 4) (e / 32)
  unfold minQ45_K; omega

theorem codeQ4_K_range : 0 ≤ codeQ4_K blk e ∧ codeQ4_K blk e ≤ 15 := by
  have := nibK_lt (fieldAt blk 16) e
  unfold codeQ4_K; omega

theorem codeQ5_K_range : 0 ≤ codeQ5_K blk e ∧ codeQ5_K blk e ≤ 31 := by
  have h1 := nibK_lt (fieldAt blk 48) e
  have h2 := hbK_lt (fieldAt blk 16) e
  unfold codeQ5_K; omega

theorem scaleQ6_K_range : -128 ≤ scaleQ6_K blk e ∧ scaleQ6_K blk e ≤ 127 := s8_range _

theorem codeQ6_K_range : -32 ≤ codeQ6_K blk e ∧ codeQ6_K blk e ≤ 31 := by
  have := code6_lt blk e
  unfold codeQ6_K; omega

theorem codeQ8_K_range (p : Params) : -128 ≤ codeQ8_K p blk e ∧ codeQ8_K p blk e ≤ 127 := s8_range _

end Sys2Proof.Machine
end

