-- ==== Sys2Proof/Laws/Host.lean ====
section
/-! SUPPORT. What one host access can do. -/

namespace Sys2Proof.Machine

/-! ### Writing several bytes -/

/-- The byte `k` of a value, the least significant first (R51). -/
theorem setIbufBytes_ibufByte (s : State) (a : Nat) (v : Word) (n c : Nat) :
    (s.setIbufBytes a v n).ibufByte c =
      if a ≤ c ∧ c < a + n then (v >>> (8 * (c - a))).extractLsb' 0 8 else s.ibufByte c := by
  induction n generalizing s a v with
  | zero => simp only [State.setIbufBytes]; rw [if_neg (by omega)]
  | succ n ih =>
    rw [State.setIbufBytes, ih, setIbufByte_ibufByte]
    by_cases h0 : c = a
    · subst h0
      rw [if_neg (by omega), if_pos rfl, if_pos (by omega)]
      simp
    · rw [if_neg h0]
      by_cases h1 : a + 1 ≤ c ∧ c < a + 1 + n
      · rw [if_pos h1, if_pos (by omega), ← BitVec.shiftRight_add]
        congr 2
        omega
      · rw [if_neg h1, if_neg (by omega)]

/-- Writing bytes changes the list of `IBUF` and nothing else. -/
theorem setIbufBytes_frame (s : State) (a : Nat) (v : Word) (n : Nat) :
    s.setIbufBytes a v n = { s with ibuf := (s.setIbufBytes a v n).ibuf } := by
  induction n generalizing s a v with
  | zero => rfl
  | succ n ih => rw [State.setIbufBytes, ih]; rfl

theorem setIbufBytes_cellsWf {s : State} (a : Nat) (v : Word) (n : Nat) (h : cellsWf s.ibuf) :
    cellsWf (s.setIbufBytes a v n).ibuf := by
  induction n generalizing s a v with
  | zero => exact h
  | succ n ih => exact ih _ _ (cellsWf_putCell _ _ h)

theorem setIbufBytes_cellsWithin {s : State} {size a : Nat} (v : Word) {n : Nat} (h : cellsWithin s.ibuf size)
    (hn : a + n ≤ size) : cellsWithin (s.setIbufBytes a v n).ibuf size := by
  induction n generalizing s a v with
  | zero => exact h
  | succ n ih => exact ih _ (cellsWithin_putCell _ h (by omega)) (by omega)

/-! ### One access -/

/-- Everything `hostAccess` can do: nothing while reset is asserted; the fault of what does not exist; while a
command is in flight the refusal of a hazard; otherwise the access's effect. -/
theorem hostAccess_cases (s : State) (a : HostAccess) :
    (s.resetPin = true ∧ s.hostAccess a = .next s) ∨
    (s.resetPin = false ∧ ∃ f, a.fault s.params = some f ∧ s.hostAccess a = .fault f) ∨
    (s.resetPin = false ∧ a.fault s.params = none ∧ s.phase = .busy ∧
      ∃ r, s.hazard a = some r ∧ s.hostAccess a = .refused r) ∨
    (s.resetPin = false ∧ a.fault s.params = none ∧ (s.phase = .busy → s.hazard a = none) ∧
      s.hostAccess a = .next (s.accessEffect a)) := by
  unfold State.hostAccess
  cases hp : s.resetPin with
  | true => exact .inl ⟨rfl, rfl⟩
  | false =>
    cases hf : a.fault s.params with
    | some f => exact .inr (.inl ⟨rfl, f, rfl, rfl⟩)
    | none =>
      cases hph : s.phase with
      | idle => exact .inr (.inr (.inr ⟨rfl, rfl, by simp, rfl⟩))
      | busy =>
        cases hh : s.hazard a with
        | some r => exact .inr (.inr (.inl ⟨rfl, rfl, rfl, r, rfl, by simp⟩))
        | none => exact .inr (.inr (.inr ⟨rfl, rfl, fun _ => rfl, by simp⟩))

/-- If an access answers a next state, that state is unchanged (reset asserted) or the access's effect. -/
theorem hostAccess_next {s t : State} {a : HostAccess} (h : s.hostAccess a = .next t) :
    (s.resetPin = true ∧ t = s) ∨
    (s.resetPin = false ∧ a.fault s.params = none ∧ (s.phase = .busy → s.hazard a = none) ∧
      t = s.accessEffect a) := by
  rcases hostAccess_cases s a with ⟨h1, h2⟩ | ⟨-, f, -, h2⟩ | ⟨-, -, -, r, -, h2⟩ | ⟨h1, h2, h3, h4⟩
  · rw [h] at h2; cases h2; exact .inl ⟨h1, rfl⟩
  · rw [h] at h2; cases h2
  · rw [h] at h2; cases h2
  · rw [h] at h4; cases h4; exact .inr ⟨h1, h2, h3, rfl⟩

/-- What an access has no effect on, whatever it is: the results, the parameters, the reset count, the reset
input and the inputs to come. -/
theorem accessEffect_frame (s : State) (a : HostAccess) :
    (s.accessEffect a).res0 = s.res0 ∧ (s.accessEffect a).res1 = s.res1 ∧
    (s.accessEffect a).params = s.params ∧ (s.accessEffect a).epoch = s.epoch ∧
    (s.accessEffect a).resetPin = s.resetPin ∧ (s.accessEffect a).inputs = s.inputs := by
  cases a with
  | readReg o => simp only [State.accessEffect]; split <;> exact ⟨rfl, rfl, rfl, rfl, rfl, rfl⟩
  | writeReg o v =>
    simp only [State.accessEffect]
    split
    · rename_i r _
      cases r <;> exact ⟨rfl, rfl, rfl, rfl, rfl, rfl⟩
    all_goals exact ⟨rfl, rfl, rfl, rfl, rfl, rfl⟩
  | readIbuf w i => exact ⟨rfl, rfl, rfl, rfl, rfl, rfl⟩
  | writeIbuf w i v =>
    simp only [State.accessEffect]
    rw [setIbufBytes_frame]
    exact ⟨rfl, rfl, rfl, rfl, rfl, rfl⟩
  | readObuf i => exact ⟨rfl, rfl, rfl, rfl, rfl, rfl⟩
  | writeObuf i v => exact ⟨rfl, rfl, rfl, rfl, rfl, rfl⟩

/-- The map of the register space gives back every register (R21). -/
theorem regTarget_offset (r : Reg) : regTarget r.offset = .register r := by cases r <;> rfl

end Sys2Proof.Machine
end

