-- ==== Sys2Proof/Laws/Numerics.lean ====
section
/-! SUPPORT. What the shared numeric operations can do: one lemma per operation, cited instead of unfolding it. -/

namespace Sys2Proof.Machine

/-! ### Rounding -/

/-- `nearestEven m k` is a nearest integer to `m / 2^k`, and the even one of two equally near (R101). -/
theorem nearestEven_spec (m k : Nat) :
    2 * m ≤ 2 * (nearestEven m k * 2 ^ k) + 2 ^ k ∧ 2 * (nearestEven m k * 2 ^ k) ≤ 2 * m + 2 ^ k ∧
    (2 * m = 2 * (nearestEven m k * 2 ^ k) + 2 ^ k ∨ 2 * (nearestEven m k * 2 ^ k) = 2 * m + 2 ^ k →
      nearestEven m k % 2 = 0) := by
  have hp : 0 < 2 ^ k := Nat.two_pow_pos k
  have hm := Nat.div_add_mod m (2 ^ k)
  have hr := Nat.mod_lt m hp
  rw [Nat.mul_comm] at hm
  unfold nearestEven
  generalize 2 ^ k = d at *
  generalize m / d = n at *
  generalize m % d = r at *
  simp only
  split
  · rw [Nat.add_mul, Nat.one_mul]; omega
  · omega

/-- An exact quotient is not changed by rounding (R101). -/
theorem nearestEven_exact (n k : Nat) : nearestEven (n * 2 ^ k) k = n := by
  have hp : ¬ 0 = 2 ^ k := (Nat.two_pow_pos k).ne
  simp [nearestEven, hp]

/-- The integer `i2f` of 0 is `+0`; every other integer is rounded once (R102). -/
theorem i2f_cases (n : Int) :
    (n = 0 ∧ i2f n = 0#32) ∨ (n ≠ 0 ∧ i2f n = round32 (decide (n < 0)) n.natAbs 0) := by
  unfold i2f
  split
  · exact .inl ⟨‹_›, rfl⟩
  · exact .inr ⟨‹_›, rfl⟩

/-! ### Arithmetic -/

/-- Everything `fmul` can do, by the classes of its operands (R103, R104). -/
theorem fmul_cases (p : Params) (a b : Word) :
    ((isNaN a = true ∨ isNaN b = true ∨ (isInf a = true ∧ isZero b = true) ∨ (isZero a = true ∧ isInf b = true)) ∧
      fmul p a b = p.canonNan) ∨
    ((isInf a = true ∨ isInf b = true) ∧ fmul p a b = withSign (signF a ^^ signF b) 0x7F800000) ∨
    ((isZero a = true ∨ isZero b = true) ∧ fmul p a b = withSign (signF a ^^ signF b) 0) ∨
    (isNaN a = false ∧ isNaN b = false ∧ isInf a = false ∧ isInf b = false ∧ isZero a = false ∧ isZero b = false ∧
      fmul p a b = round32 (signF a ^^ signF b) (scaledF a * scaledF b).natAbs (-298)) := by
  unfold fmul
  cases isNaN a <;> cases isNaN b <;> cases isInf a <;> cases isInf b <;> cases isZero a <;> cases isZero b <;> simp

/-- Everything `fadd` can do, by the classes of its operands (R104, R105). -/
theorem fadd_cases (p : Params) (a b : Word) :
    ((isNaN a = true ∨ isNaN b = true ∨ (isInf a = true ∧ isInf b = true ∧ a ≠ b)) ∧ fadd p a b = p.canonNan) ∨
    (isInf a = true ∧ fadd p a b = a) ∨ (isInf b = true ∧ fadd p a b = b) ∨
    (isNaN a = false ∧ isNaN b = false ∧ isInf a = false ∧ isInf b = false ∧ scaledF a + scaledF b ≠ 0 ∧
      fadd p a b = round32 (decide (scaledF a + scaledF b < 0)) (scaledF a + scaledF b).natAbs (-149)) ∨
    (isNaN a = false ∧ isNaN b = false ∧ isInf a = false ∧ isInf b = false ∧ scaledF a + scaledF b = 0 ∧
      fadd p a b = if a = 0x80000000#32 ∧ b = 0x80000000#32 then 0x80000000#32 else 0#32) := by
  unfold fadd
  by_cases hx : scaledF a + scaledF b = 0
  · cases isNaN a <;> cases isNaN b <;> cases isInf a <;> cases isInf b <;> simp [hx]
    by_cases h : a = b <;> simp [h]
  · cases isNaN a <;> cases isNaN b <;> cases isInf a <;> cases isInf b <;> simp [hx]
    by_cases h : a = b <;> simp [h]

/-- `fsub` adds the second operand with its sign bit flipped (R106). -/
theorem fsub_eq (p : Params) (a b : Word) : fsub p a b = fadd p a (b ^^^ 0x80000000#32) := rfl

/-! ### Fields -/

theorem expF_lt (w : Word) : expF w < 256 := (w.extractLsb' 23 8).isLt
theorem fracF_lt (w : Word) : fracF w < 2 ^ 23 := (w.extractLsb' 0 23).isLt
theorem expH_lt (h : Half) : expH h < 32 := (h.extractLsb' 10 5).isLt
theorem fracH_lt (h : Half) : fracH h < 1024 := (h.extractLsb' 0 10).isLt

end Sys2Proof.Machine
end

