-- ==== Sys2Proof/Laws/PerInstr.lean ====
section
/-! SUPPORT. Per command, what its word holds in each field of the format (30_encoding.md R80). -/

namespace Sys2Proof.Laws

/-- The four fields of the command word of `i` are the ones R80 names: the opcode, zero, the immediate, zero. -/
def WordFields.Statement (i : Instr) : Prop :=
  opcField (encode i) = i.opcode ∧ z0Field (encode i) = 0#8 ∧ jField (encode i) = i.immediate ∧
  z1Field (encode i) = 0#12

theorem WordFields.h2f : WordFields.Statement .h2f := by unfold Statement; decide
theorem WordFields.f2h : WordFields.Statement .f2h := by unfold Statement; decide
theorem WordFields.e8m0h : WordFields.Statement .e8m0h := by unfold Statement; decide
theorem WordFields.gsm6 (j : BitVec 4) : WordFields.Statement (.gsm6 j) := by unfold Statement; revert j; decide
theorem WordFields.sc3k (j : BitVec 4) : WordFields.Statement (.sc3k j) := by unfold Statement; revert j; decide
theorem WordFields.dq4_0 : WordFields.Statement .dq4_0 := by unfold Statement; decide
theorem WordFields.dq4_1 : WordFields.Statement .dq4_1 := by unfold Statement; decide
theorem WordFields.dq5_0 : WordFields.Statement .dq5_0 := by unfold Statement; decide
theorem WordFields.dq5_1 : WordFields.Statement .dq5_1 := by unfold Statement; decide
theorem WordFields.dq8_0 : WordFields.Statement .dq8_0 := by unfold Statement; decide
theorem WordFields.dq2_K : WordFields.Statement .dq2_K := by unfold Statement; decide
theorem WordFields.dq3_K : WordFields.Statement .dq3_K := by unfold Statement; decide
theorem WordFields.dq4_K : WordFields.Statement .dq4_K := by unfold Statement; decide
theorem WordFields.dq5_K : WordFields.Statement .dq5_K := by unfold Statement; decide
theorem WordFields.dq6_K : WordFields.Statement .dq6_K := by unfold Statement; decide
theorem WordFields.dq8_K : WordFields.Statement .dq8_K := by unfold Statement; decide

end Sys2Proof.Laws
end

