-- ==== Sys2Proof/Laws/Step.lean ====
section
/-! SUPPORT. What one command, one turn and one step can do. -/

namespace Sys2Proof.Machine

/-- A command that answers a next state is idle in it and left the command word, the arguments, `IBUF` and the
model's own fields alone (R22, R27, R33). -/
theorem exec_frame {i : Instr} {s t : State} (h : exec i s = .next t) :
    t.phase = .idle ∧ t.cmd = s.cmd ∧ t.src = s.src ∧ t.dst = s.dst ∧ t.k = s.k ∧ t.nb = s.nb ∧ t.opa = s.opa ∧
    t.ibuf = s.ibuf ∧ t.params = s.params ∧ t.epoch = s.epoch ∧ t.resetPin = s.resetPin ∧ t.inputs = s.inputs ∧
    t.replies = s.replies := by
  cases i
  case gsm6 j =>
    simp only [exec, execGsm6, Host.Outcome.next.injEq] at h
    subst h
    split
    · simp
    · unfold State.extractScale; split <;> simp
  case sc3k j =>
    simp only [exec, execSc3k, Host.Outcome.next.injEq] at h
    subst h
    unfold State.extractScale
    split <;> simp
  all_goals
    simp only [exec, execH2f, execF2h, execE8m0h, execDq4_0, execDq4_1, execDq5_0, execDq5_1, execDq8_0, execDq2_K,
      execDq3_K, execDq4_K, execDq5_K, execDq6_K, execDq8_K, Host.Outcome.next.injEq] at h
    subst h
    simp

/-- The element function of a block decoder (R165 to R170, R192 to R202). -/
theorem exec_block {i : Instr} {f : BlockFormat} (h : classOf i = .block f) :
    ∃ elem : Params → ElemFn, ∀ s, exec i s = .next (s.decodeBlocks f (elem s.params)) := by
  cases i <;> simp only [classOf, reduceCtorEq, CmdClass.block.injEq] at h
  all_goals subst h
  · exact ⟨elemQ4_0, fun _ => rfl⟩
  · exact ⟨elemQ4_1, fun _ => rfl⟩
  · exact ⟨elemQ5_0, fun _ => rfl⟩
  · exact ⟨elemQ5_1, fun _ => rfl⟩
  · exact ⟨elemQ8_0, fun _ => rfl⟩
  · exact ⟨elemQ2_K, fun _ => rfl⟩
  · exact ⟨elemQ3_K, fun _ => rfl⟩
  · exact ⟨elemQ4_K, fun _ => rfl⟩
  · exact ⟨elemQ5_K, fun _ => rfl⟩
  · exact ⟨elemQ6_K, fun _ => rfl⟩
  · exact ⟨elemQ8_K, fun _ => rfl⟩

/-- The completion step: the command that `CMD` encodes, or the illegal-command report (R33, R85). -/
theorem completeCommand_cases (s : State) :
    (∃ i, decode s.cmd = .ok i ∧ s.completeCommand = exec i s) ∨
    (∃ e, decode s.cmd = .error e ∧ s.completeCommand = .next (s.raiseError .illegalCommand)) := by
  unfold State.completeCommand
  cases h : decode s.cmd with
  | ok i => exact .inl ⟨i, rfl, rfl⟩
  | error e => exact .inr ⟨e, rfl, rfl⟩

/-- The DQU's turn: nothing while reset is asserted or no command is in flight, else the completion. -/
theorem dquTurn_cases (s : State) :
    ((s.resetPin = true ∨ s.phase = .idle) ∧ s.dquTurn = .next s) ∨
    (s.resetPin = false ∧ s.phase = .busy ∧ s.dquTurn = s.completeCommand) := by
  unfold State.dquTurn
  cases hp : s.resetPin with
  | true => exact .inl ⟨.inl rfl, rfl⟩
  | false =>
    cases hph : s.phase with
    | idle => exact .inl ⟨.inr rfl, rfl⟩
    | busy => exact .inr ⟨rfl, rfl, rfl⟩

/-- Everything a step can be: the DQU's turn with no input left, or the first input's act. -/
theorem step_cases (s : State) :
    (s.inputs = [] ∧ step s = s.dquTurn) ∨
    (∃ a rest, s.inputs = .host a :: rest ∧ step s = State.hostAccess { s with inputs := rest } a) ∨
    (∃ rest, s.inputs = .dquTurn :: rest ∧ step s = State.dquTurn { s with inputs := rest }) ∨
    (∃ rest, s.inputs = .assertReset :: rest ∧ step s = .next { s with inputs := rest, resetPin := true }) ∨
    (∃ rest, s.inputs = .releaseReset :: rest ∧ s.resetPin = true ∧
      step s = .next (State.releaseReset { s with inputs := rest })) ∨
    (∃ rest, s.inputs = .releaseReset :: rest ∧ s.resetPin = false ∧ step s = .next { s with inputs := rest }) := by
  unfold step
  cases hi : s.inputs with
  | nil => exact .inl ⟨rfl, rfl⟩
  | cons x rest =>
    cases x with
    | host a => exact .inr (.inl ⟨a, rest, rfl, rfl⟩)
    | dquTurn => exact .inr (.inr (.inl ⟨rest, rfl, rfl⟩))
    | assertReset => exact .inr (.inr (.inr (.inl ⟨rest, rfl, rfl⟩)))
    | releaseReset =>
      cases hp : s.resetPin with
      | true => exact .inr (.inr (.inr (.inr (.inl ⟨rest, rfl, rfl, by simp [State.act]⟩))))
      | false => exact .inr (.inr (.inr (.inr (.inr ⟨rest, rfl, rfl, by simp [State.act]⟩))))

end Sys2Proof.Machine
end

