-- ==== Sys2Proof/Tests/Slice0.lean ====
section
/-! SUPPORT. Tests on fixed values, with expected results from spec/95_test_vectors.md or worked from the rules, and for every statement with hypotheses a state and operands that meet them. -/

namespace Sys2Proof.Tests

open Sys2Proof.Machine

/-! ### Well-formedness -/

/-- `GSM6` takes 0 to 7 and no more (R81, R84); `SC3K` takes 0 to 15. -/
theorem test_wellFormed_refuses_gsm6_8 : Instr.wellFormed (.gsm6 8#4) = false := by decide
theorem test_wellFormed_bounds : Instr.wellFormed (.gsm6 7#4) = true ∧ Instr.wellFormed (.sc3k 15#4) = true := by decide

/-! ### Decoding: words written out from R83 -/

theorem test_decode_h2f : decode 0x00000001#32 = .ok .h2f := by decide
theorem test_decode_f2h : decode 0x00000002#32 = .ok .f2h := by decide
theorem test_decode_e8m0h : decode 0x00000003#32 = .ok .e8m0h := by decide
theorem test_decode_gsm6 : decode 0x00070008#32 = .ok (.gsm6 7#4) := by decide
theorem test_decode_sc3k : decode 0x000F0009#32 = .ok (.sc3k 15#4) := by decide
theorem test_decode_dq4_0 : decode 0x00000010#32 = .ok .dq4_0 := by decide
theorem test_decode_dq4_1 : decode 0x00000011#32 = .ok .dq4_1 := by decide
theorem test_decode_dq5_0 : decode 0x00000012#32 = .ok .dq5_0 := by decide
theorem test_decode_dq5_1 : decode 0x00000013#32 = .ok .dq5_1 := by decide
theorem test_decode_dq8_0 : decode 0x00000014#32 = .ok .dq8_0 := by decide
theorem test_decode_dq2_K : decode 0x00000020#32 = .ok .dq2_K := by decide
theorem test_decode_dq3_K : decode 0x00000021#32 = .ok .dq3_K := by decide
theorem test_decode_dq4_K : decode 0x00000022#32 = .ok .dq4_K := by decide
theorem test_decode_dq5_K : decode 0x00000023#32 = .ok .dq5_K := by decide
theorem test_decode_dq6_K : decode 0x00000024#32 = .ok .dq6_K := by decide
theorem test_decode_dq8_K : decode 0x00000025#32 = .ok .dq8_K := by decide

/-- The illegal rows of 95_test_vectors.md section 2.10. -/
theorem test_decode_illegal : [0x00080008#32, 0x00100009#32, 0x00010010#32, 0x00000110#32, 0x00000000#32, 0x00000004#32,
    0x00000015#32, 0x00000026#32, 0x00000030#32, 0x80000001#32, 0xFFFFFFFF#32].all
      (fun w => match decode w with | .ok _ => false | .error _ => true) = true := by decide

/-! ### Small states -/

/-- The parameters at their defaults, with a 292-byte q8_K block. -/
abbrev p0 : Params := Params.default true

/-- Idle after reset, with those parameters. -/
def idle0 : State := State.afterReset p0 0 [] []

/-- The bytes `n` hexadecimal pairs spell, the first pair first. -/
def hexBytes (n x : Nat) : List Nat := (List.range n).map fun i => x / 256 ^ (n - 1 - i) % 256

/-- `IBUF` listed from byte 0 on. -/
def listed (bytes : List Nat) : List Host.Cell :=
  (List.range bytes.length).zip (bytes.map (BitVec.ofNat 8))

/-- `i` in flight, its word in `CMD`, the DQU's turn next. -/
def busy0 (i : Instr) : State := { idle0 with cmd := encode i, status := 0x00000001#32, phase := .busy }

/-- A block decoder in flight on `nb` blocks at `IBUF[0]`, with `k` elements to `OBUF[0]`. -/
def decoding (i : Instr) (k nb : Nat) (bytes : List Nat) : State :=
  { busy0 i with k := BitVec.ofNat 32 k, nb := BitVec.ofNat 32 nb, ibuf := listed bytes }

/-- The twelve bytes of 95_test_vectors.md section 2.4 at `IBUF[0]`, an extractor in flight. -/
def extracting (i : Instr) : State := { busy0 i with ibuf := listed (hexBytes 12 0xC17EBF00E51A807F934CF00F) }

/-- The words an outcome's next state lists in `OBUF` at some cells. -/
def outWords (o : Host.Outcome State Fault Refusal) (cells : List Nat) : List (Option Word) :=
  match o with
  | .next t => cells.map (cellAt t.obuf)
  | .fault _ => []
  | .refused _ => []

/-- `STATUS`, `RES0`, `RES1` of an outcome's next state. -/
def results (o : Host.Outcome State Fault Refusal) : Option (Word × Word × Word) :=
  match o with
  | .next t => some (t.status, t.res0, t.res1)
  | .fault _ => none
  | .refused _ => none

/-! ### Scalar commands: 95_test_vectors.md sections 2.1 to 2.4 -/

theorem test_h2f_subnormal : results (step { busy0 .h2f with opa := 0x00008001#32, res1 := 7#32 }) =
    some (2#32, 0xB3800000#32, 7#32) := by decide +kernel
theorem test_h2f_signalling_nan : results (step { busy0 .h2f with opa := 0xFFFF7D00#32 }) =
    some (2#32, 0x7FE00000#32, 0#32) := by decide +kernel
theorem test_f2h_tie_carries : results (step { busy0 .f2h with opa := 0x3F7FF000#32 }) =
    some (2#32, 0x00003C00#32, 0#32) := by decide +kernel
theorem test_f2h_subnormal_tie : results (step { busy0 .f2h with opa := 0x34200000#32 }) =
    some (2#32, 0x00000002#32, 0#32) := by decide +kernel
theorem test_e8m0h_code_one : results (step { busy0 .e8m0h with opa := 0x00000001#32 }) =
    some (2#32, 0x00400000#32, 0#32) := by decide +kernel
theorem test_e8m0h_ignores_upper_bits : results (step { busy0 .e8m0h with opa := 0x12345680#32 }) =
    some (2#32, 0x3F800000#32, 0#32) := by decide +kernel
theorem test_gsm6_first_half : results (step (extracting (.gsm6 1#4))) =
    some (2#32, 0x0000003E#32, 0x0000001A#32) := by decide +kernel
theorem test_gsm6_second_half : results (step (extracting (.gsm6 5#4))) =
    some (2#32, 0x0000001C#32, 0x00000004#32) := by decide +kernel
theorem test_sc3k_negative : results (step (extracting (.sc3k 9#4))) =
    some (2#32, 0xFFFFFFE7#32, 0x00000007#32) := by decide +kernel
theorem test_sc3k_last : results (step (extracting (.sc3k 15#4))) =
    some (2#32, 0xFFFFFFE7#32, 0x00000007#32) := by decide +kernel

/-! ### Arithmetic: 95_test_vectors.md section 2.5 -/

theorem test_fmul_rounds : fmul p0 0x40490FDB#32 0x42FE0000#32 = 0x43C77DBB#32 := by decide +kernel
theorem test_fadd_rounds : fadd p0 0x3EAAA000#32 0x3DCCC000#32 = 0x3EDDD000#32 := by decide +kernel
theorem test_fsub_negative_zero : fsub p0 0x80000000#32 0x00000000#32 = 0x80000000#32 := by decide +kernel

/-! ### Block decoders: 95_test_vectors.md sections 2.6 to 2.8, some elements of each block -/

/-- The block of 95_test_vectors.md section 2.6, "`DQ4_0`, every nibble value, negative scale". -/
def blockQ4_0 : List Nat :=
    hexBytes 18 0x00B81032547698BADCFE0123456789ABCDEF

theorem test_dq4_0 : outWords (step (decoding .dq4_0 32 1 blockQ4_0)) [3, 17, 30] =
    [some 0x3F800000#32, some 0x40200000#32, some 0xC0000000#32] := by decide +kernel

/-- The block of 95_test_vectors.md section 2.6, "`DQ4_1`, sums that round". -/
def blockQ4_1 : List Nat :=
    hexBytes 20 0x5535662EF0E1D2C3B4A5968778695A4B3C2D1E0F

theorem test_dq4_1 : outWords (step (decoding .dq4_1 32 1 blockQ4_1)) [3, 17, 30] =
    [some 0x3F8CC400#32, some 0x40987F00#32, some 0x3EDDD000#32] := by decide +kernel

/-- The block of 95_test_vectors.md section 2.6, "`DQ5_0`, mixed". -/
def blockQ5_0 : List Nat :=
    hexBytes 22 0x0034A55A3CC31032547698BADCFE0123456789ABCDEF

theorem test_dq5_0 : outWords (step (decoding .dq5_0 32 1 blockQ5_0)) [3, 17, 30] =
    [some 0xC0200000#32, some 0xC0500000#32, some 0x40400000#32] := by decide +kernel

/-- The block of 95_test_vectors.md section 2.6, "`DQ5_1`, mixed". -/
def blockQ5_1 : List Nat :=
    hexBytes 24 0x003C00BCA55A3CC31032547698BADCFE0123456789ABCDEF

theorem test_dq5_1 : outWords (step (decoding .dq5_1 32 1 blockQ5_1)) [3, 17, 30] =
    [some 0x40A00000#32, some 0x40000000#32, some 0x41D80000#32] := by decide +kernel

/-- The block of 95_test_vectors.md section 2.6, "`DQ8_0`, signed bytes". -/
def blockQ8_0 : List Nat :=
    hexBytes 32 0x00380008101820283038404850586068707880889098A0A8B0B8C0C8D0D8E0E8 ++
    hexBytes 2 0xF0F8

theorem test_dq8_0 : outWords (step (decoding .dq8_0 32 1 blockQ8_0)) [3, 17, 30] =
    [some 0x41400000#32, some 0xC2700000#32, some 0xC1000000#32] := by decide +kernel

/-- The block of 95_test_vectors.md section 2.8, "`DQ2_K`, random". -/
def blockQ2_K : List Nat :=
    hexBytes 32 0x73DD8FDBECC7777382DA96302FCD8379A19DCB2F18724D241789CFE3B1A20A98 ++
    hexBytes 32 0xFB65F673A7BD9DA6289F03D487100F0930E13D9907C776537097D732843BA34B ++
    hexBytes 20 0x7F01A91575A74768FF8DFEEED715B54100380034

theorem test_dq2_K : outWords (step (decoding .dq2_K 256 1 blockQ2_K)) [5, 38, 77, 190] =
    [some 0x3FA00000#32, some 0x41A40000#32, some 0x41080000#32, some 0xBF400000#32] := by decide +kernel

/-- The block of 95_test_vectors.md section 2.8, "`DQ3_K`, random". -/
def blockQ3_K : List Nat :=
    hexBytes 32 0x49071190C41B661BD84A6211F504D8AF003635EDE90D7860FAB5656B1290A132 ++
    hexBytes 32 0xC7AC4556164F5503F668C2EC1E223FB419020F77CC7C2DAE8F30728230FCBBC4 ++
    hexBytes 32 0x216BA4621D656BFD360045DDF8F9CD974DFFE205352F64FEDA9AA493190AFD25 ++
    hexBytes 14 0x36714202C59C54D44B6212130034

theorem test_dq3_K : outWords (step (decoding .dq3_K 256 1 blockQ3_K)) [5, 38, 77, 190] =
    [some 0x41840000#32, some 0x3F000000#32, some 0x40200000#32, some 0xC1400000#32] := by decide +kernel

/-- The block of 95_test_vectors.md section 2.8, "`DQ4_K`, random, differences that round". -/
def blockQ4_K : List Nat :=
    hexBytes 32 0x552D662A995E5F9F7420F5967BD59322DD622EA0274FE83AD19C3FB93028BDA1 ++
    hexBytes 32 0xF08D32AFF363E17B9A146B0C1A1B0983F6413DBDB464416BD2E7987D4B852CED ++
    hexBytes 32 0xB8FA11203A7A8FA7DA9D9D124736EAEA34BF04114469723F0F0B2D485E8792F9 ++
    hexBytes 32 0x21175C23E473FB54A8BBB08595F2239708EC0479E95BB34FF6080599A2137B11 ++
    hexBytes 16 0xBB4F5122FF1213738B5EBC0BE6EFBCBC

theorem test_dq4_K : outWords (step (decoding .dq4_K 256 1 blockQ4_K)) [5, 38, 77, 190] =
    [some 0x41E524E0#32, some 0x42059140#32, some 0x41243A00#32, some 0x40365B00#32] := by decide +kernel

/-- The block of 95_test_vectors.md section 2.8, "`DQ5_K`, random". -/
def blockQ5_K : List Nat :=
    hexBytes 32 0x0030002CEA575A15AF79E613DFDB6AF1CA07DD7F92039FA9616195039B121417 ++
    hexBytes 32 0xA31DFE41E16ABA5463EFBCB194757076D68A1584C083074F99167B053AF5B21C ++
    hexBytes 32 0x7FC79DA8EB7C41E5025E4D24AD9C33842BC0E757A8EE717FE43D5367AA4032A2 ++
    hexBytes 32 0x6ECDCEC1EA33E136623895EB513522227F59D6E5D90AB610F3FA46D22B1C7378 ++
    hexBytes 32 0x46EC36D46961A0857EAC50B7D6D7FB9F735213D40847DF9B0AADB547925A4FA6 ++
    hexBytes 16 0xCA9004A42267743006C4D4443CC724CB

theorem test_dq5_K : outWords (step (decoding .dq5_K 256 1 blockQ5_K)) [5, 38, 77, 190] =
    [some 0x42C1A000#32, some 0x4229C000#32, some 0xC0180000#32, some 0x42CDA000#32] := by decide +kernel

/-- The block of 95_test_vectors.md section 2.8, "`DQ6_K`, random". -/
def blockQ6_K : List Nat :=
    hexBytes 32 0x0CFBA11D721BA189A7A3CE5EF513AF3233D279412DB602C17888B6092D3945C7 ++
    hexBytes 32 0x588AB2F285809DFFC12864D9CAB3E7391669EEE4B86321737432A0E3E801608C ++
    hexBytes 32 0x91A7E180CBD1F1577653A6FB3419B8DDD1CCA4ECB71F363EE663FB16FA4F89FA ++
    hexBytes 32 0xCAEE5243E8B7DB045981150970578C6BC4467CEB0737CFDE106DCC082C8855AF ++
    hexBytes 32 0xC9EA237826FF84E6B984D7ADB070F2E17E94F2B016C23870868F4AD4BA8FA32A ++
    hexBytes 32 0x8583D7E88F414FAB61F4D8DEE69C354DD924F78B8645927F3369891D80019A60 ++
    hexBytes 18 0x0789F80B84EA668BCDFD901F7D17B02A001C

theorem test_dq6_K : outWords (step (decoding .dq6_K 256 1 blockQ6_K)) [5, 38, 77, 190] =
    [some 0x3F3D0000#32, some 0x3DC00000#32, some 0xC103C000#32, some 0x3F1B0000#32] := by decide +kernel

/-- The block of 95_test_vectors.md section 2.9 (`Q8K_D_F32` true) whose products round: `d = 0x40490FDB`, `qs[e] = (37e + 11) mod 256`. -/
def blockQ8_K : List Nat := hexBytes 4 0xDB0F4940 ++ (List.range 256).map fun e => (37 * e + 11) % 256

theorem test_dq8_K : outWords (step (decoding .dq8_K 256 1 blockQ8_K)) [0, 1, 4, 7] =
    [some 0x420A3AE7#32, some 0x4316CBE4#32, some 0xC3985E04#32, some 0x422FEDE0#32] := by decide +kernel

/-- The layout with a half-precision scale: `d = 0x3800`, `qs[e] = e` as a byte, so element 128 is -64 (R202). -/
theorem test_dq8_K_half_scale : outWords (step { decoding .dq8_K 256 1 ([0x00, 0x38] ++ List.range 256) with
    params := Params.default false }) [1, 128] = [some 0x3F000000#32, some 0xC2800000#32] := by decide +kernel

/-! ### Errors: 95_test_vectors.md S3, sections 2.4 and 2.10 -/

theorem test_invalidLength : results (step (decoding .dq4_0 33 1 [])) = some (0x16#32, 0#32, 0#32) := by decide +kernel
theorem test_bufferRange : results (step { extracting (.gsm6 0#4) with src := 65525#32 }) =
    some (0x36#32, 0#32, 0#32) := by decide +kernel
theorem test_illegalCommand : results (step { busy0 .h2f with cmd := 0x00080008#32 }) =
    some (0x26#32, 0#32, 0#32) := by decide +kernel

/-! ### Host accesses -/

/-- A 32-bit write to `IBUF` is little-endian (R51). -/
theorem test_ibuf_write : (match step { idle0 with inputs := [.host (.writeIbuf .four 8 0xA1B2C3D4#32)] } with
    | .next t => t.ibuf
    | .fault _ => []
    | .refused _ => []) = [(8, 0xD4#8), (9, 0xC3#8), (10, 0xB2#8), (11, 0xA1#8)] := by decide +kernel

/-- A write of `CMD` while busy has no meaning (R257, R259). -/
theorem test_busy_cmd_write : (match step { busy0 .h2f with inputs := [.host (.writeReg 0 1#32)] } with
    | .next _ => false
    | .fault _ => false
    | .refused r => r == .commandWrittenWhileBusy) = true := by decide +kernel

/-- Program P1's last lines: `CVT.H2F 0xC000` answers -2.0. -/
theorem test_cvt_h2f : (match runMachine 6 { idle0 with inputs := scriptInputs 1 (scriptCvtH2f 0x0000C000#32) } with
    | .next t => t.replies
    | .fault _ => []
    | .refused _ => []) = [0xC0000000#32, 2#32, 1#32] := by decide +kernel

/-- A one-byte write stores the low byte, and a write of an `OBUF` cell the word (R28, R88). -/
theorem test_narrow_writes :
    (match step { idle0 with inputs := [.host (.writeIbuf .one 8 0xA1B2C3D4#32)] } with
      | .next t => t.ibuf
      | .fault _ => []
      | .refused _ => []) = [(8, 0xD4#8)] ∧
    outWords (step { idle0 with inputs := [.host (.writeObuf 3 0xA1B2C3D4#32)] }) [3, 4] = [some 0xA1B2C3D4#32, none] := by
  decide +kernel

/-- `XSM 5, 0` on the twelve bytes of section 2.4 answers the scale and the minimum. -/
theorem test_xsm : (match runMachine 7 { idle0 with
      ibuf := listed (hexBytes 12 0xC17EBF00E51A807F934CF00F), inputs := scriptInputs 1 (scriptXsm 5#4 0#32) } with
    | .next t => t.replies
    | .fault _ => []
    | .refused _ => []) = [4#32, 28#32, 2#32, 1#32] := by decide +kernel

/-! ### Witnesses: for every statement with hypotheses, states and operands that meet them -/

/-- A busy state whose `DQ4_0` exactly fills both buffers: 64 elements from the last 36 bytes to the last 64 cells. -/
def fits4_0 : State := { decoding .dq4_0 64 2 [] with src := 65500#32, dst := 16320#32 }

/-- One block of 256 elements of any super-block format, at offset 0. -/
def fits256 (i : Instr) : State := decoding i 256 1 []

/-- One block of 32 elements of any linear format, with the scale 1.0 in its first two bytes. -/
def fits32 (i : Instr) : State := decoding i 32 1 [0x00, 0x3C]

theorem witness_StepRunsTheDecodedCommand :
    (busy0 .h2f).resetPin = false ∧ (busy0 .h2f).phase = .busy ∧ decode (busy0 .h2f).cmd = .ok .h2f ∧
    (busy0 .h2f).inputs = [] ∧ ({ busy0 .h2f with inputs := [.dquTurn] } : State).inputs = .dquTurn :: [] ∧
    Instr.wellFormed (.gsm6 7#4) = true := by decide

theorem witness_CommandWriteLaunches :
    idle0.phase = .idle ∧ idle0.resetPin = false ∧
    ({ idle0 with inputs := [.host (.writeReg 0 0x00000030#32)] } : State).inputs =
      .host (.writeReg 0 0x00000030#32) :: [] := by decide

theorem witness_IllegalWordReportsIllegalCommand :
    (busy0 .h2f).resetPin = false ∧ (busy0 .h2f).phase = .busy ∧ (busy0 .h2f).inputs = [] ∧
    matchesTable ({ busy0 .h2f with cmd := 0x00080008#32 } : State).cmd = false ∧
    ({ busy0 .h2f with cmd := 0x00000030#32 } : State).cmd.extractLsb' 0 8 = 0x30#8 := by decide

theorem witness_LaunchedCommandCompletes :
    (busy0 .dq4_0).resetPin = false ∧ (busy0 .dq4_0).phase = .busy ∧ (busy0 .dq4_0).status = 0x00000001#32 ∧
    ({ busy0 .dq4_0 with inputs := List.replicate 3 (.host (.readReg 4)) ++ [.dquTurn] } : State).inputs =
      List.replicate 3 (.host (.readReg 4)) ++ [.dquTurn] := by decide

theorem witness_InvalidLengthExactlyOnCountMismatch :
    classOf .dq4_0 = .block .q4_0 ∧
    (decoding .dq4_0 64 1 []).nb.toNat * BlockFormat.q4_0.elems ≠ (decoding .dq4_0 64 1 []).k.toNat ∧
    (decoding .dq4_0 33 1 []).k.toNat % BlockFormat.q4_0.elems ≠ 0 ∧
    fits4_0.nb.toNat * BlockFormat.q4_0.elems = fits4_0.k.toNat := by decide

/-- One byte too far, one cell too far, and the exact fit; the extractors at 65525 and 65524. -/
theorem witness_BufferRangeExactlyWhenARangeDoesNotFit :
    (let f : State := { fits4_0 with src := 65501#32 }
     f.nb.toNat * 32 = f.k.toNat ∧ f.params.ibufBytes < f.src.toNat + f.nb.toNat * BlockFormat.q4_0.blockBytes f.params) ∧
    (let f : State := { fits4_0 with dst := 16321#32 }
     f.nb.toNat * 32 = f.k.toNat ∧ f.params.obufWords < f.dst.toNat + f.k.toNat) ∧
    decodeFits fits4_0 .q4_0 ∧
    classOf (.gsm6 7#4) = .extraction ∧ Instr.wellFormed (.gsm6 7#4) = true ∧
    p0.ibufBytes < ({ busy0 (.gsm6 7#4) with src := 65525#32 } : State).src.toNat + 12 ∧
    ({ busy0 (.gsm6 7#4) with src := 65524#32 } : State).src.toNat + 12 ≤ p0.ibufBytes := by decide

/-- Each of the three errors is met. -/
theorem witness_ErrorChangesStatusAndPhaseOnly :
    (∃ t, (decoding .dq4_0 33 1 []).completeCommand = .next t ∧ t.errFlag = 1#1) ∧
    (∃ t, ({ busy0 .h2f with cmd := 0#32 } : State).completeCommand = .next t ∧ t.errFlag = 1#1) ∧
    (∃ t, ({ fits4_0 with src := 65501#32 } : State).completeCommand = .next t ∧ t.errFlag = 1#1) :=
  ⟨⟨_, rfl, by decide⟩, ⟨_, rfl, by decide⟩, ⟨_, rfl, by decide⟩⟩

theorem witness_ZeroElementDecode :
    classOf .dq2_K = .block .q2_K ∧ (decoding .dq2_K 0 0 []).k = 0#32 ∧ (decoding .dq2_K 0 0 []).nb = 0#32 ∧
    (let f : State := { decoding .dq2_K 0 0 [] with src := 65536#32, dst := 16384#32 }
     f.src.toNat ≤ f.params.ibufBytes ∧ f.dst.toNat ≤ f.params.obufWords) ∧
    (let f : State := { decoding .dq2_K 0 0 [] with src := 65537#32 }
     f.params.ibufBytes < f.src.toNat) ∧
    (let f : State := { decoding .dq2_K 0 0 [] with dst := 16385#32 }
     f.params.obufWords < f.dst.toNat) ∧
    (decoding .dq2_K 0 1 []).k = 0#32 ∧ (decoding .dq2_K 0 1 []).nb ≠ 0#32 := by decide

/-- The largest finite half, an infinity, NaNs at both ends. -/
theorem witness_H2fCompletesWithTheExactValue :
    isFiniteH 0x7BFF#16 = true ∧ isInfH 0xFC00#16 = true ∧ isNaNH 0x7C01#16 = true ∧ isNaNH 0xFFFF#16 = true := by decide

theorem witness_H2fIsInjectiveOffNaN :
    isNaNH 0x8000#16 = false ∧ h2f p0 0x8000#16 = h2f p0 0x8000#16 := by decide

theorem witness_F2hCompletesRoundingToNearestEven :
    (isFinite 0x477FEFFF#32 = true ∧ |val32 0x477FEFFF#32| < 65520 ∧ isFiniteH 0x7BFF#16 = true) ∧
    (isFinite 0xC77FF000#32 = true ∧ 65520 ≤ |val32 0xC77FF000#32|) ∧ isInf 0x7F800000#32 = true ∧
    isNaN 0x7F800001#32 = true := by decide +kernel

theorem witness_F2hUndoesH2f : isNaNH 0xFBFF#16 = false ∧ isNaNH 0xFE01#16 = true := by decide

theorem witness_Gsm6CompletesWithScaleAndMinimum :
    (7#4).toNat ≤ 7 ∧ ({ busy0 (.gsm6 7#4) with src := 65524#32 } : State).src.toNat + 12 ≤ p0.ibufBytes ∧
    7 < (8#4).toNat := by decide

theorem witness_Sc3kCompletesWithTheBiasedScale :
    ({ busy0 (.sc3k 15#4) with src := 65524#32 } : State).src.toNat + 12 ≤
      (busy0 (.sc3k 15#4)).params.ibufBytes := by decide

theorem witness_PackedScalesLoseNoBit :
    (∀ j < 8, gsmScale (fun o => BitVec.ofNat 8 (17 * o)) j = gsmScale (fun o => BitVec.ofNat 8 (17 * (o % 12))) j ∧
      gsmMin (fun o => BitVec.ofNat 8 (17 * o)) j = gsmMin (fun o => BitVec.ofNat 8 (17 * (o % 12))) j) ∧
    ∀ t < 16, sc3 (fun o => BitVec.ofNat 8 (17 * o)) t = sc3 (fun o => BitVec.ofNat 8 (17 * (o % 12))) t := by
  decide +kernel

theorem witness_IntegerPatternsAreExact :
    |(16777216 : Int)| ≤ 2 ^ 24 ∧ |(-16777216 : Int)| ≤ 2 ^ 24 ∧ |(0 : Int)| ≤ 2 ^ 24 := by decide

/-- Finite operands whose sum is not zero, zero sums with and without two `-0`, a zero difference, infinities on either
side and on both. -/
theorem witness_ArithmeticIsCorrectlyRounded :
    (isFinite 0x7F7FFFFF#32 = true ∧ isFinite 0x80000001#32 = true ∧ val32 0x7F7FFFFF#32 + val32 0x80000001#32 ≠ 0 ∧
      val32 0x7F7FFFFF#32 - val32 0x80000001#32 ≠ 0) ∧
    val32 0x80000000#32 + val32 0x80000000#32 = 0 ∧ val32 0x3F800000#32 + val32 0xBF800000#32 = 0 ∧
    val32 0x80000000#32 - val32 0x00000000#32 = 0 ∧
    (isNaN 0xFF800000#32 = false ∧ isNaN 0x80000001#32 = false ∧ isInf 0xFF800000#32 = true ∧ isInf 0x80000001#32 = false ∧
      isZero 0xFF800000#32 = false ∧ isZero 0x80000001#32 = false ∧ isInf 0x7F800000#32 = true) := by decide +kernel

theorem witness_OnlyTheNamedCasesGiveNaNAndItIsCanonical :
    p0.wf ∧ isNaN (fmul p0 0x00000000#32 0x7F800000#32) = true ∧ isNaN (fadd p0 0x7F800000#32 0xFF800000#32) = true ∧
    isNaN (fsub p0 0x7F800000#32 0x7F800000#32) = true := by decide +kernel

theorem witness_HalfScaleProductsAreExact :
    isFiniteH 0x7BFF#16 = true ∧ 1 ≤ |(8191 : Int) * -1| ∧ |(8191 : Int) * -1| < 2 ^ 13 := by decide

theorem witness_SpecialScalesPropagate :
    |(-128 : Int)| ≤ 128 ∧ |(0 : Int)| ≤ 128 ∧ |(128 : Int)| ≤ 128 ∧ isInfH 0x7C00#16 = true ∧ isNaNH 0x7C01#16 = true ∧
    expH 0x8000#16 = 0 ∧ fracH 0x8000#16 = 0 ∧ p0.wf := by decide

theorem witness_ScaleProductsAssociate :
    p0.wf ∧ |(-128 : Int)| ≤ 128 ∧ |(63 : Int)| ≤ 128 ∧ |(-128 : Int) * 63| < 2 ^ 13 := by decide

theorem witness_BlockDecoderPlacesEveryElement :
    classOf .dq4_0 = .block .q4_0 ∧ decodeFits fits4_0 .q4_0 ∧ 1 < fits4_0.nb.toNat ∧ 31 < BlockFormat.q4_0.elems ∧
    16319 < fits4_0.dst.toNat := by decide

theorem witness_LinearDecodersWithoutMinimum :
    0 < (fits32 .dq4_0).nb.toNat ∧ 31 < 32 ∧
    decodeFits (fits32 .dq4_0) .q4_0 ∧ isFiniteH (blockHalf (fits32 .dq4_0) .q4_0 0 0) = true ∧
    decodeFits (fits32 .dq5_0) .q5_0 ∧ isFiniteH (blockHalf (fits32 .dq5_0) .q5_0 0 0) = true ∧
    decodeFits (fits32 .dq8_0) .q8_0 ∧ isFiniteH (blockHalf (fits32 .dq8_0) .q8_0 0 0) = true := by decide

theorem witness_LinearDecodersWithMinimum :
    0 < (fits32 .dq4_1).nb.toNat ∧
    decodeFits (fits32 .dq4_1) .q4_1 ∧ isFiniteH (blockHalf (fits32 .dq4_1) .q4_1 0 0) = true ∧
    decodeFits (fits32 .dq5_1) .q5_1 ∧ isFiniteH (blockHalf (fits32 .dq5_1) .q5_1 0 0) = true := by decide

theorem witness_SuperBlockDecodersWithMinimum :
    0 < (fits256 .dq2_K).nb.toNat ∧
    decodeFits (decoding .dq2_K 256 1 blockQ2_K) .q2_K ∧
    isFiniteH (blockHalf (decoding .dq2_K 256 1 blockQ2_K) .q2_K 0 80) = true ∧
    isFiniteH (blockHalf (decoding .dq2_K 256 1 blockQ2_K) .q2_K 0 82) = true ∧
    decodeFits (decoding .dq4_K 256 1 blockQ4_K) .q4_K ∧
    isFiniteH (blockHalf (decoding .dq4_K 256 1 blockQ4_K) .q4_K 0 0) = true ∧
    isFiniteH (blockHalf (decoding .dq4_K 256 1 blockQ4_K) .q4_K 0 2) = true ∧
    decodeFits (decoding .dq5_K 256 1 blockQ5_K) .q5_K ∧
    isFiniteH (blockHalf (decoding .dq5_K 256 1 blockQ5_K) .q5_K 0 0) = true ∧
    isFiniteH (blockHalf (decoding .dq5_K 256 1 blockQ5_K) .q5_K 0 2) = true := by decide +kernel

theorem witness_SuperBlockDecodersWithoutMinimum :
    0 < (fits256 .dq3_K).nb.toNat ∧ decodeFits (decoding .dq3_K 256 1 blockQ3_K) .q3_K ∧
    isFiniteH (blockHalf (decoding .dq3_K 256 1 blockQ3_K) .q3_K 0 108) = true ∧
    decodeFits (decoding .dq6_K 256 1 blockQ6_K) .q6_K ∧
    isFiniteH (blockHalf (decoding .dq6_K 256 1 blockQ6_K) .q6_K 0 208) = true := by decide +kernel

theorem witness_Dq8KInBothLayouts :
    0 < (fits256 .dq8_K).nb.toNat ∧ 255 < 256 ∧ decodeFits (fits256 .dq8_K) .q8_K ∧
    (fits256 .dq8_K).params.q8kDF32 = true ∧
    (let f : State := { decoding .dq8_K 256 1 [0x00, 0x38] with params := Params.default false }
     decodeFits f .q8_K ∧ f.params.q8kDF32 = false ∧ isFiniteH (blockHalf f .q8_K 0 0) = true) := by decide

theorem witness_RepeatingACommandChangesNothing :
    cellsWf fits4_0.obuf ∧ ∃ t, exec .dq4_0 fits4_0 = .next t ∧ t.obuf ≠ [] :=
  ⟨by decide, _, rfl, by decide +kernel⟩

/-- A block decoder that succeeds, a conversion and an extraction. -/
theorem witness_CommandWritesItsResultsOnly :
    (∃ t, exec .dq4_0 fits4_0 = .next t ∧ classOf .dq4_0 = .block .q4_0 ∧ t.obuf ≠ []) ∧
    (∃ t, exec .h2f (busy0 .h2f) = .next t ∧ classOf .h2f = .conversion) ∧
    (∃ t, exec (.sc3k 3#4) (busy0 (.sc3k 3#4)) = .next t ∧ ∀ f, classOf (.sc3k 3#4) ≠ .block f) :=
  ⟨⟨_, rfl, rfl, by decide +kernel⟩, ⟨_, rfl, rfl⟩, ⟨_, rfl, fun _ => by simp [classOf]⟩⟩

/-- Two states that differ in a register the decoder ignores, in a result register, in an output cell and in the byte
after those the command reads. -/
theorem witness_CommandDependsOnItsOperandsOnly :
    SameOperands (fits32 .dq4_0) { fits32 .dq4_0 with
      opa := 8#32, res0 := 5#32, obuf := [(3, 9#32)], ibuf := [(0, 0#8), (1, 0x3C#8), (18, 1#8)] } := by
  refine ⟨rfl, rfl, fun h => absurd h (by decide), fun _ _ => rfl, fun _ _ => ⟨rfl, rfl, rfl⟩, fun a h => ?_⟩
  have ha : a < 18 := by
    rcases Nat.lt_or_ge a 18 with ha | ha
    · exact ha
    · have hl : (fits32 .dq4_0).readLength = 18 := by decide
      have hs : (fits32 .dq4_0).src.toNat = 0 := by decide
      simp only [State.readsIbuf, hl, hs, Bool.and_eq_true, decide_eq_true_eq] at h
      omega
  have h18 : a ≠ 18 := by omega
  have e1 : (fits32 .dq4_0).ibuf = [(0, 0#8), (1, 0x3C#8)] := by decide
  have e2 : (fits32 .dq4_0).epoch = 0 := rfl
  simp [State.ibufByte, e1, e2, cellAt, h18]

/-- The invariant holds of a decoder in flight. -/
theorem fits4_0_inv : Inv fits4_0 :=
  ⟨by decide, by decide, by decide, by decide, by decide, by decide, by decide⟩

/-- A write just below the bytes the decoder reads, a read of the cell just below those it writes, a read of `RES0`
while a block decoder runs, and one of a reserved offset. -/
theorem witness_PermittedAccessCommutesWithCompletion :
    Inv fits4_0 ∧ fits4_0.phase = .busy ∧ fits4_0.resetPin = false ∧
    hostPermitted fits4_0 (.writeIbuf .four 65496 0xFFFFFFFF#32) ∧ hostPermitted fits4_0 (.readObuf 16319) ∧
    hostPermitted fits4_0 (.writeObuf 16319 1#32) ∧ hostPermitted fits4_0 (.readReg 0x1C) ∧
    hostPermitted fits4_0 (.readReg 0xFF) ∧ HostAccess.readReg 0x1C ≠ .readReg 4 :=
  ⟨fits4_0_inv, by decide⟩

/-- Each clause at its boundary: the last and the first byte read, the first cell written and the one below. -/
theorem witness_ForbiddenAccessesAreRefused :
    fits4_0.phase = .busy ∧ fits4_0.resetPin = false ∧
    HostAccess.fault fits4_0.params (.writeIbuf .one 65535 0#32) = none ∧
    forbiddenWhileBusy fits4_0 (.writeIbuf .one 65535 0#32) ∧ forbiddenWhileBusy fits4_0 (.writeIbuf .four 65497 0#32) ∧
    forbiddenWhileBusy fits4_0 (.readObuf 16320) ∧ forbiddenWhileBusy fits4_0 (.writeReg 0 0#32) ∧
    forbiddenWhileBusy (busy0 .h2f) (.readReg 0x1C) ∧ ¬ forbiddenWhileBusy (busy0 .h2f) (.readReg 0x18) ∧
    ¬ forbiddenWhileBusy fits4_0 (.readIbuf .one 65535) := by
  have hd : decode fits4_0.cmd = .ok .dq4_0 := by decide
  have hr : ∀ c, 65500 ≤ c → c < 65536 → readByCommand fits4_0 c := fun c h1 h2 =>
    ⟨.dq4_0, hd, h1, .inl ⟨.q4_0, rfl, h2⟩⟩
  refine ⟨rfl, rfl, by decide, ⟨65535, by decide, by decide, hr _ (by decide) (by decide)⟩,
    ⟨65500, by decide, by decide, hr _ (by decide) (by decide)⟩, ⟨.dq4_0, .q4_0, hd, rfl, by decide, by decide⟩, .inl rfl,
    ⟨.inl rfl, .h2f, by decide, fun _ => by simp [classOf]⟩, fun h => ?_, fun h => h⟩
  rcases h.1 with h | h <;> exact absurd h (by decide)

/-- What `AccessOutsideTheSpacesFaults` calls outside, and inside, at each boundary. -/
theorem witness_AccessOutsideTheSpacesFaults :
    idle0.resetPin = false ∧ idle0.phase = .idle ∧ 0x100 ≤ 0x100 ∧ ¬ (0x100 ≤ 0xFF ∨ (0xFF < 0x24 ∧ 0xFF % 4 ≠ 0)) ∧
    (0x23 < 0x24 ∧ 0x23 % 4 ≠ 0) ∧ p0.ibufBytes < 65533 + Width.four.bytes ∧ ¬ p0.ibufBytes < 65532 + Width.four.bytes ∧
    p0.obufWords ≤ 16384 ∧ ¬ p0.obufWords ≤ 16383 := by decide

theorem witness_ReadOnlyAndReservedOffsets :
    (let s : State := { idle0 with inputs := [.host (.writeReg 0x1C 5#32)] }
     s.inputs = .host (.writeReg 0x1C 5#32) :: [] ∧ s.phase = .idle) ∧
    (let s : State := { busy0 .h2f with inputs := [.host (.writeReg 0x04 5#32)] }
     s.inputs = .host (.writeReg 0x04 5#32) :: []) ∧
    (let s : State := { busy0 .h2f with inputs := [.host (.writeReg 0xFF 5#32)] }
     s.inputs = .host (.writeReg 0xFF 5#32) :: [] ∧ 0x24 ≤ 0xFF ∧ 0xFF < 0x100) ∧
    (let s : State := { busy0 .h2f with inputs := [.host (.readReg 0x24)] }
     s.inputs = .host (.readReg 0x24) :: [] ∧ s.resetPin = false ∧ 0x24 ≤ 0x24) := by decide

theorem witness_HostReadsAnswerAndChangeNothing :
    idle0.resetPin = false ∧ idle0.phase = .idle ∧ 65532 + 4 ≤ p0.ibufBytes ∧ 65535 + 1 ≤ p0.ibufBytes ∧
    65534 + 2 ≤ p0.ibufBytes ∧ 16383 < p0.obufWords ∧
    ({ idle0 with inputs := [.host (.readReg Reg.res1.offset)] } : State).inputs = .host (.readReg Reg.res1.offset) :: [] := by
  decide

theorem witness_WideHostWriteIsLittleEndian :
    (let s : State := { idle0 with inputs := [.host (.writeIbuf .four 65532 0x12345678#32)] }
     s.resetPin = false ∧ s.phase = .idle ∧ 65532 + 4 ≤ s.params.ibufBytes ∧
     s.inputs = .host (.writeIbuf .four 65532 0x12345678#32) :: []) := by decide

/-- The last byte, two bytes and cell while idle, and the ones just outside a decoder's ranges while it runs. -/
theorem witness_NarrowAndOutputHostWritesStore :
    idle0.resetPin = false ∧ hostPermitted idle0 (.writeIbuf .one 65535 0xABCD#32) ∧
    hostPermitted idle0 (.writeIbuf .two 65534 0xABCD#32) ∧ hostPermitted idle0 (.writeObuf 16383 1#32) ∧
    fits4_0.resetPin = false ∧ fits4_0.phase = .busy ∧ hostPermitted fits4_0 (.writeIbuf .one 65499 0xABCD#32) ∧
    hostPermitted fits4_0 (.writeIbuf .two 65498 0xABCD#32) ∧ hostPermitted fits4_0 (.writeObuf 16319 1#32) ∧
    ({ fits4_0 with inputs := [.host (.writeObuf 16319 1#32)] } : State).inputs = .host (.writeObuf 16319 1#32) :: [] := by
  decide

theorem witness_ArgumentRegistersHoldWhatIsWritten :
    idle0.resetPin = false ∧ idle0.phase = .idle ∧
    ({ idle0 with inputs := [.host (.writeReg 0x18 7#32)] } : State).inputs = .host (.writeReg 0x18 7#32) :: [] := by decide

/-- A write next to the cell, in each buffer. -/
theorem witness_CellsKeepTheirValueUntilWritten :
    (∃ t, step { idle0 with inputs := [.host (.writeIbuf .four 8 1#32)] } = .next t) ∧
    (∀ w a v rest, ([.host (.writeIbuf .four 8 1#32)] : List Input) = .host (.writeIbuf w a v) :: rest →
      12 < a ∨ a + w.bytes ≤ 12) ∧
    (∃ t, step { idle0 with inputs := [.host (.writeObuf 8 1#32)] } = .next t) ∧
    (∀ v rest, ([.host (.writeObuf 8 1#32)] : List Input) ≠ .host (.writeObuf 7 v) :: rest) :=
  ⟨⟨_, rfl⟩, by rintro w a v rest ⟨⟩; decide, ⟨_, rfl⟩, by rintro v rest ⟨⟩⟩

theorem witness_ReleaseOfResetGivesTheResetState :
    (let s : State := { busy0 .dq4_0 with resetPin := true, inputs := [.releaseReset] }
     s.resetPin = true ∧ s.inputs = .releaseReset :: []) := by decide

theorem witness_AssertedResetIgnoresHostAndCommand :
    (let s : State := { busy0 .dq4_0 with resetPin := true, inputs := [.host (.writeReg 0x100 0#32)] }
     s.resetPin = true ∧ s.inputs = .host (.writeReg 0x100 0#32) :: []) ∧
    (let s : State := { busy0 .dq4_0 with resetPin := true, inputs := [.dquTurn] }
     s.resetPin = true ∧ s.inputs = .dquTurn :: []) ∧
    (let s : State := { busy0 .dq4_0 with resetPin := true }
     s.resetPin = true ∧ s.inputs = []) := by decide

theorem witness_AssertingResetChangesThePinAlone :
    ({ fits4_0 with inputs := [.assertReset] } : State).inputs = .assertReset :: [] ∧
    ({ fits4_0 with inputs := [.releaseReset] } : State).inputs = .releaseReset :: [] ∧ fits4_0.resetPin = false := by decide

theorem witness_EveryStepKeepsTheInvariant : Inv fits4_0 ∧ ∃ t, step fits4_0 = .next t ∧ t.obuf ≠ [] :=
  ⟨fits4_0_inv, _, rfl, by decide +kernel⟩

/-- The invariant holds with an error reported and with a command in flight. -/
theorem witness_StatusFieldsAreConsistent :
    (Inv { idle0 with status := 0x36#32 } ∧ ({ idle0 with status := 0x36#32 } : State).errFlag = 1#1) ∧
    (Inv fits4_0 ∧ fits4_0.errFlag = 0#1 ∧ fits4_0.busyFlag = 1#1) :=
  ⟨⟨⟨by decide, by decide, by decide, by decide, by decide, by decide, by decide⟩, by decide⟩,
    fits4_0_inv, by decide⟩

theorem witness_ConversionScriptsAnswer : idle0.phase = .idle ∧ idle0.resetPin = false := by decide

theorem witness_ExtractionScriptsAnswer :
    idle0.phase = .idle ∧ idle0.resetPin = false ∧ Instr.wellFormed (.gsm6 7#4) = true := by decide

theorem witness_DecodeScriptRunsTheCommand :
    idle0.phase = .idle ∧ idle0.resetPin = false ∧ classOf .dq8_K = .block .q8_K := by decide

end Sys2Proof.Tests
end

section
/-! PROOFS. What the step does with a permitted host access, how the bytes of an access make a word, and what O51, O39
and O44 need of them. -/

namespace Sys2Proof.Machine

/-! ### Which accesses are permitted -/

/-- No hazard depends on the inputs to come (R257, R258). -/
theorem hazard_withInputs (s : State) (rest : List Input) (a : HostAccess) :
    State.hazard { s with inputs := rest } a = s.hazard a := rfl

/-- While idle R257 and R258 forbid nothing, so an access to what exists is permitted. -/
theorem hostPermitted_of_idle {s : State} {a : HostAccess} (hph : s.phase = .idle) (hf : a.fault s.params = none) :
    hostPermitted s a :=
  ⟨hf, fun hb => by simp [hph] at hb⟩

theorem fault_readReg_offset (p : Params) (r : Reg) : HostAccess.fault p (.readReg r.offset) = none := by
  simp [HostAccess.fault, regTarget_offset]

theorem fault_readIbuf_eq_none {p : Params} {w : Width} {a : Nat} (h : a + w.bytes ≤ p.ibufBytes) :
    HostAccess.fault p (.readIbuf w a) = none := by
  simp [HostAccess.fault, h]

theorem fault_readObuf_eq_none {p : Params} {i : Nat} (h : i < p.obufWords) :
    HostAccess.fault p (.readObuf i) = none := by
  simp [HostAccess.fault, h]

/-! ### The step of a permitted access -/

/-- A permitted access has its effect: of the four cases of an access, reset, fault and refusal are excluded. -/
theorem step_of_hostPermitted {s : State} {a : HostAccess} {rest : List Input} (hr : s.resetPin = false)
    (hp : hostPermitted s a) (hi : s.inputs = .host a :: rest) :
    step s = .next (State.accessEffect { s with inputs := rest } a) := by
  obtain ⟨hf, hz⟩ := hp
  have hstep : step s = State.hostAccess { s with inputs := rest } a := by simp only [step, hi, State.act]
  rw [hstep]
  rcases hostAccess_cases { s with inputs := rest } a with
    ⟨hr', -⟩ | ⟨-, f, hf', -⟩ | ⟨-, -, hb, r, hz', -⟩ | ⟨-, -, -, h⟩
  · simp [hr] at hr'
  · simp [hf] at hf'
  · rw [hazard_withInputs, hz hb] at hz'
    simp at hz'
  · exact h

/-! ### Bytes and words -/

/-- One more byte below those of `x` (R13: the least significant byte comes first). -/
theorem memRead_succ_eq_append {b : Nat → Byte} {a n w : Nat} {x : BitVec w} (h : memRead b (a + 1) n = x.toNat) :
    memRead b a (n + 1) = (x ++ b a).toNat := by
  rw [memRead, h, BitVec.toNat_append, ← Nat.shiftLeft_add_eq_or_of_lt (b a).isLt, Nat.shiftLeft_eq, Nat.add_comm,
    Nat.mul_comm]

theorem memRead_one (b : Nat → Byte) (a : Nat) : memRead b a 1 = (b a).toNat := by simp [memRead]

theorem memRead_two (b : Nat → Byte) (a : Nat) : memRead b a 2 = (b (a + 1) ++ b a).toNat :=
  memRead_succ_eq_append (memRead_one b (a + 1))

theorem memRead_four (b : Nat → Byte) (a : Nat) :
    memRead b a 4 = (b (a + 3) ++ b (a + 2) ++ b (a + 1) ++ b a).toNat :=
  memRead_succ_eq_append (memRead_succ_eq_append (memRead_two b (a + 2)))

/-- Byte `k` of a word, by shifting it down or by taking it in place (R51). -/
theorem extractByte_shiftRight (v : Word) (k : Nat) : (v >>> k).extractLsb' 0 8 = v.extractLsb' k 8 := by
  ext i
  simp

/-! ### Host reads while idle -/

/-- A permitted read of `IBUF` answers the bytes as one number and changes nothing else (R13, R54). -/
theorem step_readIbuf {s : State} {w : Width} {a : Nat} {rest : List Input} (hr : s.resetPin = false)
    (hp : hostPermitted s (.readIbuf w a)) (hi : s.inputs = .host (.readIbuf w a) :: rest) :
    step s = .next { s with
      inputs := rest, replies := BitVec.ofNat 32 (memRead s.ibufByte a w.bytes) :: s.replies } :=
  step_of_hostPermitted hr hp hi

/-- A permitted read of a register answers its value and changes nothing else (R12, R54). -/
theorem step_readReg {s : State} {r : Reg} {rest : List Input} (hr : s.resetPin = false)
    (hp : hostPermitted s (.readReg r.offset)) (hi : s.inputs = .host (.readReg r.offset) :: rest) :
    step s = .next { s with inputs := rest, replies := s.readReg r :: s.replies } := by
  rw [step_of_hostPermitted hr hp hi]
  simp only [State.accessEffect, regTarget_offset]
  cases r <;> rfl

/-- A permitted read of `OBUF` answers the cell and changes nothing else (R54). -/
theorem step_readObuf {s : State} {i : Nat} {rest : List Input} (hr : s.resetPin = false)
    (hp : hostPermitted s (.readObuf i)) (hi : s.inputs = .host (.readObuf i) :: rest) :
    step s = .next { s with inputs := rest, replies := s.obufWord i :: s.replies } :=
  step_of_hostPermitted hr hp hi

/-! ### Host writes of the buffers -/

/-- A permitted write of `IBUF` of any width: byte `k` of the value at cell `a + k`, every other cell and everything
else as it was (R51). -/
theorem step_writeIbuf {s : State} {w : Width} {a : Nat} {v : Word} {rest : List Input} (hr : s.resetPin = false)
    (hp : hostPermitted s (.writeIbuf w a v)) (hi : s.inputs = .host (.writeIbuf w a v) :: rest) :
    ∃ t, step s = .next t ∧ t = { s with inputs := rest, ibuf := t.ibuf } ∧
      (∀ k < w.bytes, t.ibufByte (a + k) = v.extractLsb' (8 * k) 8) ∧
      ∀ c, c < a ∨ a + w.bytes ≤ c → t.ibufByte c = s.ibufByte c := by
  refine ⟨_, step_of_hostPermitted hr hp hi, setIbufBytes_frame _ a v w.bytes, fun k hk => ?_, fun c hc => ?_⟩
  · rw [State.accessEffect, setIbufBytes_ibufByte, if_pos (by omega), Nat.add_sub_cancel_left, extractByte_shiftRight]
  · rw [State.accessEffect, setIbufBytes_ibufByte, if_neg (by omega)]
    rfl

/-- A permitted write of an `OBUF` cell: that cell holds the word, every other cell and everything else as it was. -/
theorem step_writeObuf {s : State} {i : Nat} {v : Word} {rest : List Input} (hr : s.resetPin = false)
    (hp : hostPermitted s (.writeObuf i v)) (hi : s.inputs = .host (.writeObuf i v) :: rest) :
    ∃ t, step s = .next t ∧ t = { s with inputs := rest, obuf := t.obuf } ∧
      t.obufWord i = v ∧ ∀ c, c ≠ i → t.obufWord c = s.obufWord c := by
  refine ⟨_, step_of_hostPermitted hr hp hi, rfl, ?_, fun c hc => ?_⟩
  · rw [State.accessEffect, setObufWord_obufWord, if_pos rfl]
  · rw [State.accessEffect, setObufWord_obufWord, if_neg hc]
    rfl

/-! ### The parameters after reset -/

/-- The defaults of R8 are in their bounds, whatever `Q8K_D_F32` is. -/
theorem params_default_wf (q : Bool) : (Params.default q).wf := by
  cases q <;> decide

/-! ### The obligations -/

/-- Settles O51: the two narrow writes are the cases `one` and `two` of a write of any width. -/
theorem narrowAndOutputHostWritesStore : Obligations.NarrowAndOutputHostWritesStore := by
  intro s a v rest hr
  refine ⟨fun hp hi => ?_, fun hp hi => ?_, step_writeObuf hr⟩
  · obtain ⟨t, hstep, hframe, hbytes, hother⟩ := step_writeIbuf hr hp hi
    exact ⟨t, hstep, hframe, hbytes 0 (by decide), fun c hc => hother c (by simp only [Width.bytes]; omega)⟩
  · obtain ⟨t, hstep, hframe, hbytes, hother⟩ := step_writeIbuf hr hp hi
    exact ⟨t, hstep, hframe, hbytes 0 (by decide), hbytes 1 (by decide), hother⟩

/-- Settles O39: while idle each of these reads is permitted, and the bytes it answers are read off as one word. -/
theorem hostReadsAnswerAndChangeNothing : Obligations.HostReadsAnswerAndChangeNothing := by
  intro s rest hr hph
  refine ⟨fun r hi => ?_, fun a ha hi => ?_, fun a ha hi => ?_, fun a ha hi => ?_, fun i hlt hi => ?_⟩
  · exact step_readReg hr (hostPermitted_of_idle hph (fault_readReg_offset _ r)) hi
  · rw [step_readIbuf hr (hostPermitted_of_idle hph (fault_readIbuf_eq_none ha)) hi, Width.bytes, memRead_four,
      BitVec.ofNat_toNat, BitVec.setWidth_eq]
  · rw [step_readIbuf hr (hostPermitted_of_idle hph (fault_readIbuf_eq_none ha)) hi, Width.bytes, memRead_one,
      BitVec.ofNat_toNat]
  · rw [step_readIbuf hr (hostPermitted_of_idle hph (fault_readIbuf_eq_none ha)) hi, Width.bytes, memRead_two,
      BitVec.ofNat_toNat]
  · exact step_readObuf hr (hostPermitted_of_idle hph (fault_readObuf_eq_none hlt)) hi

/-- Settles O44: the buffers are empty, `STATUS` is zero and the unit is idle. -/
theorem invariantHoldsAfterReset : Obligations.InvariantHoldsAfterReset := by
  obtain ⟨hibuf, hobuf, hibufIn, hobufIn⟩ := reset_cells
  exact {
    params := params_default_wf Config.q8kDF32
    ibufWf := hibuf
    ibufWithin := hibufIn _
    obufWf := hobuf
    obufWithin := hobufIn _
    status := .inl rfl
    phase := by decide }

end Sys2Proof.Machine
end

section
/-! PROOFS. What a command of each class does, once for the class, and everything a command can do; what O8 and O33
need of it. -/

namespace Sys2Proof.Machine

/-! ### The three classes (R82) -/

/-- A conversion completes with one result, a function of the parameters and `OPA` (R113, R119, R123). -/
theorem exec_conversion {i : Instr} (h : classOf i = .conversion) :
    ∃ val : Params → Word → Word, ∀ s, exec i s = .next (s.completeScalar (val s.params s.opa)) := by
  cases i <;> simp only [classOf, reduceCtorEq] at h
  case h2f => exact ⟨fun p w => h2f p (w.extractLsb' 0 16), fun _ => rfl⟩
  case f2h => exact ⟨fun p w => (f2h p w).setWidth 32, fun _ => rfl⟩
  case e8m0h => exact ⟨fun _ w => e8m0h (w.extractLsb' 0 8), fun _ => rfl⟩

/-- The scale of R180 stands in the twelve bytes of the array. -/
theorem gsmScale_congr {b c : Nat → Byte} {j : Nat} (h : ∀ o < 12, b o = c o) (hj : j < 8) :
    gsmScale b j = gsmScale c j := by
  simp only [gsmScale, h j (by omega), h (j + 4) (by omega), h (j - 4) (by omega)]

/-- The minimum of R180 stands in the twelve bytes of the array. -/
theorem gsmMin_congr {b c : Nat → Byte} {j : Nat} (h : ∀ o < 12, b o = c o) (hj : j < 8) :
    gsmMin b j = gsmMin c j := by
  simp only [gsmMin, h j (by omega), h (j + 4) (by omega)]

/-- The scale code of R184 stands in the twelve bytes of the array, whatever the sub-block. -/
theorem sc3_congr {b c : Nat → Byte} (t : Nat) (h : ∀ o < 12, b o = c o) : sc3 b t = sc3 c t := by
  simp only [sc3, h (t % 4) (by omega), h (4 + t % 4) (by omega), h (8 + t % 4) (by omega)]

/-- An extractor rejects its immediate on every state or on none; then both results are functions of the twelve bytes
from `SRC` on (R181, R185). -/
theorem exec_extraction {i : Instr} (h : classOf i = .extraction) :
    (∀ s, exec i s = .next (s.raiseError .illegalCommand)) ∨
    ∃ v0 v1 : (Nat → Byte) → Word,
      (∀ b c, (∀ o < 12, b o = c o) → v0 b = v0 c ∧ v1 b = v1 c) ∧
      ∀ s, exec i s = .next (s.extractScale (v0 (s.bytesAt 0)) (v1 (s.bytesAt 0))) := by
  cases i <;> simp only [classOf, reduceCtorEq] at h
  case gsm6 j =>
    by_cases hj : 7 < j.toNat
    · exact .inl fun s => by simp only [exec, execGsm6, if_pos hj]
    · refine .inr ⟨fun b => BitVec.ofNat 32 (gsmScale b j.toNat), fun b => BitVec.ofNat 32 (gsmMin b j.toNat),
        fun b c hbc => ?_, fun s => by simp only [exec, execGsm6, if_neg hj]⟩
      have hj' : j.toNat < 8 := by omega
      simp only [gsmScale_congr hbc hj', gsmMin_congr hbc hj', and_self]
  case sc3k j =>
    refine .inr ⟨fun b => BitVec.ofInt 32 ((sc3 b j.toNat : Int) - 32), fun b => BitVec.ofNat 32 (sc3 b j.toNat),
      fun b c hbc => ?_, fun _ => rfl⟩
    simp only [sc3_congr _ hbc, and_self]

/-- A block decoder is the common procedure with its format's element function (R161). -/
theorem exec_block_elemOf {i : Instr} {f : BlockFormat} (h : classOf i = .block f) (s : State) :
    exec i s = .next (s.decodeBlocks f (elemOf s.params f)) := by
  cases i <;> simp only [classOf, reduceCtorEq, CmdClass.block.injEq] at h
  all_goals subst h; rfl

/-! ### Everything a command can do -/

/-- What `OBUF` holds after a completion is what the command wrote (R33). -/
@[simp] theorem complete_obufWord (s : State) (c : Nat) : s.complete.obufWord c = s.obufWord c :=
  obufWord_congr rfl rfl c

/-- A command reports an error, or it succeeds as its class does: the outputs of a decode whose arguments are in order,
one result of a conversion, two of an extraction. -/
theorem exec_cases (i : Instr) (s : State) :
    (∃ e, exec i s = .next (s.raiseError e)) ∨
    (∃ f v, classOf i = .block f ∧ decodeFits s f ∧
      exec i s = .next (s.setObufRange s.dst.toNat s.k.toNat v).complete) ∨
    (∃ v, classOf i = .conversion ∧ exec i s = .next (s.completeScalar v)) ∨
    (∃ v0 v1, classOf i = .extraction ∧ exec i s = .next (s.completeScalar2 v0 v1)) := by
  cases h : classOf i with
  | conversion =>
    obtain ⟨val, hval⟩ := exec_conversion h
    exact .inr (.inr (.inl ⟨_, rfl, hval s⟩))
  | extraction =>
    rcases exec_extraction h with hill | ⟨v0, v1, -, hv⟩
    · exact .inl ⟨_, hill s⟩
    · rw [hv]
      rcases extractScale_cases s (v0 (s.bytesAt 0)) (v1 (s.bytesAt 0)) with ⟨-, he⟩ | ⟨-, he⟩
      · exact .inl ⟨_, by rw [he]⟩
      · exact .inr (.inr (.inr ⟨_, _, rfl, by rw [he]⟩))
  | block f =>
    rw [exec_block_elemOf h]
    rcases decodeBlocks_cases s f (elemOf s.params f) with ⟨-, he⟩ | ⟨-, -, he⟩ | ⟨hk, hi, ho, he⟩
    · exact .inl ⟨_, by rw [he]⟩
    · exact .inl ⟨_, by rw [he]⟩
    · exact .inr (.inl ⟨f, _, rfl, ⟨hk, hi, ho⟩, by rw [he]⟩)

/-- Every command answers a next state, whose `STATUS` is that of a success or of an error (R33, R225). -/
theorem exec_ends (i : Instr) (s : State) :
    ∃ t, exec i s = .next t ∧ (t.status = statusSuccess ∨ ∃ e, t.status = statusError e) := by
  rcases exec_cases i s with ⟨e, h⟩ | ⟨f, v, -, -, h⟩ | ⟨v, -, h⟩ | ⟨v0, v1, -, h⟩
  · exact ⟨_, h, .inr ⟨e, rfl⟩⟩
  · exact ⟨_, h, .inl rfl⟩
  · exact ⟨_, h, .inl rfl⟩
  · exact ⟨_, h, .inl rfl⟩

/-- The flags after a completion: `DONE` without `BUSY`, and `ERR` with a code of R220 or neither (R26, R33). -/
theorem flags_of_completed {t : State} (h : t.status = statusSuccess ∨ ∃ e, t.status = statusError e) :
    t.busyFlag = 0#1 ∧ t.doneFlag = 1#1 ∧
    ((t.errFlag = 0#1 ∧ t.ecodeField = 0#4) ∨
      (t.errFlag = 1#1 ∧ (t.ecodeField = 1#4 ∨ t.ecodeField = 2#4 ∨ t.ecodeField = 3#4))) := by
  simp only [State.busyFlag, State.doneFlag, State.errFlag, State.ecodeField]
  rcases h with h | ⟨e, h⟩ <;> rw [h]
  · decide
  · cases e <;> decide

/-! ### The obligations -/

/-- Settles O8: no case of `exec_cases` is a fault or a refusal, and each one's `STATUS` is known. -/
theorem everyCommandEndsDone : Obligations.EveryCommandEndsDone := by
  intro i s
  obtain ⟨t, ht, hst⟩ := exec_ends i s
  obtain ⟨hph, -⟩ := exec_frame ht
  exact ⟨t, ht, hph, flags_of_completed hst⟩

/-- Settles O33: each success writes what its class names, an error writes nothing but `STATUS` and the phase. -/
theorem commandWritesItsResultsOnly : Obligations.CommandWritesItsResultsOnly := by
  intro i s t ht
  rcases exec_cases i s with ⟨e, h⟩ | ⟨f, v, hf, -, h⟩ | ⟨v, hc, h⟩ | ⟨v0, v1, hx, h⟩ <;>
    obtain rfl := Host.Outcome.next.inj (ht.symm.trans h)
  case inl =>
    exact ⟨rfl, fun _ => rfl, fun _ _ => ⟨rfl, rfl, fun _ _ => rfl⟩, fun _ => rfl, fun _ => rfl⟩
  case inr.inl =>
    refine ⟨rfl, fun _ => rfl, fun g hg => ⟨rfl, rfl, fun c hc => ?_⟩, fun hno => absurd hf (hno f), fun _ => rfl⟩
    rw [complete_obufWord, setObufRange_obufWord, if_neg (by omega)]
  case inr.inr.inl =>
    exact ⟨rfl, fun _ => rfl, fun f hf => absurd (hf.symm.trans hc) (by simp), fun _ => rfl, fun _ => rfl⟩
  case inr.inr.inr =>
    exact ⟨rfl, fun _ => rfl, fun f hf => absurd (hf.symm.trans hx) (by simp), fun _ => rfl,
      fun hc => absurd (hc.symm.trans hx) (by simp)⟩

end Sys2Proof.Machine
end

section
/-! PROOFS. Every element of a format is a function of its block's bytes, and so what a command reports and writes is a
function of its operands (O34). -/

namespace Sys2Proof.Machine

/-! ### Packed fields: each depends on its own array alone (R167, R172, R193, R197, R199, R201) -/

section
variable {b c : Nat → Byte}

theorem nib_congr (e : Nat) (h : ∀ o < 16, b o = c o) : nib b e = nib c e := by
  rw [nib, nib, h _ (Nat.mod_lt e (by decide))]

theorem code5_congr (qh : Word) (e : Nat) (h : ∀ o < 16, b o = c o) : code5 b qh e = code5 c qh e := by
  rw [code5, code5, nib_congr e h]

theorem q2_congr {e : Nat} (he : e < 256) (h : ∀ o < 64, b o = c o) : q2 b e = q2 c e := by
  rw [q2, q2, h _ (by omega)]

theorem nibK_congr {e : Nat} (he : e < 256) (h : ∀ o < 128, b o = c o) : nibK b e = nibK c e := by
  rw [nibK, nibK, h _ (by omega)]

theorem hbK_congr (e : Nat) (h : ∀ o < 32, b o = c o) : hbK b e = hbK c e := by
  rw [hbK, hbK, h _ (Nat.mod_lt e (by decide))]

/-- The 6-bit codes stand in the first 192 bytes of a q6_K block. -/
theorem code6_congr {e : Nat} (he : e < 256) (h : ∀ o < 192, b o = c o) : code6 b e = code6 c e := by
  rw [code6, code6, h (64 * (e / 128) + 32 * (e % 128 / 32 % 2) + e % 32) (by omega),
    h (128 + 32 * (e / 128) + e % 32) (by omega)]

/-- An array of `n` bytes inside a block of `size` bytes on which two blocks agree. -/
theorem fieldAt_congr {size : Nat} (h : ∀ o < size, b o = c o) (start n : Nat) (hfit : start + n ≤ size) :
    ∀ o < n, fieldAt b start o = fieldAt c start o :=
  fun o ho => h (start + o) (by omega)

/-! ### Elements -/

/-- Element `e` of a block depends on the bytes of the block alone (R164, R217). -/
theorem elemOf_congr (p : Params) (f : BlockFormat) {e : Nat} (he : e < f.elems)
    (h : ∀ o < f.blockBytes p, b o = c o) : elemOf p f b e = elemOf p f c e := by
  cases f <;> simp only [BlockFormat.elems, BlockFormat.blockBytes] at he h
  case q4_0 =>
    simp only [elemOf, elemQ4_0, codeQ4_0, nib_congr e (fieldAt_congr h 2 16 (by omega)),
      blk16_congr (h 0 (by omega)) (h 1 (by omega))]
  case q4_1 =>
    simp only [elemOf, elemQ4_1, codeQ4_1, nib_congr e (fieldAt_congr h 4 16 (by omega)),
      blk16_congr (h 0 (by omega)) (h 1 (by omega)), blk16_congr (h 2 (by omega)) (h 3 (by omega))]
  case q5_0 =>
    simp only [elemOf, elemQ5_0, codeQ5_0, code5_congr _ e (fieldAt_congr h 6 16 (by omega)),
      blk16_congr (h 0 (by omega)) (h 1 (by omega)), blk32_congr fun t ht => h (2 + t) (by omega)]
  case q5_1 =>
    simp only [elemOf, elemQ5_1, codeQ5_1, code5_congr _ e (fieldAt_congr h 8 16 (by omega)),
      blk16_congr (h 0 (by omega)) (h 1 (by omega)), blk16_congr (h 2 (by omega)) (h 3 (by omega)),
      blk32_congr fun t ht => h (4 + t) (by omega)]
  case q8_0 =>
    simp only [elemOf, elemQ8_0, codeQ8_0, h (2 + e) (by omega), blk16_congr (h 0 (by omega)) (h 1 (by omega))]
  case q2_K =>
    simp only [elemOf, elemQ2_K, scaleQ2_K, codeQ2_K, minQ2_K, h (e / 16) (by omega),
      q2_congr he (fieldAt_congr h 16 64 (by omega)), blk16_congr (h 80 (by omega)) (h 81 (by omega)),
      blk16_congr (h 82 (by omega)) (h 83 (by omega))]
  case q3_K =>
    simp only [elemOf, elemQ3_K, scaleQ3_K, codeQ3_K, sc3_congr _ (fieldAt_congr h 96 12 (by omega)),
      q2_congr he (fieldAt_congr h 32 64 (by omega)), hbK_congr e fun o ho => h o (by omega),
      blk16_congr (h 108 (by omega)) (h 109 (by omega))]
  case q4_K =>
    simp only [elemOf, elemQ4_K, scaleQ45_K, codeQ4_K, minQ45_K,
      gsmScale_congr (fieldAt_congr h 4 12 (by omega)) (j := e / 32) (by omega),
      gsmMin_congr (fieldAt_congr h 4 12 (by omega)) (j := e / 32) (by omega),
      nibK_congr he (fieldAt_congr h 16 128 (by omega)), blk16_congr (h 0 (by omega)) (h 1 (by omega)),
      blk16_congr (h 2 (by omega)) (h 3 (by omega))]
  case q5_K =>
    simp only [elemOf, elemQ5_K, scaleQ45_K, codeQ5_K, minQ45_K,
      gsmScale_congr (fieldAt_congr h 4 12 (by omega)) (j := e / 32) (by omega),
      gsmMin_congr (fieldAt_congr h 4 12 (by omega)) (j := e / 32) (by omega),
      nibK_congr he (fieldAt_congr h 48 128 (by omega)), hbK_congr e (fieldAt_congr h 16 32 (by omega)),
      blk16_congr (h 0 (by omega)) (h 1 (by omega)), blk16_congr (h 2 (by omega)) (h 3 (by omega))]
  case q6_K =>
    simp only [elemOf, elemQ6_K, scaleQ6_K, codeQ6_K, h (192 + e / 16) (by omega),
      code6_congr he fun o ho => h o (by omega), blk16_congr (h 208 (by omega)) (h 209 (by omega))]
  case q8_K =>
    cases hq : p.q8kDF32 <;> simp only [hq] at h
    · simp [elemOf, elemQ8_K, codeQ8_K, hq, h (2 + e) (by simp; omega),
        blk16_congr (h 0 (by simp)) (h 1 (by simp))]
    · simp [elemOf, elemQ8_K, codeQ8_K, hq, h (4 + e) (by simp; omega),
        blk32_congr fun t ht => h (0 + t) (by simp; omega)]

end

/-! ### The ranges a command reads and writes (R55) -/

section
variable {s u : State} {i : Instr}

theorem commandClass_of_decode (h : decode s.cmd = .ok i) : s.commandClass = some (classOf i) := by
  simp only [State.commandClass, h]

theorem readsIbuf_of_extraction (h : s.commandClass = some .extraction) {o : Nat} (ho : o < 12) :
    s.readsIbuf (s.src.toNat + 0 + o) = true := by
  simp [State.readsIbuf, State.readLength, h, ho]

/-- The bytes of the first `NB` blocks are in the range a block decoder reads. -/
theorem readsIbuf_of_block {f : BlockFormat} (h : s.commandClass = some (.block f)) {n o : Nat} (hn : n < s.nb.toNat)
    (ho : o < f.blockBytes s.params) : s.readsIbuf (s.src.toNat + n * f.blockBytes s.params + o) = true := by
  have hmul : (n + 1) * f.blockBytes s.params ≤ s.nb.toNat * f.blockBytes s.params := Nat.mul_le_mul_right _ hn
  rw [Nat.succ_mul] at hmul
  simp only [State.readsIbuf, State.readLength, h, Bool.and_eq_true, decide_eq_true_eq]
  omega

theorem writesObuf_block_iff {f : BlockFormat} (h : s.commandClass = some (.block f)) (c : Nat) :
    s.writesObuf c = true ↔ s.dst.toNat ≤ c ∧ c < s.dst.toNat + s.k.toNat := by
  simp [State.writesObuf, h]

/-! ### Two states with the same operands -/

/-- Twelve bytes from `SRC` on: the same for an extractor. -/
theorem bytesAt_eq_of_sameOperands (h : SameOperands s u) (hc : s.commandClass = some .extraction) :
    ∀ o < 12, s.bytesAt 0 o = u.bytesAt 0 o := by
  intro o ho
  have hsrc : s.src = u.src := h.src (by simp [hc]) (by simp [hc])
  rw [State.bytesAt, State.bytesAt, ← hsrc, h.bytes _ (readsIbuf_of_extraction hc ho)]

/-- Every output of a decode with its counts in order: the same for two states with the same operands. -/
theorem blockOutput_eq_of_sameOperands (h : SameOperands s u) {f : BlockFormat}
    (hc : s.commandClass = some (.block f)) (hk : s.nb.toNat * f.elems = s.k.toNat) {r : Nat} (hr : r < s.k.toNat) :
    s.blockOutput f (elemOf s.params f) r = u.blockOutput f (elemOf u.params f) r := by
  have hsrc : s.src = u.src := h.src (by simp [hc]) (by simp [hc])
  have hblock : r / f.elems < s.nb.toNat := Nat.div_lt_of_lt_mul (by rw [Nat.mul_comm, hk]; exact hr)
  rw [State.blockOutput, State.blockOutput, ← h.params]
  refine elemOf_congr s.params f (Nat.mod_lt r (elems_pos f)) fun o ho => ?_
  rw [State.block, State.block, State.bytesAt, State.bytesAt, ← hsrc, ← h.params,
    h.bytes _ (readsIbuf_of_block hc hblock ho)]

/-- The checks of a decode read the arguments and the parameters alone (R162, R163), so two states with the same ones
both report the same error or both write their outputs. -/
theorem decodeBlocks_of_sameArguments (hp : s.params = u.params) (hsrc : s.src = u.src) (hdst : s.dst = u.dst)
    (hk : s.k = u.k) (hnb : s.nb = u.nb) (f : BlockFormat) (elem elem' : ElemFn) :
    (∃ e, s.decodeBlocks f elem = s.raiseError e ∧ u.decodeBlocks f elem' = u.raiseError e) ∨
    (s.nb.toNat * f.elems = s.k.toNat ∧
      s.decodeBlocks f elem = (s.setObufRange s.dst.toNat s.k.toNat (s.blockOutput f elem)).complete ∧
      u.decodeBlocks f elem' = (u.setObufRange s.dst.toNat s.k.toNat (u.blockOutput f elem')).complete) := by
  simp only [State.decodeBlocks, ← hp, ← hsrc, ← hdst, ← hk, ← hnb]
  split
  · exact .inl ⟨_, rfl, rfl⟩
  · rename_i hlen
    split
    · exact .inl ⟨_, rfl, rfl⟩
    · exact .inr ⟨not_not.1 fun hne => hlen (.inr hne), rfl, rfl⟩

/-- The check of an extraction reads `SRC` and the parameters alone (R181, R185). -/
theorem extractScale_of_sameArguments (hp : s.params = u.params) (hsrc : s.src = u.src) (v0 v1 w0 w1 : Word) :
    (s.extractScale v0 v1 = s.raiseError .bufferRange ∧ u.extractScale w0 w1 = u.raiseError .bufferRange) ∨
    (s.extractScale v0 v1 = s.completeScalar2 v0 v1 ∧ u.extractScale w0 w1 = u.completeScalar2 w0 w1) := by
  simp only [State.extractScale, ← hp, ← hsrc]
  split
  · exact .inl ⟨rfl, rfl⟩
  · exact .inr ⟨rfl, rfl⟩

end

/-! ### The agreement of two completions -/

/-- What O34 asks of the completions `o` and `o'` of one command word in flight in `s` and elsewhere. -/
def CompletionsAgree (s : State) (o o' : Host.Outcome State Fault Refusal) : Prop :=
  ∃ t v, o = .next t ∧ o' = .next v ∧ t.status = v.status ∧ t.phase = v.phase ∧
    (t.status = 0x00000002#32 →
      (∀ c, s.writesObuf c = true → t.obufWord c = v.obufWord c) ∧
      (s.isScalarCommand = true → t.res0 = v.res0) ∧
      (s.commandClass = some .extraction → t.res1 = v.res1))

/-- Two reports of the same error agree: no error's `STATUS` is that of a success. -/
theorem completionsAgree_of_error (s t v : State) (e : CmdError) :
    CompletionsAgree s (.next (t.raiseError e)) (.next (v.raiseError e)) :=
  ⟨_, _, rfl, rfl, rfl, rfl, fun hok => absurd hok (by cases e <;> simp [statusError, CmdError.code])⟩

section
variable {s u : State} {i : Instr}

theorem completionsAgree_of_conversion (h : SameOperands s u) (hs : s.commandClass = some (classOf i))
    (hc : classOf i = .conversion) : CompletionsAgree s (exec i s) (exec i u) := by
  rw [hc] at hs
  obtain ⟨val, hval⟩ := exec_conversion hc
  rw [hval, hval, ← h.params, ← h.opa hs]
  exact ⟨_, _, rfl, rfl, rfl, rfl, fun _ =>
    ⟨fun c hw => by simp [State.writesObuf, hs] at hw, fun _ => rfl, fun hx => by simp [hs] at hx⟩⟩

theorem completionsAgree_of_extraction (h : SameOperands s u) (hs : s.commandClass = some (classOf i))
    (hc : classOf i = .extraction) : CompletionsAgree s (exec i s) (exec i u) := by
  rw [hc] at hs
  have hsrc : s.src = u.src := h.src (by simp [hs]) (by simp [hs])
  rcases exec_extraction hc with hill | ⟨v0, v1, hv, hexec⟩
  · rw [hill, hill]
    exact completionsAgree_of_error s s u _
  · obtain ⟨h0, h1⟩ := hv _ _ (bytesAt_eq_of_sameOperands h hs)
    rw [hexec, hexec]
    rcases extractScale_of_sameArguments h.params hsrc _ _ _ _ with ⟨he, he'⟩ | ⟨he, he'⟩ <;> rw [he, he']
    · exact completionsAgree_of_error s s u _
    · exact ⟨_, _, rfl, rfl, rfl, rfl, fun _ =>
        ⟨fun c hw => by simp [State.writesObuf, hs] at hw, fun _ => h0, fun _ => h1⟩⟩

theorem completionsAgree_of_block {f : BlockFormat} (h : SameOperands s u) (hs : s.commandClass = some (classOf i))
    (hc : classOf i = .block f) : CompletionsAgree s (exec i s) (exec i u) := by
  rw [hc] at hs
  have hsrc : s.src = u.src := h.src (by simp [hs]) (by simp [hs])
  obtain ⟨hdst, hk, hnb⟩ := h.block f hs
  rw [exec_block_elemOf hc, exec_block_elemOf hc]
  rcases decodeBlocks_of_sameArguments h.params hsrc hdst hk hnb f (elemOf s.params f) (elemOf u.params f) with
    ⟨e, he, he'⟩ | ⟨hlen, he, he'⟩ <;> rw [he, he']
  · exact completionsAgree_of_error s s u e
  · refine ⟨_, _, rfl, rfl, by simp, by simp, fun _ =>
      ⟨fun c hw => ?_, fun hx => by simp [State.isScalarCommand, hs] at hx, fun hx => by simp [hs] at hx⟩⟩
    have hin := (writesObuf_block_iff hs c).1 hw
    rw [complete_obufWord, complete_obufWord]
    calc (s.setObufRange s.dst.toNat s.k.toNat (s.blockOutput f (elemOf s.params f))).obufWord c
        = s.blockOutput f (elemOf s.params f) (c - s.dst.toNat) := by rw [setObufRange_obufWord, if_pos hin]
      _ = u.blockOutput f (elemOf u.params f) (c - s.dst.toNat) :=
          blockOutput_eq_of_sameOperands h hs hlen (by omega)
      _ = (u.setObufRange s.dst.toNat s.k.toNat (u.blockOutput f (elemOf u.params f))).obufWord c := by
          rw [setObufRange_obufWord, if_pos hin]

end

/-- Settles O34: the word decides the class, and the completions of each class agree. -/
theorem commandDependsOnItsOperandsOnly : Obligations.CommandDependsOnItsOperandsOnly := by
  intro s u h
  change CompletionsAgree s s.completeCommand u.completeCommand
  simp only [State.completeCommand, ← h.cmd]
  cases hd : decode s.cmd with
  | error _ => exact completionsAgree_of_error s s u _
  | ok i =>
    have hs := commandClass_of_decode hd
    cases hc : classOf i with
    | conversion => exact completionsAgree_of_conversion h hs hc
    | extraction => exact completionsAgree_of_extraction h hs hc
    | block f => exact completionsAgree_of_block h hs hc

end Sys2Proof.Machine
end

section
/-! PROOFS. That the invariant is kept by each thing a step can do (O45), and what it says of `STATUS` (O46). -/

namespace Sys2Proof.Machine

section
variable {s t : State}

/-! ### The invariant through one update -/

/-- The invariant speaks of the parameters, the buffers, `STATUS` and the phase alone. -/
theorem inv_congr (h : Inv s) (hp : t.params = s.params) (hi : t.ibuf = s.ibuf) (ho : t.obuf = s.obuf)
    (hst : t.status = s.status) (hph : t.phase = s.phase) : Inv t where
  params := hp ▸ h.params
  ibufWf := hi ▸ h.ibufWf
  ibufWithin := by rw [hi, hp]; exact h.ibufWithin
  obufWf := ho ▸ h.obufWf
  obufWithin := by rw [ho, hp]; exact h.obufWithin
  status := hst ▸ h.status
  phase := by rw [hph, hst]; exact h.phase

/-- A launch puts `BUSY` alone in `STATUS` and makes the unit busy, both at once (R32). -/
theorem inv_launch (h : Inv s) (w : Word) : Inv (s.launch w) :=
  ⟨h.params, h.ibufWf, h.ibufWithin, h.obufWf, h.obufWithin, .inr (.inl rfl), by simp⟩

/-- What a completion leaves in `STATUS` is legal and no launch (R33, R225). -/
theorem statusLegal_of_completed {w : Word} (h : w = statusSuccess ∨ ∃ e, w = statusError e) :
    statusLegal w ∧ w ≠ statusLaunched := by
  rcases h with rfl | ⟨e, rfl⟩
  · decide
  · cases e <;> decide

/-- A completion puts an idle unit's value in `STATUS`, and may have written `OBUF` (R33). -/
theorem inv_of_completed (h : Inv s) (hp : t.params = s.params) (hi : t.ibuf = s.ibuf) (hwf : cellsWf t.obuf)
    (hin : cellsWithin t.obuf s.params.obufWords) (hph : t.phase = .idle)
    (hst : t.status = statusSuccess ∨ ∃ e, t.status = statusError e) : Inv t where
  params := hp ▸ h.params
  ibufWf := hi ▸ h.ibufWf
  ibufWithin := by rw [hi, hp]; exact h.ibufWithin
  obufWf := hwf
  obufWithin := hp ▸ hin
  status := (statusLegal_of_completed hst).1
  phase := by simp [hph, (statusLegal_of_completed hst).2]

/-- After a reset the buffers list no cell and `STATUS` is zero (R250). -/
theorem inv_releaseReset (h : Inv s) : Inv s.releaseReset where
  params := h.params
  ibufWf := .nil
  ibufWithin := by simp
  obufWf := .nil
  obufWithin := by simp
  status := .inl rfl
  phase := by rw [releaseReset_phase, releaseReset_status]; decide

theorem inv_setObufWord (h : Inv s) {i : Nat} (w : Word) (hi : i < s.params.obufWords) : Inv (s.setObufWord i w) :=
  ⟨h.params, h.ibufWf, h.ibufWithin, cellsWf_putCell _ _ h.obufWf, cellsWithin_putCell _ h.obufWithin hi, h.status,
    h.phase⟩

theorem inv_setIbufBytes (h : Inv s) {a n : Nat} (v : Word) (hn : a + n ≤ s.params.ibufBytes) :
    Inv (s.setIbufBytes a v n) := by
  rw [setIbufBytes_frame]
  exact ⟨h.params, setIbufBytes_cellsWf a v n h.ibufWf, setIbufBytes_cellsWithin v h.ibufWithin hn, h.obufWf,
    h.obufWithin, h.status, h.phase⟩

/-! ### The invariant through a command and through an access -/

/-- Of all a command can do only a decode writes a buffer, and its range has been checked (R163). -/
theorem inv_exec {i : Instr} (h : Inv s) (ht : exec i s = .next t) : Inv t := by
  rcases exec_cases i s with ⟨e, he⟩ | ⟨f, v, -, ⟨-, -, hfit⟩, he⟩ | ⟨v, -, he⟩ | ⟨v0, v1, -, he⟩ <;>
    obtain rfl := Host.Outcome.next.inj (ht.symm.trans he)
  case inl => exact inv_of_completed h rfl rfl h.obufWf h.obufWithin rfl (.inr ⟨e, rfl⟩)
  case inr.inl =>
    exact inv_of_completed h rfl rfl (cellsWf_putCells _ _ _ h.obufWf) (cellsWithin_putCells _ _ _ h.obufWithin hfit)
      rfl (.inl rfl)
  case inr.inr.inl => exact inv_of_completed h rfl rfl h.obufWf h.obufWithin rfl (.inl rfl)
  case inr.inr.inr => exact inv_of_completed h rfl rfl h.obufWf h.obufWithin rfl (.inl rfl)

theorem inv_completeCommand (h : Inv s) (ht : s.completeCommand = .next t) : Inv t := by
  rcases completeCommand_cases s with ⟨i, -, he⟩ | ⟨_, -, he⟩
  · exact inv_exec h (he.symm.trans ht)
  · obtain rfl := Host.Outcome.next.inj (ht.symm.trans he)
    exact inv_of_completed h rfl rfl h.obufWf h.obufWithin rfl (.inr ⟨_, rfl⟩)

theorem inv_dquTurn (h : Inv s) (ht : s.dquTurn = .next t) : Inv t := by
  rcases dquTurn_cases s with ⟨-, he⟩ | ⟨-, -, he⟩
  · obtain rfl := Host.Outcome.next.inj (ht.symm.trans he)
    exact h
  · exact inv_completeCommand h (he.symm.trans ht)

/-- A register write launches, stores an argument or is ignored (R25, R26, R35). -/
theorem inv_writeReg (h : Inv s) (r : Reg) (v : Word) : Inv (s.writeReg r v) := by
  cases r
  case cmd => exact inv_launch h v
  all_goals exact inv_congr h rfl rfl rfl rfl rfl

/-- An access without fault writes inside its buffer, if it writes one (R27, R28). -/
theorem inv_accessEffect {a : HostAccess} (h : Inv s) (hf : a.fault s.params = none) : Inv (s.accessEffect a) := by
  cases a with
  | readReg o =>
    simp only [State.accessEffect]
    split
    · exact inv_congr h rfl rfl rfl rfl rfl
    · exact inv_congr h rfl rfl rfl rfl rfl
    · exact h
    · exact h
  | writeReg o v =>
    simp only [State.accessEffect]
    split
    · exact inv_writeReg h _ v
    all_goals exact h
  | readIbuf w a => exact inv_congr h rfl rfl rfl rfl rfl
  | writeIbuf w a v =>
    have hin : a + w.bytes ≤ s.params.ibufBytes := by simpa [HostAccess.fault] using hf
    exact inv_setIbufBytes h v hin
  | readObuf i => exact inv_congr h rfl rfl rfl rfl rfl
  | writeObuf i v =>
    have hin : i < s.params.obufWords := by simpa [HostAccess.fault] using hf
    exact inv_setObufWord h v hin

theorem inv_hostAccess {a : HostAccess} (h : Inv s) (ht : s.hostAccess a = .next t) : Inv t := by
  rcases hostAccess_next ht with ⟨-, rfl⟩ | ⟨-, hf, -, rfl⟩
  · exact h
  · exact inv_accessEffect h hf

/-- The list of inputs and the reset input are no part of the invariant. -/
theorem inv_withOutside (h : Inv s) (rest : List Input) (pin : Bool) :
    Inv { s with inputs := rest, resetPin := pin } :=
  inv_congr h rfl rfl rfl rfl rfl

end

/-! ### The fields of a legal `STATUS` (R26, R220) -/

theorem statusLegal_fields {w : Word} (h : statusLegal w) :
    ¬ (w.extractLsb' 0 1 = 1#1 ∧ w.extractLsb' 1 1 = 1#1) ∧
    (w.extractLsb' 2 1 = 1#1 → w.extractLsb' 1 1 = 1#1 ∧ w.extractLsb' 4 4 ≠ 0#4) ∧
    (w.extractLsb' 2 1 = 0#1 → w.extractLsb' 4 4 = 0#4) ∧ w.getLsbD 3 = false ∧ w.extractLsb' 8 24 = 0#24 ∧
    (w.extractLsb' 4 4).toNat ≤ 3 ∧ (w.extractLsb' 0 1 = 1#1 ↔ w = statusLaunched) := by
  rcases h with rfl | rfl | rfl | rfl | rfl | rfl <;> decide

/-! ### The obligations -/

/-- Settles O45: the invariant through each of the cases of a step. -/
theorem everyStepKeepsTheInvariant : Obligations.EveryStepKeepsTheInvariant := by
  intro s t h ht
  rcases step_cases s with ⟨-, he⟩ | ⟨a, rest, -, he⟩ | ⟨rest, -, he⟩ | ⟨rest, -, he⟩ | ⟨rest, -, -, he⟩ |
    ⟨rest, -, -, he⟩
  · exact inv_dquTurn h (he.symm.trans ht)
  · exact inv_hostAccess (inv_withOutside h rest s.resetPin) (he.symm.trans ht)
  · exact inv_dquTurn (inv_withOutside h rest s.resetPin) (he.symm.trans ht)
  · obtain rfl := Host.Outcome.next.inj (ht.symm.trans he)
    exact inv_withOutside h rest true
  · obtain rfl := Host.Outcome.next.inj (ht.symm.trans he)
    exact inv_releaseReset (inv_withOutside h rest s.resetPin)
  · obtain rfl := Host.Outcome.next.inj (ht.symm.trans he)
    exact inv_withOutside h rest s.resetPin

/-- Settles O46: the fields of each legal value, and `BUSY` is the phase. -/
theorem statusFieldsAreConsistent : Obligations.StatusFieldsAreConsistent := by
  intro s h
  obtain ⟨hbd, herr, hok, hbit3, hhigh, hcode, hbusy⟩ := statusLegal_fields h.status
  exact ⟨hbd, herr, hok, hbit3, hhigh, hcode, hbusy.trans h.phase.symm⟩

end Sys2Proof.Machine
end

section
/-! PROOFS. What the host names and what its accesses change: faults, ignored writes, register writes, the cells no
step writes, and the reset (O5, O37, O38, O41, O42, O52). -/

namespace Sys2Proof.Machine

/-! ### The map of the register space (R21, R35, R57) -/

theorem regTarget_of_reserved {o : Nat} (hlo : 0x24 ≤ o) (hhi : o < 0x100) : regTarget o = .reserved := by
  unfold regTarget
  split
  case h_10 => rw [if_neg (by omega), if_pos hhi]
  all_goals omega

theorem regTarget_of_outside {o : Nat} (h : 0x100 ≤ o) : regTarget o = .outside := by
  unfold regTarget
  split
  case h_10 => rw [if_neg (by omega), if_neg (by omega)]
  all_goals omega

/-- Below the reserved offsets the multiples of four are the nine registers, and the rest lie inside them. -/
theorem regTarget_of_word {o : Nat} (h : o < 0x24) :
    if o % 4 = 0 then ∃ r, regTarget o = .register r else regTarget o = .insideWord := by
  interval_cases o <;> simp [regTarget]

/-! ### Faults (log 8) -/

/-- Which register offsets exist: those below 0x100 that are no byte inside a register word. -/
theorem fault_readReg_eq_none_iff (p : Params) (o : Nat) :
    HostAccess.fault p (.readReg o) = none ↔ ¬ (0x100 ≤ o ∨ (o < 0x24 ∧ o % 4 ≠ 0)) := by
  unfold HostAccess.fault
  by_cases hout : 0x100 ≤ o
  · simp [regTarget_of_outside hout, hout]
  by_cases hres : 0x24 ≤ o
  · simp only [regTarget_of_reserved hres (by omega), true_iff]
    omega
  have hword := regTarget_of_word (o := o) (by omega)
  split_ifs at hword with hal
  · obtain ⟨r, hr⟩ := hword
    simp only [hr, true_iff]
    omega
  · simp only [hword, reduceCtorEq, false_iff, not_not]
    omega

theorem fault_writeReg_eq_none_iff (p : Params) (o : Nat) (v : Word) :
    HostAccess.fault p (.writeReg o v) = none ↔ ¬ (0x100 ≤ o ∨ (o < 0x24 ∧ o % 4 ≠ 0)) :=
  fault_readReg_eq_none_iff p o

theorem fault_readIbuf_eq_none_iff (p : Params) (w : Width) (a : Nat) :
    HostAccess.fault p (.readIbuf w a) = none ↔ ¬ p.ibufBytes < a + w.bytes := by
  simp [HostAccess.fault]

theorem fault_writeIbuf_eq_none_iff (p : Params) (w : Width) (a : Nat) (v : Word) :
    HostAccess.fault p (.writeIbuf w a v) = none ↔ ¬ p.ibufBytes < a + w.bytes :=
  fault_readIbuf_eq_none_iff p w a

theorem fault_readObuf_eq_none_iff (p : Params) (i : Nat) :
    HostAccess.fault p (.readObuf i) = none ↔ ¬ p.obufWords ≤ i := by
  simp [HostAccess.fault]

theorem fault_writeObuf_eq_none_iff (p : Params) (i : Nat) (v : Word) :
    HostAccess.fault p (.writeObuf i v) = none ↔ ¬ p.obufWords ≤ i :=
  fault_readObuf_eq_none_iff p i

section
variable {s : State} {a : HostAccess} {rest : List Input}

theorem step_host (hi : s.inputs = .host a :: rest) : step s = State.hostAccess { s with inputs := rest } a := by
  simp only [step, hi, State.act]

/-- An access to what does not exist stops with its fault, idle or busy. -/
theorem step_of_fault {f : Fault} (hr : s.resetPin = false) (hi : s.inputs = .host a :: rest)
    (hf : a.fault s.params = some f) : step s = .fault f := by
  rw [step_host hi]
  simp [State.hostAccess, hr, hf]

/-- If `outside` says of an access that it names nothing, then while idle it decides between fault and effect. -/
theorem step_faults_or_has_effect {outside : Prop} (hr : s.resetPin = false) (hi : s.inputs = .host a :: rest)
    (hout : a.fault s.params = none ↔ ¬ outside) :
    (outside → ∃ f, step s = .fault f) ∧
    (¬ outside → s.phase = .idle → step s = .next (State.accessEffect { s with inputs := rest } a)) := by
  refine ⟨fun ho => ?_, fun ho hph => step_of_hostPermitted hr (hostPermitted_of_idle hph (hout.2 ho)) hi⟩
  cases hf : a.fault s.params with
  | none => exact absurd ho (hout.1 hf)
  | some f => exact ⟨f, step_of_fault hr hi hf⟩

/-! ### Register accesses -/

/-- A permitted access without effect does nothing, whether reset is asserted or not. -/
theorem step_of_noEffect (hi : s.inputs = .host a :: rest) (hp : hostPermitted s a)
    (he : ∀ u : State, u.accessEffect a = u) : step s = .next { s with inputs := rest } := by
  rcases Bool.eq_false_or_eq_true s.resetPin with hr | hr
  · rw [step_host hi]
    simp [State.hostAccess, hr]
  · rw [step_of_hostPermitted hr hp hi, he]

/-- A write of a register while idle: a launch, a stored argument, or nothing (R25, R26, R35). -/
theorem step_writeReg {r : Reg} {v : Word} (hr : s.resetPin = false) (hph : s.phase = .idle)
    (hi : s.inputs = .host (.writeReg r.offset v) :: rest) :
    step s = .next (State.writeReg { s with inputs := rest } r v) := by
  have hf : HostAccess.fault s.params (.writeReg r.offset v) = none := fault_readReg_offset s.params r
  rw [step_of_hostPermitted hr (hostPermitted_of_idle hph hf) hi, State.accessEffect, regTarget_offset]

/-- A write of `STATUS` or of a reserved offset breaks no hazard and has no effect (R26, R35, R257, R258). -/
theorem write_ignored {o : Nat} (h : o = 0x04 ∨ (0x24 ≤ o ∧ o < 0x100)) (u : State) (v : Word) :
    u.hazard (.writeReg o v) = none ∧ u.accessEffect (.writeReg o v) = u := by
  rcases h with rfl | ⟨hlo, hhi⟩
  · exact ⟨rfl, rfl⟩
  · simp only [State.hazard, State.accessEffect, regTarget_of_reserved hlo hhi, and_self]

end

/-! ### Which steps write a buffer cell -/

section
variable {s t : State}

theorem writeReg_buffers (s : State) (r : Reg) (v : Word) :
    (s.writeReg r v).ibuf = s.ibuf ∧ (s.writeReg r v).obuf = s.obuf := by
  cases r <;> exact ⟨rfl, rfl⟩

/-- The only accesses that write a buffer are the writes of that buffer (R27, R28, R54). -/
theorem accessEffect_buffers (s : State) (a : HostAccess) :
    ((∀ w i v, a ≠ .writeIbuf w i v) → (s.accessEffect a).ibuf = s.ibuf) ∧
    ((∀ i v, a ≠ .writeObuf i v) → (s.accessEffect a).obuf = s.obuf) := by
  cases a with
  | readReg o => simp only [State.accessEffect]; split <;> exact ⟨fun _ => rfl, fun _ => rfl⟩
  | writeReg o v =>
    simp only [State.accessEffect]
    split
    · rename_i r _
      obtain ⟨hi, ho⟩ := writeReg_buffers s r v
      exact ⟨fun _ => hi, fun _ => ho⟩
    all_goals exact ⟨fun _ => rfl, fun _ => rfl⟩
  | readIbuf w i => exact ⟨fun _ => rfl, fun _ => rfl⟩
  | writeIbuf w i v =>
    refine ⟨fun h => absurd rfl (h w i v), fun _ => ?_⟩
    rw [State.accessEffect, setIbufBytes_frame]
  | readObuf i => exact ⟨fun _ => rfl, fun _ => rfl⟩
  | writeObuf i v => exact ⟨fun _ => rfl, fun h => absurd rfl (h i v)⟩

/-- An `IBUF` cell that an access does not cover keeps its value. -/
theorem accessEffect_ibufByte {a : HostAccess} {c : Nat}
    (h : ∀ w i v, a = .writeIbuf w i v → c < i ∨ i + w.bytes ≤ c) :
    (s.accessEffect a).ibufByte c = s.ibufByte c := by
  by_cases hw : ∀ w i v, a ≠ .writeIbuf w i v
  · obtain ⟨-, -, -, hepoch, -⟩ := accessEffect_frame s a
    exact ibufByte_congr ((accessEffect_buffers s a).1 hw) hepoch c
  · push Not at hw
    obtain ⟨w, i, v, rfl⟩ := hw
    have := h w i v rfl
    rw [State.accessEffect, setIbufBytes_ibufByte, if_neg (by omega)]

/-- An `OBUF` cell that an access does not write keeps its value. -/
theorem accessEffect_obufWord {a : HostAccess} {c : Nat} (h : ∀ v, a ≠ .writeObuf c v) :
    (s.accessEffect a).obufWord c = s.obufWord c := by
  by_cases hw : ∀ i v, a ≠ .writeObuf i v
  · obtain ⟨-, -, -, hepoch, -⟩ := accessEffect_frame s a
    exact obufWord_congr ((accessEffect_buffers s a).2 hw) hepoch c
  · push Not at hw
    obtain ⟨i, v, rfl⟩ := hw
    have hne : c ≠ i := fun hc => h v (by rw [hc])
    rw [State.accessEffect, setObufWord_obufWord, if_neg hne]

/-- The DQU never writes `IBUF` (R27). -/
theorem dquTurn_ibufByte (h : s.dquTurn = .next t) (c : Nat) : t.ibufByte c = s.ibufByte c := by
  rcases dquTurn_cases s with ⟨-, he⟩ | ⟨-, -, he⟩
  · obtain rfl := Host.Outcome.next.inj (h.symm.trans he)
    rfl
  · rcases completeCommand_cases s with ⟨i, -, hc⟩ | ⟨_, -, hc⟩
    · obtain ⟨-, -, -, -, -, -, -, hibuf, -, hepoch, -⟩ := exec_frame (hc.symm.trans (he.symm.trans h))
      exact ibufByte_congr hibuf hepoch c
    · obtain rfl := Host.Outcome.next.inj (h.symm.trans (he.trans hc))
      rfl

/-- An access, which may be ignored, keeps the `IBUF` cells it does not cover. -/
theorem hostAccess_ibufByte {a : HostAccess} {c : Nat} (h : s.hostAccess a = .next t)
    (hc : ∀ w i v, a = .writeIbuf w i v → c < i ∨ i + w.bytes ≤ c) : t.ibufByte c = s.ibufByte c := by
  rcases hostAccess_next h with ⟨-, rfl⟩ | ⟨-, -, -, rfl⟩
  · rfl
  · exact accessEffect_ibufByte hc

/-- An access, which may be ignored, keeps the `OBUF` cells it does not write. -/
theorem hostAccess_obufWord {a : HostAccess} {c : Nat} (h : s.hostAccess a = .next t)
    (hc : ∀ v, a ≠ .writeObuf c v) : t.obufWord c = s.obufWord c := by
  rcases hostAccess_next h with ⟨-, rfl⟩ | ⟨-, -, -, rfl⟩
  · rfl
  · exact accessEffect_obufWord hc

end

/-! ### The reset state -/

theorem flags_of_status_zero {t : State} (h : t.status = 0#32) :
    t.busyFlag = 0#1 ∧ t.doneFlag = 0#1 ∧ t.errFlag = 0#1 ∧ t.ecodeField = 0#4 := by
  simp only [State.busyFlag, State.doneFlag, State.errFlag, State.ecodeField, h]
  decide

/-! ### The obligations -/

/-- Settles O41: of the steps that can write a cell the statement excludes each. -/
theorem cellsKeepTheirValueUntilWritten : Obligations.CellsKeepTheirValueUntilWritten := by
  intro s t c ht hrel
  rcases step_cases s with ⟨hi, he⟩ | ⟨a, rest, hi, he⟩ | ⟨rest, hi, he⟩ | ⟨rest, hi, he⟩ | ⟨rest, hi, -⟩ |
    ⟨rest, hi, -⟩
  · exact ⟨fun _ => dquTurn_ibufByte (he.symm.trans ht) c, fun hne => absurd hi hne⟩
  · have ht' := he.symm.trans ht
    exact ⟨fun hc => (hostAccess_ibufByte ht' fun w i v ha => hc w i v rest (ha ▸ hi)).trans rfl,
      fun _ _ hc => (hostAccess_obufWord ht' fun v ha => hc v rest (ha ▸ hi)).trans rfl⟩
  · exact ⟨fun _ => dquTurn_ibufByte (he.symm.trans ht) c, fun _ hne => absurd hi (hne rest)⟩
  · obtain rfl := Host.Outcome.next.inj (ht.symm.trans he)
    exact ⟨fun _ => rfl, fun _ _ _ => rfl⟩
  · exact absurd hi (hrel rest)
  · exact absurd hi (hrel rest)

/-- Settles O5: while idle a write of `CMD` is permitted, and its effect is the launch. -/
theorem commandWriteLaunches : Obligations.CommandWriteLaunches :=
  fun _ _ _ hph hr hi => step_writeReg (r := .cmd) hr hph hi

/-- Settles O52: the five offsets are those of the argument registers. -/
theorem argumentRegistersHoldWhatIsWritten : Obligations.ArgumentRegistersHoldWhatIsWritten :=
  fun _ _ _ hr hph =>
    ⟨step_writeReg (r := .src) hr hph, step_writeReg (r := .dst) hr hph, step_writeReg (r := .k) hr hph,
      step_writeReg (r := .nb) hr hph, step_writeReg (r := .opa) hr hph⟩

/-- Settles O37: for each access, having no fault is not being outside. -/
theorem accessOutsideTheSpacesFaults : Obligations.AccessOutsideTheSpacesFaults := by
  intro s a rest hr hi
  cases a with
  | readReg o => exact step_faults_or_has_effect hr hi (fault_readReg_eq_none_iff _ o)
  | writeReg o v => exact step_faults_or_has_effect hr hi (fault_writeReg_eq_none_iff _ o v)
  | readIbuf w i => exact step_faults_or_has_effect hr hi (fault_readIbuf_eq_none_iff _ w i)
  | writeIbuf w i v => exact step_faults_or_has_effect hr hi (fault_writeIbuf_eq_none_iff _ w i v)
  | readObuf i => exact step_faults_or_has_effect hr hi (fault_readObuf_eq_none_iff _ i)
  | writeObuf i v => exact step_faults_or_has_effect hr hi (fault_writeObuf_eq_none_iff _ i v)

/-- Settles O38: such a write is permitted and has no effect; a reserved offset is always readable and answers zero. -/
theorem readOnlyAndReservedOffsets : Obligations.ReadOnlyAndReservedOffsets := by
  intro s o v rest
  refine ⟨fun hi ho => ?_, fun hi hr hlo hhi => ?_⟩
  · have hf : HostAccess.fault s.params (.writeReg o v) = none :=
      (fault_writeReg_eq_none_iff s.params o v).2 (by omega)
    rcases ho with ho | ho | ⟨rfl | rfl, hph⟩
    · exact step_of_noEffect hi ⟨hf, fun _ => (write_ignored (.inl ho) s v).1⟩
        fun u => (write_ignored (.inl ho) u v).2
    · exact step_of_noEffect hi ⟨hf, fun _ => (write_ignored (.inr ho) s v).1⟩
        fun u => (write_ignored (.inr ho) u v).2
    · exact step_of_noEffect hi (hostPermitted_of_idle hph hf) fun _ => rfl
    · exact step_of_noEffect hi (hostPermitted_of_idle hph hf) fun _ => rfl
  · have hres := regTarget_of_reserved hlo hhi
    have hp : hostPermitted s (.readReg o) :=
      ⟨(fault_readReg_eq_none_iff s.params o).2 (by omega), fun _ => by simp only [State.hazard, hres]⟩
    rw [step_of_hostPermitted hr hp hi, State.accessEffect, hres]
    rfl

/-- Settles O42: the release is the reset state with the parameters and the outside world kept. -/
theorem releaseOfResetGivesTheResetState : Obligations.ReleaseOfResetGivesTheResetState := by
  intro s rest hr hi
  have hstep : step s = .next (State.releaseReset { s with inputs := rest }) := by
    simp only [step, hi, State.act, hr, if_true]
  obtain ⟨hbusy, hdone, herr, hcode⟩ := flags_of_status_zero (releaseReset_status { s with inputs := rest })
  exact ⟨_, hstep, fun r => by cases r <;> rfl, rfl, hbusy, hdone, herr, hcode, rfl, rfl, rfl, rfl⟩

end Sys2Proof.Machine
end

section
/-! PROOFS. Running the machine: the DQU's turn, polls of any number, and the lines of a script (O4, O7, O48, O54). -/

namespace Sys2Proof.Machine

/-! ### Words that a command encodes to (R80, R90) -/

/-- The fields of the word of every command are the ones R80 names. -/
theorem encode_fields (i : Instr) : Laws.WordFields.Statement i := by
  cases i with
  | h2f => exact Laws.WordFields.h2f
  | f2h => exact Laws.WordFields.f2h
  | e8m0h => exact Laws.WordFields.e8m0h
  | gsm6 j => exact Laws.WordFields.gsm6 j
  | sc3k j => exact Laws.WordFields.sc3k j
  | dq4_0 => exact Laws.WordFields.dq4_0
  | dq4_1 => exact Laws.WordFields.dq4_1
  | dq5_0 => exact Laws.WordFields.dq5_0
  | dq5_1 => exact Laws.WordFields.dq5_1
  | dq8_0 => exact Laws.WordFields.dq8_0
  | dq2_K => exact Laws.WordFields.dq2_K
  | dq3_K => exact Laws.WordFields.dq3_K
  | dq4_K => exact Laws.WordFields.dq4_K
  | dq5_K => exact Laws.WordFields.dq5_K
  | dq6_K => exact Laws.WordFields.dq6_K
  | dq8_K => exact Laws.WordFields.dq8_K

/-- The row that the opcode of a well-formed command names is its own (R83, R84). -/
theorem decodeOpcode_of_wellFormed {i : Instr} (h : i.wellFormed = true) :
    decodeOpcode i.opcode i.immediate = .ok i := by
  cases i
  case gsm6 j => exact if_pos (of_decide_eq_true h)
  all_goals rfl

theorem decode_encode {i : Instr} (h : i.wellFormed = true) : decode (encode i) = .ok i := by
  obtain ⟨hopc, hz0, hj, hz1⟩ := encode_fields i
  rw [decode, if_neg (not_not.2 hz0), if_neg (not_not.2 hz1), hopc, hj, decodeOpcode_of_wellFormed h]

/-- Only `GSM6` has an immediate without encoding (R84). -/
theorem wellFormed_of_block {i : Instr} {f : BlockFormat} (h : classOf i = .block f) : i.wellFormed = true := by
  cases i
  case gsm6 j => simp [classOf] at h
  all_goals rfl

/-! ### The completion and the DQU's turn -/

/-- The completion of a word in flight, legal or not: a next state whose `STATUS` is that of a success or of an error,
idle, with the inputs and replies kept (R33, R85). -/
theorem completeCommand_ends (s : State) :
    ∃ t, s.completeCommand = .next t ∧ (t.status = statusSuccess ∨ ∃ e, t.status = statusError e) ∧
      t.phase = .idle ∧ t.inputs = s.inputs ∧ t.replies = s.replies := by
  rcases completeCommand_cases s with ⟨i, -, he⟩ | ⟨_, -, he⟩
  · obtain ⟨t, ht, hst⟩ := exec_ends i s
    obtain ⟨hph, -, -, -, -, -, -, -, -, -, -, hin, hrep⟩ := exec_frame ht
    exact ⟨t, he.trans ht, hst, hph, hin, hrep⟩
  · exact ⟨_, he, .inr ⟨_, rfl⟩, rfl, rfl, rfl⟩

/-- With a legal command in flight the DQU's turn is the command's meaning (R33). -/
theorem dquTurn_of_busy {s : State} {i : Instr} (hr : s.resetPin = false) (hph : s.phase = .busy)
    (hd : decode s.cmd = .ok i) : s.dquTurn = exec i s := by
  simp only [State.dquTurn, hr, hph, State.completeCommand, hd, Bool.false_eq_true, if_false]

theorem step_dquTurn {s : State} {rest : List Input} (hi : s.inputs = .dquTurn :: rest) :
    step s = State.dquTurn { s with inputs := rest } := by
  simp only [step, hi, State.act]

/-- A listed turn with a legal command in flight is the command's meaning (R33). -/
theorem step_dquTurn_of_busy {s : State} {i : Instr} {rest : List Input} (hr : s.resetPin = false)
    (hph : s.phase = .busy) (hd : decode s.cmd = .ok i) (hi : s.inputs = .dquTurn :: rest) :
    step s = exec i { s with inputs := rest } :=
  (step_dquTurn hi).trans (dquTurn_of_busy hr hph hd)

theorem step_noInput {s : State} (hi : s.inputs = []) : step s = s.dquTurn := by
  simp only [step, hi]

/-- A placed word is launched, and the next step is the DQU's turn on the launched state, whatever inputs wait. -/
theorem step_inFlight (s : State) (w : Word) :
    step (s.inFlight w) = State.dquTurn (State.launch { s with resetPin := false } w) := by
  by_cases hi : s.inputs = []
  · have hplaced : s.inFlight w = State.launch { s with resetPin := false } w := by simp [State.inFlight, hi]
    rw [hplaced]
    exact step_noInput hi
  · have hplaced : s.inFlight w =
        { State.launch { s with resetPin := false } w with inputs := .dquTurn :: s.inputs } := by
      obtain ⟨x, rest, hxs⟩ := List.exists_cons_of_ne_nil hi
      simp [State.inFlight, hxs]
    rw [hplaced, step_dquTurn rfl]
    rfl

/-- The bits of a whole command word are the word. -/
theorem tableWord_toNat (w : Word) : tableWord 32 w.toNat = w := by
  rw [tableWord, Nat.mod_eq_of_lt w.isLt, BitVec.ofNat_toNat, BitVec.setWidth_eq]

/-! ### A command does not look at the inputs to come -/

section
variable (s : State) (l : List Input)

theorem decodeBlocks_withInputs (f : BlockFormat) (elem : ElemFn) :
    State.decodeBlocks { s with inputs := l } f elem = { s.decodeBlocks f elem with inputs := l } := by
  simp only [State.decodeBlocks]
  split
  · rfl
  · split <;> rfl

theorem extractScale_withInputs (v0 v1 : Word) :
    State.extractScale { s with inputs := l } v0 v1 = { s.extractScale v0 v1 with inputs := l } := by
  simp only [State.extractScale]
  split <;> rfl

end

theorem exec_withInputs {i : Instr} {s t : State} (h : exec i s = .next t) (l : List Input) :
    exec i { s with inputs := l } = .next { t with inputs := l } := by
  cases hc : classOf i with
  | conversion =>
    obtain ⟨val, hval⟩ := exec_conversion hc
    obtain rfl := Host.Outcome.next.inj (h.symm.trans (hval s))
    exact hval _
  | extraction =>
    rcases exec_extraction hc with hill | ⟨v0, v1, -, hv⟩
    · obtain rfl := Host.Outcome.next.inj (h.symm.trans (hill s))
      exact hill _
    · obtain rfl := Host.Outcome.next.inj (h.symm.trans (hv s))
      rw [hv, extractScale_withInputs]
      rfl
  | block f =>
    obtain rfl := Host.Outcome.next.inj (h.symm.trans (exec_block_elemOf hc s))
    rw [exec_block_elemOf hc, decodeBlocks_withInputs]

/-! ### Runs -/

section
variable {s t : State}

theorem runMachine_succ (n : Nat) (h : step s = .next t) : runMachine (n + 1) s = runMachine n t := by
  have hcore : Sys2Proof.core.step s = .next t := h
  simp only [runMachine, Host.Core.run, hcore]
  rfl

/-- `STATUS` may be read at any time: a poll answers it and changes nothing else (R260). -/
theorem runMachine_poll (hr : s.resetPin = false) (n : Nat) (rest : List Input) :
    runMachine (n + 1) { s with inputs := .host (.readReg Reg.status.offset) :: rest } =
      runMachine n { s with inputs := rest, replies := s.status :: s.replies } :=
  have hpermitted : hostPermitted s (.readReg Reg.status.offset) := ⟨fault_readReg_offset _ .status, fun _ => rfl⟩
  runMachine_succ n (step_readReg (s := { s with inputs := .host (.readReg Reg.status.offset) :: rest }) (r := .status) hr hpermitted rfl)

/-- Any number of polls: as many answers, all alike, and nothing else (R262). -/
theorem runMachine_polls (hr : s.resetPin = false) (n m : Nat) (rest : List Input) :
    runMachine (n + m)
        { s with inputs := List.replicate n (.host (.readReg Reg.status.offset)) ++ rest } =
      runMachine m { s with inputs := rest, replies := List.replicate n s.status ++ s.replies } := by
  induction n generalizing s with
  | zero => rw [Nat.zero_add]; rfl
  | succ n ih =>
    have hreplies : List.replicate n s.status ++ s.status :: s.replies =
        List.replicate (n + 1) s.status ++ s.replies := by
      rw [List.replicate_succ', List.append_assoc, List.singleton_append]
    rw [Nat.add_right_comm, List.replicate_succ, List.cons_append, runMachine_poll hr, ← hreplies]
    exact ih (s := { s with replies := s.status :: s.replies }) hr

/-! ### The lines of a script (R88) -/

/-- A register write of a script, while idle. -/
theorem runMachine_wr (hph : s.phase = .idle) (hr : s.resetPin = false) (n polls : Nat) (r : Reg) (v : Word)
    (ls : List ScriptLine) :
    runMachine (n + 1) { s with inputs := scriptInputs polls (.wr r v :: ls) } =
      runMachine n { s.writeReg r v with inputs := scriptInputs polls ls } :=
  (runMachine_succ n
    (step_writeReg (s := { s with inputs := scriptInputs polls (.wr r v :: ls) }) (r := r) hr hph rfl)).trans
    (by cases r <;> rfl)

/-- A register read of a script, while idle. -/
theorem runMachine_rd (hph : s.phase = .idle) (hr : s.resetPin = false) (n polls : Nat) (r : Reg)
    (ls : List ScriptLine) :
    runMachine (n + 1) { s with inputs := scriptInputs polls (.rd r :: ls) } =
      runMachine n { s with inputs := scriptInputs polls ls, replies := s.readReg r :: s.replies } :=
  have hpermitted : hostPermitted s (.readReg r.offset) := hostPermitted_of_idle hph (fault_readReg_offset _ r)
  (runMachine_succ n
    (step_readReg (s := { s with inputs := scriptInputs polls (.rd r :: ls) }) (r := r) hr hpermitted rfl)).trans
    (by cases r <;> rfl)

/-- A `WAIT` while a command is in flight: the early polls, the command's meaning, and the last poll. -/
theorem runMachine_wait {i : Instr} {polls : Nat} (hph : s.phase = .busy) (hr : s.resetPin = false)
    (hd : decode s.cmd = .ok i)
    (ht : exec i { s with inputs := [], replies := List.replicate polls s.status ++ s.replies } = .next t)
    (n : Nat) (ls : List ScriptLine) :
    runMachine (polls + (n + 2)) { s with inputs := scriptInputs polls (.wait :: ls) } =
      runMachine n { t with inputs := scriptInputs polls ls, replies := t.status :: t.replies } := by
  obtain ⟨-, -, -, -, -, -, -, -, -, -, htr, -⟩ := exec_frame ht
  have hinputs : scriptInputs polls (.wait :: ls) =
      List.replicate polls (.host (.readReg Reg.status.offset)) ++
        (.dquTurn :: .host (.readReg Reg.status.offset) :: scriptInputs polls ls) := by
    simp [scriptInputs, ScriptLine.inputs]
  have hturn : step { s with
      inputs := .dquTurn :: .host (.readReg Reg.status.offset) :: scriptInputs polls ls
      replies := List.replicate polls s.status ++ s.replies } =
      .next { t with inputs := .host (.readReg Reg.status.offset) :: scriptInputs polls ls } := by
    refine (step_dquTurn_of_busy (i := i) ?_ ?_ ?_ rfl).trans ?_
    exacts [hr, hph, hd, exec_withInputs ht _]
  rw [hinputs, runMachine_polls hr, runMachine_succ (n + 1) hturn, runMachine_poll (htr.trans hr)]

/-- A command and its `WAIT`, from an idle state: the run goes on where the command's meaning on the launched state
ends, its `STATUS` answered (R32, R33, R88). -/
theorem runMachine_command_wait {i : Instr} {polls : Nat} (hph : s.phase = .idle) (hr : s.resetPin = false)
    (hwf : i.wellFormed = true)
    (ht : exec i { s with
      cmd := encode i, status := 1#32, phase := .busy, inputs := []
      replies := List.replicate polls 1#32 ++ s.replies } = .next t)
    (n : Nat) (ls : List ScriptLine) :
    runMachine (polls + (n + 2) + 1) { s with inputs := scriptInputs polls (.command i :: .wait :: ls) } =
      runMachine n { t with inputs := scriptInputs polls ls, replies := t.status :: t.replies } :=
  (runMachine_wr hph hr _ polls .cmd (encode i) (.wait :: ls)).trans
    (runMachine_wait (s := s.launch (encode i)) rfl hr (decode_encode hwf) ht n ls)

end

/-- A script that writes `SRC`, runs a command and reads both results, as `XSM` and `XS3` do (R89). -/
theorem runMachine_extractionScript {s : State} {i : Instr} (n : Nat) (src : Word) (hph : s.phase = .idle)
    (hr : s.resetPin = false) (hwf : i.wellFormed = true) :
    ∃ u, exec i { s with
        src := src, cmd := encode i, status := 1#32, phase := .busy, inputs := []
        replies := List.replicate n 1#32 ++ s.replies } = .next u ∧
      runMachine (n + 6)
          { s with inputs := scriptInputs n [.wr .src src, .command i, .wait, .rd .res0, .rd .res1] } =
        .next { u with replies := u.res1 :: u.res0 :: u.status :: u.replies } := by
  obtain ⟨u, hu, -⟩ := exec_ends i { s with
    src := src, cmd := encode i, status := 1#32, phase := .busy, inputs := []
    replies := List.replicate n 1#32 ++ s.replies }
  obtain ⟨huph, -, -, -, -, -, -, -, -, -, hur, huin, -⟩ := exec_frame hu
  have huin' : u.inputs = [] := huin
  have hur' : u.resetPin = false := hur.trans hr
  refine ⟨u, hu, ?_⟩
  calc runMachine (n + 6)
        { s with inputs := scriptInputs n [.wr .src src, .command i, .wait, .rd .res0, .rd .res1] }
      = runMachine (n + 5)
          { s with src := src, inputs := scriptInputs n [.command i, .wait, .rd .res0, .rd .res1] } :=
        runMachine_wr hph hr (n + 5) n .src src _
    _ = runMachine 2 { u with
          inputs := scriptInputs n [.rd .res0, .rd .res1], replies := u.status :: u.replies } :=
        runMachine_command_wait (s := { s with src := src }) hph hr hwf hu 2 _
    _ = runMachine 1 { u with
          inputs := scriptInputs n [.rd .res1], replies := u.res0 :: u.status :: u.replies } :=
        runMachine_rd (s := { u with replies := u.status :: u.replies }) huph hur' 1 n .res0 _
    _ = .next { u with inputs := [], replies := u.res1 :: u.res0 :: u.status :: u.replies } :=
        runMachine_rd (s := { u with replies := u.res0 :: u.status :: u.replies }) huph hur' 0 n .res1 _
    _ = .next { u with replies := u.res1 :: u.res0 :: u.status :: u.replies } := by rw [← huin']

/-! ### The obligations -/

/-- Settles O4: for a listed turn, for an empty list, and for a placed word. -/
theorem stepRunsTheDecodedCommand : Obligations.StepRunsTheDecodedCommand := by
  refine ⟨fun s i hr hph hd => ⟨fun hi => ?_, fun rest hi => ?_⟩, fun s i hwf => ?_⟩
  · rw [step_noInput hi, dquTurn_of_busy hr hph hd]
  · exact step_dquTurn_of_busy hr hph hd hi
  · rw [State.withFetchWord, tableWord_toNat, step_inFlight]
    exact dquTurn_of_busy rfl rfl (decode_encode hwf)

/-- Settles O7: the polls, then the completion. -/
theorem launchedCommandCompletes : Obligations.LaunchedCommandCompletes := by
  intro s n hr hph hst hi
  have hs : s = { s with inputs := List.replicate n (.host (.readReg Reg.status.offset)) ++ [.dquTurn] } := by
    change s = { s with inputs := List.replicate n (.host (.readReg 4)) ++ [.dquTurn] }
    rw [← hi]
  obtain ⟨t, ht, hend, htph, htin, htrep⟩ :=
    completeCommand_ends { s with inputs := [], replies := List.replicate n s.status ++ s.replies }
  have hturn : step { s with inputs := [.dquTurn], replies := List.replicate n s.status ++ s.replies } = .next t := by
    rw [step_dquTurn rfl, ← ht]
    simp only [State.dquTurn, hr, hph, Bool.false_eq_true, if_false]
  obtain ⟨hbusy, hdone, -⟩ := flags_of_completed hend
  refine ⟨t, ?_, htph, hbusy, hdone, htin, hst ▸ htrep⟩
  rw [hs, runMachine_polls hr, runMachine_succ 0 hturn]
  rfl

/-- Settles O48: four argument writes, then the command and its `WAIT`. -/
theorem decodeScriptRunsTheCommand : Obligations.DecodeScriptRunsTheCommand := by
  intro s n i f src dst k nb hph hr hc
  obtain ⟨u, hu, -⟩ := exec_ends i { s with
    src := src, dst := dst, k := k, nb := nb, cmd := encode i, status := 1#32, phase := .busy, inputs := []
    replies := List.replicate n 1#32 ++ s.replies }
  obtain ⟨-, -, -, -, -, -, -, -, -, -, -, huin, -⟩ := exec_frame hu
  have huin' : u.inputs = [] := huin
  refine ⟨u, hu, ?_⟩
  calc runMachine (n + 7) { s with inputs := scriptInputs n (scriptDeq i src dst k nb) }
      = runMachine (n + 6) { s with
          src := src, inputs := scriptInputs n [.wr .dst dst, .wr .k k, .wr .nb nb, .command i, .wait] } :=
        runMachine_wr hph hr (n + 6) n .src src _
    _ = runMachine (n + 5) { s with
          src := src, dst := dst, inputs := scriptInputs n [.wr .k k, .wr .nb nb, .command i, .wait] } :=
        runMachine_wr (s := { s with src := src }) hph hr (n + 5) n .dst dst _
    _ = runMachine (n + 4) { s with
          src := src, dst := dst, k := k, inputs := scriptInputs n [.wr .nb nb, .command i, .wait] } :=
        runMachine_wr (s := { s with src := src, dst := dst }) hph hr (n + 4) n .k k _
    _ = runMachine (n + 3) { s with
          src := src, dst := dst, k := k, nb := nb, inputs := scriptInputs n [.command i, .wait] } :=
        runMachine_wr (s := { s with src := src, dst := dst, k := k }) hph hr (n + 3) n .nb nb _
    _ = .next { u with inputs := [], replies := u.status :: u.replies } :=
        runMachine_command_wait (s := { s with src := src, dst := dst, k := k, nb := nb }) hph hr
          (wellFormed_of_block hc) hu 0 []
    _ = .next { u with replies := u.status :: u.replies } := by rw [← huin']

/-- Settles O54: both scripts are this one, `XSM` with a legal immediate. -/
theorem extractionScriptsAnswer : Obligations.ExtractionScriptsAnswer :=
  fun _ n _ src hph hr =>
    ⟨fun hwf => runMachine_extractionScript n src hph hr hwf, runMachine_extractionScript n src hph hr rfl⟩

end Sys2Proof.Machine
end

section
/-! PROOFS. The range check of the commands that read `IBUF`, where a decoder puts its outputs, and the four-byte host
write (O10, O26, O40). -/

namespace Sys2Proof.Machine

/-! ### The outcome of a block decoder (R162 to R164) -/

section
variable {s : State} {i : Instr} {f : BlockFormat}

/-- A block decoder whose arguments are in order writes its outputs and completes. -/
theorem exec_block_of_decodeFits (hc : classOf i = .block f) (hfit : decodeFits s f) :
    exec i s = .next (s.setObufRange s.dst.toNat s.k.toNat (s.blockOutput f (elemOf s.params f))).complete := by
  obtain ⟨hlen, hin, hout⟩ := hfit
  rw [exec_block_elemOf hc, decodeBlocks_success _ hlen hin hout]

/-- With the counts in order a range outside its buffer is the one error left (R163, R223). -/
theorem exec_block_of_rangeError (hc : classOf i = .block f) (hlen : s.nb.toNat * f.elems = s.k.toNat)
    (hrange : s.params.ibufBytes < s.src.toNat + s.nb.toNat * f.blockBytes s.params ∨
      s.params.obufWords < s.dst.toNat + s.k.toNat) :
    exec i s = .next (s.raiseError .bufferRange) := by
  rw [exec_block_elemOf hc]
  rcases decodeBlocks_cases s f (elemOf s.params f) with ⟨hne, -⟩ | ⟨-, -, he⟩ | ⟨-, hin, hout, -⟩
  · exact absurd hlen hne
  · rw [he]
  · omega

/-- The rank of an element of one of the `NB` blocks is below `K`, so its cell is in the range written. -/
theorem rank_lt_k (hlen : s.nb.toNat * f.elems = s.k.toNat) {b e : Nat} (hb : b < s.nb.toNat) (he : e < f.elems) :
    b * f.elems + e < s.k.toNat := by
  have hblocks : (b + 1) * f.elems ≤ s.nb.toNat * f.elems := Nat.mul_le_mul_right _ hb
  rw [Nat.succ_mul] at hblocks
  omega

/-- The cell of rank `b*ELEMS + e` of a decode holds element `e` of block `b` (R56, R164). -/
theorem setObufRange_blockOutput_obufWord (elem : ElemFn) (hlen : s.nb.toNat * f.elems = s.k.toNat) {b e : Nat}
    (hb : b < s.nb.toNat) (he : e < f.elems) :
    (s.setObufRange s.dst.toNat s.k.toNat (s.blockOutput f elem)).obufWord (outputCell s f b e) =
      elem (s.block f b) e := by
  have hrank := rank_lt_k hlen hb he
  have hcell : outputCell s f b e = s.dst.toNat + (b * f.elems + e) := Nat.add_assoc _ _ _
  rw [hcell, setObufRange_obufWord, if_pos (by omega), Nat.add_sub_cancel_left, blockOutput_rank s f elem b he]

end

/-! ### The outcome of an extractor (R181, R185) -/

/-- An extractor with a legal immediate checks its range and gives its two results. -/
theorem exec_extraction_of_wellFormed {i : Instr} (hc : classOf i = .extraction) (hwf : i.wellFormed = true)
    (s : State) : ∃ v0 v1, exec i s = .next (s.extractScale v0 v1) := by
  cases i <;> simp only [classOf, reduceCtorEq] at hc
  case gsm6 j =>
    have hj : j.toNat ≤ 7 := of_decide_eq_true hwf
    exact ⟨_, _, by rw [exec, execGsm6, if_neg (Nat.not_lt.2 hj)]⟩
  case sc3k j => exact ⟨_, _, rfl⟩

/-! ### The bytes of a word -/

/-- Bytes that are those of `w` from bit `o` on, the least significant first, read as that part of `w` (R13, R51). -/
theorem memRead_eq_extractLsb' {b : Nat → Byte} {a n o : Nat} {w : Word}
    (h : ∀ k < n, b (a + k) = w.extractLsb' (o + 8 * k) 8) : memRead b a n = (w.extractLsb' o (8 * n)).toNat := by
  induction n generalizing a o with
  | zero => simp [memRead]
  | succ n ih =>
    have hlow : b a = w.extractLsb' o 8 := h 0 n.succ_pos
    have hhigh : memRead b (a + 1) n = (w.extractLsb' (o + 8) (8 * n)).toNat := ih fun k hk => by
      have hcell : a + 1 + k = a + (k + 1) := by omega
      have hbit : o + 8 + 8 * k = o + 8 * (k + 1) := by omega
      rw [hcell, hbit, h (k + 1) (Nat.succ_lt_succ hk)]
    rw [memRead_succ_eq_append hhigh, hlow, BitVec.extractLsb'_append_extractLsb'_eq_extractLsb' rfl, Nat.mul_succ]

/-- Four bytes that are those of `w` read as `w`. -/
theorem memRead_four_eq_toNat {b : Nat → Byte} {a : Nat} {w : Word}
    (h : ∀ k < 4, b (a + k) = w.extractLsb' (8 * k) 8) : memRead b a 4 = w.toNat := by
  rw [memRead_eq_extractLsb' (o := 0) fun k hk => by rw [h k hk, Nat.zero_add], BitVec.extractLsb'_eq_self]

/-! ### The obligations -/

/-- Settles O10: with the other errors excluded the range check decides between `BufferRange` and success. -/
theorem bufferRangeExactlyWhenARangeDoesNotFit : Obligations.BufferRangeExactlyWhenARangeDoesNotFit := by
  refine ⟨fun i f s hc hlen => ⟨exec_block_of_rangeError hc hlen, fun hin hout => ?_⟩, fun i s hc hwf => ?_⟩
  · exact ⟨_, exec_block_of_decodeFits hc ⟨hlen, hin, hout⟩, rfl⟩
  · obtain ⟨v0, v1, hexec⟩ := exec_extraction_of_wellFormed hc hwf s
    rw [hexec]
    rcases extractScale_cases s v0 v1 with ⟨hout, he⟩ | ⟨hin, he⟩ <;> rw [he]
    · exact ⟨fun _ => rfl, fun hin => by omega⟩
    · exact ⟨fun hout => by omega, fun _ => ⟨_, rfl, rfl⟩⟩

/-- Settles O26: the outputs are one range of `OBUF`, and the rank of each element gives its cell. -/
theorem blockDecoderPlacesEveryElement : Obligations.BlockDecoderPlacesEveryElement := by
  intro i f s hc hfit
  have hlen := hfit.1
  refine ⟨_, exec_block_of_decodeFits hc hfit, rfl, fun b hb e he => ?_, fun c hout => ?_⟩
  · rw [complete_obufWord]
    exact setObufRange_blockOutput_obufWord (elemOf s.params f) hlen hb he
  · rw [complete_obufWord, setObufRange_obufWord, if_neg (by omega)]

/-- Settles O40: the case `four` of a write of any width, whose bytes read back as the word. -/
theorem wideHostWriteIsLittleEndian : Obligations.WideHostWriteIsLittleEndian := by
  intro s a w rest hr hph hin hi
  have hf : HostAccess.fault s.params (.writeIbuf .four a w) = none :=
    (fault_writeIbuf_eq_none_iff s.params .four a w).2 (Nat.not_lt.2 hin)
  obtain ⟨t, hstep, hframe, hbytes, hother⟩ := step_writeIbuf hr (hostPermitted_of_idle hph hf) hi
  exact ⟨t, hstep, hframe, hbytes 0 (by decide), hbytes 1 (by decide), hbytes 2 (by decide), hbytes 3 (by decide),
    hother, memRead_four_eq_toNat hbytes⟩

end Sys2Proof.Machine
end

section
/-! PROOFS. The command word: a word is its four fields, the decoder and the opcode table in terms of them, an
illegal word in flight, and the conversion scripts (O1, O2, O3, O6, O47). -/

namespace Sys2Proof.Machine

/-! ### A word is its four fields (R80) -/

theorem append_fields (w : Word) : z1Field w ++ jField w ++ z0Field w ++ opcField w = w := by
  have hupper : z1Field w ++ jField w = w.extractLsb' 16 16 :=
    BitVec.extractLsb'_append_extractLsb'_eq_extractLsb' rfl
  have hz0 : w.extractLsb' 16 16 ++ z0Field w = w.extractLsb' 8 24 :=
    BitVec.extractLsb'_append_extractLsb'_eq_extractLsb' rfl
  have hword : w.extractLsb' 8 24 ++ opcField w = w.extractLsb' 0 32 :=
    BitVec.extractLsb'_append_extractLsb'_eq_extractLsb' rfl
  rw [hupper, hz0, hword, BitVec.extractLsb'_eq_self]

theorem word_eq_iff_fields (v w : Word) :
    v = w ↔ z0Field v = z0Field w ∧ z1Field v = z1Field w ∧ opcField v = opcField w ∧ jField v = jField w := by
  refine ⟨fun h => by simp only [h, and_self], fun ⟨hz0, hz1, hopc, hj⟩ => ?_⟩
  rw [← append_fields v, ← append_fields w, hz0, hz1, hopc, hj]

theorem eq_encode_iff (w : Word) (i : Instr) :
    w = encode i ↔ z0Field w = 0#8 ∧ z1Field w = 0#12 ∧ opcField w = i.opcode ∧ jField w = i.immediate := by
  obtain ⟨hopc, hz0, hj, hz1⟩ := encode_fields i
  rw [word_eq_iff_fields, hz0, hz1, hopc, hj]

/-! Each field of a masked word is the field masked. -/

section
variable (v w : Word)

theorem opcField_and : opcField (v &&& w) = opcField v &&& opcField w := BitVec.extractLsb'_and
theorem z0Field_and : z0Field (v &&& w) = z0Field v &&& z0Field w := BitVec.extractLsb'_and
theorem jField_and : jField (v &&& w) = jField v &&& jField w := BitVec.extractLsb'_and
theorem z1Field_and : z1Field (v &&& w) = z1Field v &&& z1Field w := BitVec.extractLsb'_and

end

/-! ### The decoder (R90) -/

theorem withoutImmediate_eq_ok_iff {j : BitVec 4} {i i' : Instr} :
    withoutImmediate j i = .ok i' ↔ j = 0#4 ∧ i = i' := by
  unfold withoutImmediate
  split <;> simp [*]

/-- The lookup finds a command exactly at the command's own opcode and immediate. -/
theorem decodeOpcode_eq_ok_iff {opc : BitVec 8} {j : BitVec 4} {i : Instr} :
    decodeOpcode opc j = .ok i ↔ i.wellFormed = true ∧ opc = i.opcode ∧ j = i.immediate := by
  refine ⟨fun h => ?_, fun ⟨hwf, hopc, hj⟩ => by rw [hopc, hj, decodeOpcode_of_wellFormed hwf]⟩
  unfold decodeOpcode at h
  split at h
  case h_4 =>
    split at h
    next hj => cases h; exact ⟨decide_eq_true hj, rfl, rfl⟩
    next => cases h
  case h_5 => cases h; exact ⟨rfl, rfl, rfl⟩
  case h_17 => cases h
  case h_18 => cases h
  all_goals
    obtain ⟨hj, rfl⟩ := withoutImmediate_eq_ok_iff.1 h
    exact ⟨rfl, rfl, hj⟩

theorem decode_eq_ok_iff {w : Word} {i : Instr} :
    decode w = .ok i ↔ z0Field w = 0#8 ∧ z1Field w = 0#12 ∧ decodeOpcode (opcField w) (jField w) = .ok i := by
  unfold decode
  split
  · simp [*]
  · split <;> simp_all

theorem decode_eq_ok_iff_encode (w : Word) (i : Instr) : decode w = .ok i ↔ i.wellFormed = true ∧ w = encode i := by
  rw [decode_eq_ok_iff, decodeOpcode_eq_ok_iff, eq_encode_iff]
  tauto

/-! ### The legal words, field by field (R84) -/

/-- The commands that take no immediate (R83). -/
def plainCommands : List Instr :=
  [.h2f, .f2h, .e8m0h, .dq4_0, .dq4_1, .dq5_0, .dq5_1, .dq8_0, .dq2_K, .dq3_K, .dq4_K, .dq5_K, .dq6_K, .dq8_K]

/-- Their opcodes (R84). -/
def plainOpcodes : List (BitVec 8) := plainCommands.map Instr.opcode

theorem plainCommands_immediate : ∀ i ∈ plainCommands, i.wellFormed = true ∧ i.immediate = 0#4 := by decide

/-- The three alternatives of R84 for the fields `OPC` and `J`. -/
def LegalFields (opc : BitVec 8) (j : BitVec 4) : Prop :=
  (opc ∈ plainOpcodes ∧ j = 0#4) ∨ (opc = 0x08#8 ∧ j.getLsbD 3 = false) ∨ opc = 0x09#8

theorem getLsbD_three_eq_false_iff : ∀ j : BitVec 4, j.getLsbD 3 = false ↔ j.toNat ≤ 7 := by decide

theorem and_eight_eq_zero_iff : ∀ j : BitVec 4, j &&& 8#4 = 0#4 ↔ j.getLsbD 3 = false := by decide

theorem exists_decodeOpcode_iff (opc : BitVec 8) (j : BitVec 4) :
    (∃ i, decodeOpcode opc j = .ok i) ↔ LegalFields opc j := by
  constructor
  · rintro ⟨i, h⟩
    obtain ⟨hwf, rfl, rfl⟩ := decodeOpcode_eq_ok_iff.1 h
    cases i
    case gsm6 j => exact .inr (.inl ⟨rfl, (getLsbD_three_eq_false_iff j).2 (of_decide_eq_true hwf)⟩)
    case sc3k j => exact .inr (.inr rfl)
    all_goals exact .inl ⟨by decide, rfl⟩
  · rintro (⟨hopc, rfl⟩ | ⟨rfl, hj⟩ | rfl)
    · obtain ⟨i, hi, rfl⟩ := List.mem_map.1 hopc
      obtain ⟨hwf, hj⟩ := plainCommands_immediate i hi
      exact ⟨i, hj ▸ decodeOpcode_of_wellFormed hwf⟩
    · exact ⟨_, if_pos ((getLsbD_three_eq_false_iff j).1 hj)⟩
    · exact ⟨_, rfl⟩

theorem exists_decode_iff (w : Word) :
    (∃ i, decode w = .ok i) ↔ z0Field w = 0#8 ∧ z1Field w = 0#12 ∧ LegalFields (opcField w) (jField w) := by
  simp only [decode_eq_ok_iff, exists_and_left, exists_decodeOpcode_iff]

/-! ### The opcode table (R83) -/

/-- Every row fixes `Z0`, `Z1` and `OPC` whole, and those bits of `J` that it fixes are zero. -/
theorem opcodeTable_shape : ∀ r ∈ opcodeTable,
    z0Field r.mask = BitVec.allOnes 8 ∧ z1Field r.mask = BitVec.allOnes 12 ∧ opcField r.mask = BitVec.allOnes 8 ∧
    z0Field r.pattern = 0#8 ∧ z1Field r.pattern = 0#12 ∧ jField r.pattern = 0#4 := by decide

/-- The opcode of a row, and which bits of `J` it fixes: all, bit 3 alone for `GSM6`, none for `SC3K`. -/
theorem opcodeTable_opcode_mask : ∀ r ∈ opcodeTable,
    (opcField r.pattern ∈ plainOpcodes ∧ jField r.mask = BitVec.allOnes 4) ∨
    (opcField r.pattern = 0x08#8 ∧ jField r.mask = 8#4) ∨
    (opcField r.pattern = 0x09#8 ∧ jField r.mask = 0#4) := by decide

theorem exists_row_of_plainOpcode : ∀ opc ∈ plainOpcodes,
    ∃ r ∈ opcodeTable, opcField r.pattern = opc := by decide

/-- A row matches the words with its opcode whose `J` is zero in the bits that the row fixes. -/
theorem row_matches_iff {r : OpcodeRow} (h : r ∈ opcodeTable) (w : Word) :
    w &&& r.mask = r.pattern ↔ z0Field w = 0#8 ∧ z1Field w = 0#12 ∧
      opcField w = opcField r.pattern ∧ jField w &&& jField r.mask = 0#4 := by
  obtain ⟨hz0m, hz1m, hopcm, hz0, hz1, hj⟩ := opcodeTable_shape r h
  rw [word_eq_iff_fields, z0Field_and, z1Field_and, opcField_and, jField_and, hz0m, hz1m, hopcm, hz0, hz1, hj,
    BitVec.and_allOnes, BitVec.and_allOnes, BitVec.and_allOnes]

theorem exists_row_iff (opc : BitVec 8) (j : BitVec 4) :
    (∃ r ∈ opcodeTable, opc = opcField r.pattern ∧ j &&& jField r.mask = 0#4) ↔ LegalFields opc j := by
  constructor
  · rintro ⟨r, hr, rfl, hj⟩
    rcases opcodeTable_opcode_mask r hr with ⟨hopc, hm⟩ | ⟨hopc, hm⟩ | ⟨hopc, -⟩
    · rw [hm, BitVec.and_allOnes] at hj
      exact .inl ⟨hopc, hj⟩
    · rw [hm, and_eight_eq_zero_iff] at hj
      exact .inr (.inl ⟨hopc, hj⟩)
    · exact .inr (.inr hopc)
  · rintro (⟨hopc, rfl⟩ | ⟨rfl, hj⟩ | rfl)
    · obtain ⟨r, hr, hrow⟩ := exists_row_of_plainOpcode opc hopc
      exact ⟨r, hr, hrow.symm, BitVec.zero_and⟩
    · exact ⟨⟨"GSM6", 0x00000008#32, 0xFFF8FFFF#32⟩, by decide, rfl, (and_eight_eq_zero_iff j).2 hj⟩
    · exact ⟨⟨"SC3K", 0x00000009#32, 0xFFF0FFFF#32⟩, by decide, rfl, BitVec.and_zero⟩

/-- The table and the decoder agree on which words are legal (R84, "Equivalently"). -/
theorem matchesTable_iff (w : Word) : matchesTable w = true ↔ ∃ i, decode w = .ok i := by
  have hrows : matchesTable w = true ↔ ∃ r ∈ opcodeTable, w &&& r.mask = r.pattern := by
    simp [matchesTable]
  rw [hrows, exists_decode_iff, ← exists_row_iff]
  constructor
  · rintro ⟨r, hr, hm⟩
    obtain ⟨hz0, hz1, hf⟩ := (row_matches_iff hr w).1 hm
    exact ⟨hz0, hz1, r, hr, hf⟩
  · rintro ⟨hz0, hz1, r, hr, hf⟩
    exact ⟨r, hr, (row_matches_iff hr w).2 ⟨hz0, hz1, hf⟩⟩

/-! ### The 38 commands that have an encoding (R84) -/

/-- Every value of the field `J`. -/
def immediates : List (BitVec 4) := (List.range 16).map (BitVec.ofNat 4)

/-- Every command, those without an encoding among them. -/
def allCommands : List Instr := plainCommands ++ immediates.map .gsm6 ++ immediates.map .sc3k

theorem mem_immediates : ∀ j : BitVec 4, j ∈ immediates := by decide

theorem mem_allCommands (i : Instr) : i ∈ allCommands := by
  cases i
  case gsm6 j => simp [allCommands, mem_immediates]
  case sc3k j => simp [allCommands, mem_immediates]
  all_goals decide

/-- The word of every command that has one. -/
def legalWords : List Word := (allCommands.filter Instr.wellFormed).map encode

theorem mem_legalWords (w : Word) : w ∈ legalWords ↔ ∃ i, decode w = .ok i := by
  simp only [legalWords, List.mem_map, List.mem_filter, mem_allCommands, true_and, decode_eq_ok_iff_encode,
    eq_comm (a := w)]

theorem legalWords_length : legalWords.length = 38 := by decide

/-- Two commands with an encoding never share a word, since the word decodes to both. -/
theorem legalWords_nodup : legalWords.Nodup := by
  have hcommands : allCommands.Nodup := by decide
  refine (hcommands.filter _).map_on fun i hi i' hi' h => ?_
  have hd := decode_encode (List.mem_filter.1 hi).2
  rw [h, decode_encode (List.mem_filter.1 hi').2] at hd
  exact (Except.ok.inj hd).symm

/-! ### An illegal word in flight (R85, R86) -/

theorem completeCommand_of_illegal {s : State} (h : ¬ ∃ i, decode s.cmd = .ok i) :
    s.completeCommand = .next (s.raiseError .illegalCommand) := by
  rcases completeCommand_cases s with ⟨i, hi, -⟩ | ⟨-, -, he⟩
  · exact absurd ⟨i, hi⟩ h
  · exact he

/-- No command has the opcode set aside for `iq4_nl` (R86). -/
theorem not_exists_decode_of_reserved {w : Word} (h : opcField w = 0x30#8) : ¬ ∃ i, decode w = .ok i := by
  rintro ⟨i, hi⟩
  obtain ⟨-, -, hok⟩ := decode_eq_ok_iff.1 hi
  have hreserved : decodeOpcode 0x30#8 (jField w) = .error .reservedIq4nl := rfl
  rw [h, hreserved] at hok
  cases hok

/-! ### The conversion scripts (R89) -/

/-- A script that writes `OPA`, runs a conversion and reads its result. -/
theorem runMachine_conversionScript {s : State} {i : Instr} {val : Params → Word → Word} (n : Nat) (v : Word)
    (hph : s.phase = .idle) (hr : s.resetPin = false) (hwf : i.wellFormed = true)
    (hexec : ∀ t, exec i t = .next (t.completeScalar (val t.params t.opa))) :
    runMachine (n + 5) { s with inputs := scriptInputs n [.wr .opa v, .command i, .wait, .rd .res0] } =
      .next { s with
        inputs := [], opa := v, cmd := encode i, status := 2#32, res0 := val s.params v
        replies := val s.params v :: 2#32 :: (List.replicate n 1#32 ++ s.replies) } :=
  calc runMachine (n + 5) { s with inputs := scriptInputs n [.wr .opa v, .command i, .wait, .rd .res0] }
      = runMachine (n + 4) { s with opa := v, inputs := scriptInputs n [.command i, .wait, .rd .res0] } :=
        runMachine_wr hph hr (n + 4) n .opa v _
    _ = runMachine 1 { s with
          inputs := scriptInputs n [.rd .res0], opa := v, cmd := encode i, status := 2#32, phase := .idle
          res0 := val s.params v, replies := 2#32 :: (List.replicate n 1#32 ++ s.replies) } :=
        runMachine_command_wait (s := { s with opa := v }) hph hr hwf (hexec _) 1 _
    _ = .next { s with
          inputs := [], opa := v, cmd := encode i, status := 2#32, phase := .idle, res0 := val s.params v
          replies := val s.params v :: 2#32 :: (List.replicate n 1#32 ++ s.replies) } :=
        runMachine_rd (s := { s with
          opa := v, cmd := encode i, status := 2#32, phase := .idle, res0 := val s.params v
          replies := 2#32 :: (List.replicate n 1#32 ++ s.replies) }) rfl hr 0 n .res0 []
    _ = _ := by rw [hph]

/-! ### The obligations -/

/-- Settles O1: a word decodes to the command whose fields it holds, and a word is its fields. -/
theorem decodeAndEncodeAgree : Obligations.DecodeAndEncodeAgree := decode_eq_ok_iff_encode

/-- Settles O2: the fields, the rows of the table, and the words of all commands that have one. -/
theorem legalWordsAreThoseOfTheTable : Obligations.LegalWordsAreThoseOfTheTable := by
  refine ⟨fun w => ?_, fun w => (matchesTable_iff w).symm, legalWords, legalWords_length, legalWords_nodup,
    mem_legalWords⟩
  have hbit : (jField w).getLsbD 3 = w.getLsbD 19 := by simp [jField]
  rw [exists_decode_iff, LegalFields, hbit]
  rfl

/-- Settles O3: the legal words are those that `encode` gives, the others fail one of the decoder's checks. -/
theorem writtenOutWordsDecode : Obligations.WrittenOutWordsDecode :=
  ⟨decode_encode (i := .h2f) rfl, decode_encode (i := .gsm6 5#4) rfl, decode_encode (i := .sc3k 15#4) rfl,
    decode_encode (i := .dq4_0) rfl, decode_encode (i := .dq4_K) rfl, rfl, rfl, rfl, rfl⟩

/-- Settles O6: either way the word decodes to no command, so its completion is the report of `IllegalCommand`. -/
theorem illegalWordReportsIllegalCommand : Obligations.IllegalWordReportsIllegalCommand := by
  intro s hr hph hi hword
  have hillegal : ¬ ∃ i, decode s.cmd = .ok i := by
    rcases hword with htable | hopc
    · rw [← matchesTable_iff, htable]
      exact Bool.false_ne_true
    · exact not_exists_decode_of_reserved hopc
  rw [step_noInput hi]
  rcases dquTurn_cases s with ⟨hr' | hidle, -⟩ | ⟨-, -, hturn⟩
  · simp [hr] at hr'
  · simp [hph] at hidle
  · rw [hturn, completeCommand_of_illegal hillegal]
    rfl

/-- Settles O47: the three scripts are one, each with its command's value. -/
theorem conversionScriptsAnswer : Obligations.ConversionScriptsAnswer :=
  fun _ n v hph hr =>
    ⟨runMachine_conversionScript (val := fun p w => h2f p (w.extractLsb' 0 16)) n v hph hr rfl fun _ => rfl,
      runMachine_conversionScript (val := fun p w => (f2h p w).setWidth 32) n v hph hr rfl fun _ => rfl,
      runMachine_conversionScript (val := fun _ w => e8m0h (w.extractLsb' 0 8)) n v hph hr rfl fun _ => rfl⟩

end Sys2Proof.Machine
end

section
/-! PROOFS. A pattern as a sign and a magnitude: the fields of the patterns that the model packs, and the classes of a
pattern read off its magnitude, for binary32 (R100) and half precision (R110). -/

namespace Sys2Proof.Machine

theorem toNat_append_eq_add {m n : Nat} (x : BitVec m) (y : BitVec n) :
    (x ++ y).toNat = x.toNat * 2 ^ n + y.toNat := by
  rw [BitVec.toNat_append, ← Nat.shiftLeft_add_eq_or_of_lt y.isLt, Nat.shiftLeft_eq]

/-! ### Binary32 patterns -/

/-- The 31 bits below the sign, exponent field above fraction, as one number (R100). -/
def magF (w : Word) : Nat := expF w * 2 ^ 23 + fracF w

section
variable (w : Word)

theorem expF_eq : expF w = w.toNat / 2 ^ 23 % 2 ^ 8 := by
  rw [expF, BitVec.extractLsb'_toNat, Nat.shiftRight_eq_div_pow]

theorem fracF_eq : fracF w = w.toNat % 2 ^ 23 := by
  rw [fracF, BitVec.extractLsb'_toNat, Nat.shiftRight_zero]

theorem signF_eq : signF w = decide (2 ^ 31 ≤ w.toNat) := by
  have hlt := w.isLt
  rw [signF, ← BitVec.testBit_toNat, Nat.testBit_eq_decide_div_mod_eq, decide_eq_decide]
  omega

theorem isFinite_iff : isFinite w = true ↔ magF w < 255 * 2 ^ 23 := by
  have := expF_lt w
  have := fracF_lt w
  simp only [isFinite, magF, bne_iff_ne]
  omega

theorem isInf_iff : isInf w = true ↔ magF w = 255 * 2 ^ 23 := by
  have := expF_lt w
  have := fracF_lt w
  simp only [isInf, magF, Bool.and_eq_true, beq_iff_eq]
  omega

theorem isNaN_iff : isNaN w = true ↔ 255 * 2 ^ 23 < magF w := by
  have := expF_lt w
  have := fracF_lt w
  simp only [isNaN, magF, Bool.and_eq_true, beq_iff_eq, bne_iff_ne]
  omega

theorem isZero_iff : isZero w = true ↔ magF w = 0 := by
  simp only [isZero, magF, Bool.and_eq_true, beq_iff_eq]
  omega

theorem class_of_word : isFinite w = true ∨ isInf w = true ∨ isNaN w = true := by
  rw [isFinite_iff, isInf_iff, isNaN_iff]
  omega

/-- A pattern is its sign and its magnitude. -/
theorem withSign_signF_magF : withSign (signF w) (magF w) = w := by
  have hlt := w.isLt
  apply BitVec.eq_of_toNat_eq
  rw [withSign, BitVec.toNat_ofNat, magF, expF_eq, fracF_eq, signF_eq]
  simp only [decide_eq_true_eq]
  split <;> omega

end

theorem isInf_eq_false_of_isFinite {w : Word} (h : isFinite w = true) : isInf w = false := by
  rw [Bool.eq_false_iff, ne_eq, isInf_iff]
  rw [isFinite_iff] at h
  omega

theorem isNaN_eq_false_of_isFinite {w : Word} (h : isFinite w = true) : isNaN w = false := by
  rw [Bool.eq_false_iff, ne_eq, isNaN_iff]
  rw [isFinite_iff] at h
  omega

theorem isNaN_eq_false_of_isInf {w : Word} (h : isInf w = true) : isNaN w = false := by
  rw [Bool.eq_false_iff, ne_eq, isNaN_iff]
  rw [isInf_iff] at h
  omega

theorem word_eq_of_signF_magF {v w : Word} (hs : signF v = signF w) (hm : magF v = magF w) : v = w := by
  rw [← withSign_signF_magF v, hs, hm, withSign_signF_magF]

section
variable (neg : Bool) {mag : Nat}

theorem withSign_toNat (h : mag < 2 ^ 31) : (withSign neg mag).toNat = (if neg then 2 ^ 31 else 0) + mag := by
  rw [withSign, BitVec.toNat_ofNat]
  split <;> omega

theorem magF_withSign (h : mag < 2 ^ 31) : magF (withSign neg mag) = mag := by
  rw [magF, expF_eq, fracF_eq, withSign_toNat neg h]
  split <;> omega

theorem signF_withSign (h : mag < 2 ^ 31) : signF (withSign neg mag) = neg := by
  rw [signF_eq, withSign_toNat neg h]
  cases neg
  · simpa using h
  · simp

end

/-- The last bit of a pattern is clear exactly when its magnitude is even. -/
theorem getLsbD_zero_eq_false_iff (w : Word) : w.getLsbD 0 = false ↔ magF w % 2 = 0 := by
  have hpar : magF w % 2 = w.toNat % 2 := by rw [magF, expF_eq, fracF_eq]; omega
  rw [hpar, ← BitVec.testBit_toNat, Nat.testBit_zero, decide_eq_false_iff_not]
  omega

/-! Flipping the sign bit (R106). -/

@[simp] theorem signF_flip (w : Word) : signF (w ^^^ 0x80000000#32) = !signF w := by
  simp [signF]

@[simp] theorem magF_flip (w : Word) : magF (w ^^^ 0x80000000#32) = magF w := by
  have he : expF (w ^^^ 0x80000000#32) = expF w := by simp [expF, BitVec.extractLsb'_xor]
  have hf : fracF (w ^^^ 0x80000000#32) = fracF w := by simp [fracF, BitVec.extractLsb'_xor]
  rw [magF, magF, he, hf]

@[simp] theorem isInf_flip (w : Word) : isInf (w ^^^ 0x80000000#32) = isInf w := by
  rw [Bool.eq_iff_iff, isInf_iff, isInf_iff, magF_flip]

@[simp] theorem isNaN_flip (w : Word) : isNaN (w ^^^ 0x80000000#32) = isNaN w := by
  rw [Bool.eq_iff_iff, isNaN_iff, isNaN_iff, magF_flip]

@[simp] theorem isFinite_flip (w : Word) : isFinite (w ^^^ 0x80000000#32) = isFinite w := by
  rw [Bool.eq_iff_iff, isFinite_iff, isFinite_iff, magF_flip]

/-! Packed fields. -/

section
variable (s : BitVec 1) (e : BitVec 8) (m : BitVec 23)

theorem packF_toNat : (packF s e m).toNat = s.toNat * 2 ^ 31 + e.toNat * 2 ^ 23 + m.toNat := by
  rw [packF, toNat_append_eq_add, toNat_append_eq_add]
  ring

theorem expF_packF : expF (packF s e m) = e.toNat := by
  have he := e.isLt
  have hm := m.isLt
  rw [expF_eq, packF_toNat]
  omega

theorem fracF_packF : fracF (packF s e m) = m.toNat := by
  have hm := m.isLt
  rw [fracF_eq, packF_toNat]
  omega

theorem magF_packF : magF (packF s e m) = e.toNat * 2 ^ 23 + m.toNat := by
  rw [magF, expF_packF, fracF_packF]

theorem signF_packF : signF (packF s e m) = s.getLsbD 0 := by
  have hs := s.isLt
  have he := e.isLt
  have hm := m.isLt
  rw [signF_eq, packF_toNat, ← BitVec.testBit_toNat, Nat.testBit_zero, decide_eq_decide]
  omega

theorem extractLsb'_sign_packF : (packF s e m).extractLsb' 31 1 = s := by
  have hs := s.isLt
  have he := e.isLt
  have hm := m.isLt
  apply BitVec.eq_of_toNat_eq
  rw [BitVec.extractLsb'_toNat, packF_toNat, Nat.shiftRight_eq_div_pow]
  omega

end

theorem getLsbD_extractLsb'_sign (w : Word) : (w.extractLsb' 31 1).getLsbD 0 = signF w := by
  simp [signF]

/-! ### Half patterns -/

/-- The 15 bits below the sign, exponent field above fraction, as one number (R110). -/
def magH (h : Half) : Nat := expH h * 2 ^ 10 + fracH h

section
variable (h : Half)

theorem expH_eq : expH h = h.toNat / 2 ^ 10 % 2 ^ 5 := by
  rw [expH, BitVec.extractLsb'_toNat, Nat.shiftRight_eq_div_pow]

theorem fracH_eq : fracH h = h.toNat % 2 ^ 10 := by
  rw [fracH, BitVec.extractLsb'_toNat, Nat.shiftRight_zero]

theorem magH_eq : magH h = h.toNat % 2 ^ 15 := by
  rw [magH, expH_eq, fracH_eq]
  omega

theorem isFiniteH_iff : isFiniteH h = true ↔ magH h < 31 * 2 ^ 10 := by
  have := expH_lt h
  have := fracH_lt h
  simp only [isFiniteH, magH, bne_iff_ne]
  omega

theorem isInfH_iff : isInfH h = true ↔ magH h = 31 * 2 ^ 10 := by
  have := expH_lt h
  have := fracH_lt h
  simp only [isInfH, magH, Bool.and_eq_true, beq_iff_eq]
  omega

theorem isNaNH_iff : isNaNH h = true ↔ 31 * 2 ^ 10 < magH h := by
  have := expH_lt h
  have := fracH_lt h
  simp only [isNaNH, magH, Bool.and_eq_true, beq_iff_eq, bne_iff_ne]
  omega

theorem class_of_half : isFiniteH h = true ∨ isInfH h = true ∨ isNaNH h = true := by
  rw [isFiniteH_iff, isInfH_iff, isNaNH_iff]
  omega

theorem getLsbD_zero_eq_false_iff_magH : h.getLsbD 0 = false ↔ magH h % 2 = 0 := by
  have hpar : magH h % 2 = h.toNat % 2 := by rw [magH_eq]; omega
  rw [hpar, ← BitVec.testBit_toNat, Nat.testBit_zero, decide_eq_false_iff_not]
  omega

/-- A half pattern is its sign bit and its magnitude. -/
theorem sign_append_magH : h.extractLsb' 15 1 ++ BitVec.ofNat 15 (magH h) = h := by
  have hmag : BitVec.ofNat 15 (magH h) = h.extractLsb' 0 15 := by
    apply BitVec.eq_of_toNat_eq
    rw [BitVec.toNat_ofNat, magH_eq, BitVec.extractLsb'_toNat, Nat.shiftRight_zero, Nat.mod_mod]
  have happ : h.extractLsb' 15 1 ++ h.extractLsb' 0 15 = h.extractLsb' 0 16 :=
    BitVec.extractLsb'_append_extractLsb'_eq_extractLsb' rfl
  rw [hmag, happ, BitVec.extractLsb'_eq_self]

end

section
variable (s : BitVec 1) (v : BitVec 15)

theorem magH_append : magH (s ++ v) = v.toNat := by
  have hv := v.isLt
  rw [magH_eq, toNat_append_eq_add]
  omega

theorem getLsbD_sign_append : (s ++ v : Half).getLsbD 15 = s.getLsbD 0 := by
  rw [BitVec.getLsbD_append]
  rfl

theorem magH_append_ofNat {c : Nat} (hc : c ≤ 31 * 2 ^ 10) : magH (s ++ BitVec.ofNat 15 c) = c := by
  rw [magH_append, BitVec.toNat_ofNat]
  omega

theorem extractLsb'_append_low : (s ++ v : Half).extractLsb' 0 15 = v := by
  have hv := v.isLt
  apply BitVec.eq_of_toNat_eq
  rw [BitVec.extractLsb'_toNat, toNat_append_eq_add, Nat.shiftRight_zero]
  omega

end

/-- `F2H` writes the half to the lower half of the result and zeros above it. -/
theorem halves_of_setWidth (h : Half) :
    (h.setWidth 32).extractLsb' 0 16 = h ∧ (h.setWidth 32).extractLsb' 16 16 = 0#16 := by
  have hh := h.isLt
  constructor <;> apply BitVec.eq_of_toNat_eq <;>
    rw [BitVec.extractLsb'_toNat, BitVec.toNat_setWidth, Nat.shiftRight_eq_div_pow]
  · omega
  · change _ = 0
    omega

end Sys2Proof.Machine
end

section
/-! PROOFS. The numbers that a binary format can hold, and rounding to them: the value of a magnitude as an integer,
what it is to be rounded to nearest with ties to even, and `round32` in these terms (R100, R101, R110). -/

namespace Sys2Proof.Machine

/-! ### The values of magnitudes -/

/-- The value of the magnitude `c` of a format with `f` fraction bits, in units of its smallest subnormal. -/
def gridValue (f c : Nat) : Nat :=
  if c / 2 ^ f = 0 then c % 2 ^ f else (2 ^ f + c % 2 ^ f) * 2 ^ (c / 2 ^ f - 1)

/-- A number with the sign of a pattern. -/
def signedQ (neg : Bool) (x : ℚ) : ℚ := if neg then -x else x

section
variable (neg : Bool) (x y : ℚ)

@[simp] theorem abs_signedQ : |signedQ neg x| = |x| := by cases neg <;> simp [signedQ]

@[simp] theorem signedQ_signedQ : signedQ neg (signedQ neg x) = x := by cases neg <;> simp [signedQ]

theorem signedQ_sub : signedQ neg x - signedQ neg y = signedQ neg (x - y) := by
  cases neg <;> simp only [signedQ, if_true, if_false, Bool.false_eq_true]; ring

theorem signedQ_mul (a b : Bool) : signedQ a x * signedQ b y = signedQ (a ^^ b) (x * y) := by
  cases a <;> cases b <;> simp [signedQ]

theorem signedQ_mul_right : signedQ neg x * y = signedQ neg (x * y) := by cases neg <;> simp [signedQ]

theorem signedQ_div : signedQ neg x / y = signedQ neg (x / y) := by
  rw [div_eq_mul_inv, signedQ_mul_right, div_eq_mul_inv]

theorem eq_signedQ_abs : x = signedQ (decide (x < 0)) |x| := by
  rcases lt_or_ge x 0 with h | h
  · simp [signedQ, h, abs_of_neg h]
  · simp [signedQ, not_lt.2 h, abs_of_nonneg h]

end

theorem eq_decide_of_eq_signedQ_abs {neg : Bool} {x : ℚ} (h0 : x ≠ 0) (hx : x = signedQ neg |x|) :
    neg = decide (x < 0) := by
  have hpos := abs_pos.2 h0
  cases neg <;> simp only [signedQ, if_true, if_false, Bool.false_eq_true] at hx
  · rw [eq_comm, decide_eq_false_iff_not]
    linarith
  · rw [eq_comm, decide_eq_true_eq]
    linarith

theorem scaledF_eq_signedQ (w : Word) : (scaledF w : ℚ) = signedQ (signF w) (gridValue 23 (magF w)) := by
  have hf := fracF_lt w
  have hdiv : magF w / 2 ^ 23 = expF w := by unfold magF; omega
  have hmod : magF w % 2 ^ 23 = fracF w := by unfold magF; omega
  rw [scaledF, gridValue, hdiv, hmod, signedQ]
  split <;> push_cast <;> rfl

/-- The value of a finite binary32 pattern is its sign and the value of its magnitude (R100). -/
theorem val32_eq (w : Word) : val32 w = signedQ (signF w) (gridValue 23 (magF w)) / 2 ^ 149 := by
  rw [val32, scaledF_eq_signedQ]

/-- The value of a finite half pattern is its sign and the value of its magnitude (R110). -/
theorem val16_eq (h : Half) : val16 h = signedQ (h.getLsbD 15) (gridValue 10 (magH h)) / 2 ^ 24 := by
  have hf := fracH_lt h
  have hdiv : magH h / 2 ^ 10 = expH h := by unfold magH; omega
  have hmod : magH h % 2 ^ 10 = fracH h := by unfold magH; omega
  rw [val16, gridValue, hdiv, hmod, signedQ]
  by_cases he : expH h = 0 <;> cases h.getLsbD 15 <;> simp [he]

section
variable {f s n : Nat}

/-- Exponent and significand of a magnitude: `n` units of `2^s` stand at the magnitude `s * 2^f + n`, the carry into the
next exponent included. -/
theorem gridValue_add (hn : n ≤ 2 * 2 ^ f) (hs : s = 0 ∨ 2 ^ f ≤ n) : gridValue f (s * 2 ^ f + n) = n * 2 ^ s := by
  have hF : 0 < 2 ^ f := Nat.two_pow_pos f
  have hdiv : (s * 2 ^ f + n) / 2 ^ f = s + n / 2 ^ f := by
    rw [Nat.add_comm, Nat.add_mul_div_right _ _ hF, Nat.add_comm]
  have hmod : (s * 2 ^ f + n) % 2 ^ f = n % 2 ^ f := by rw [Nat.add_comm, Nat.add_mul_mod_self_right]
  rw [gridValue, hdiv, hmod]
  rcases lt_or_ge n (2 ^ f) with hlt | hge
  · obtain rfl : s = 0 := hs.resolve_right (not_le.2 hlt)
    simp [Nat.div_eq_of_lt hlt, Nat.mod_eq_of_lt hlt]
  rcases hn.eq_or_lt with rfl | hlt
  · rw [Nat.mul_div_cancel _ hF, Nat.mul_mod_left, if_neg (by omega), Nat.add_zero, Nat.add_sub_assoc (by decide),
      pow_succ]
    ring
  · have hone : n / 2 ^ f = 1 := Nat.div_eq_of_lt_le (by omega) (by omega)
    have hrem : n % 2 ^ f = n - 2 ^ f := by rw [Nat.mod_eq_sub_mod hge, Nat.mod_eq_of_lt (by omega)]
    rw [hone, hrem, if_neg (by omega), Nat.add_sub_cancel, Nat.add_sub_cancel' hge]

/-- From `2^(f+s)` on every value is a multiple of `2^s`. -/
theorem gridValue_multiple_or_le (f s c : Nat) :
    (∃ j, gridValue f c = j * 2 ^ s) ∨ gridValue f c ≤ 2 ^ f * 2 ^ s := by
  have hmod : c % 2 ^ f < 2 ^ f := Nat.mod_lt c (Nat.two_pow_pos f)
  unfold gridValue
  split
  · exact .inr (hmod.le.trans (Nat.le_mul_of_pos_right _ (Nat.two_pow_pos s)))
  rcases Nat.lt_or_ge (c / 2 ^ f - 1) s with hlt | hle
  · right
    calc (2 ^ f + c % 2 ^ f) * 2 ^ (c / 2 ^ f - 1)
        ≤ (2 ^ f * 2) * 2 ^ (c / 2 ^ f - 1) := Nat.mul_le_mul_right _ (by omega)
      _ = 2 ^ f * 2 ^ (c / 2 ^ f - 1 + 1) := by rw [pow_succ]; ring
      _ ≤ 2 ^ f * 2 ^ s := Nat.mul_le_mul_left _ (Nat.pow_le_pow_right (by decide) hlt)
  · refine .inl ⟨(2 ^ f + c % 2 ^ f) * 2 ^ (c / 2 ^ f - 1 - s), ?_⟩
    rw [Nat.mul_assoc, ← pow_add, Nat.sub_add_cancel hle]

end

/-- `z` is the value of a pattern of either sign, in units of the smallest subnormal. -/
def OnGrid (f : Nat) (z : ℚ) : Prop := ∃ c, |z| = gridValue f c

theorem onGrid_signedQ {f : Nat} (neg : Bool) (c : Nat) : OnGrid f (signedQ neg (gridValue f c)) :=
  ⟨c, by rw [abs_signedQ, abs_of_nonneg (Nat.cast_nonneg _)]⟩

theorem onGrid_val32 (w : Word) : OnGrid 23 (val32 w * 2 ^ 149) := by
  rw [val32_eq, div_mul_cancel₀ _ (by positivity)]
  exact onGrid_signedQ _ _

theorem onGrid_val16 (g : Half) : OnGrid 10 (val16 g * 2 ^ 24) := by
  rw [val16_eq, div_mul_cancel₀ _ (by positivity)]
  exact onGrid_signedQ _ _

/-! ### Rounding to nearest, ties to even -/

/-- `n` units of `2^s` are the nonnegative `x` rounded to nearest, ties to even, where `2^s` is the spacing that `f`
fraction bits leave at `x`: `x` lies in the binade of `s`, or below it if `s` is the least (R101). -/
structure RoundsAt (f : Nat) (x : ℚ) (s n : Nat) : Prop where
  near : |n * 2 ^ s - x| ≤ 2 ^ s / 2
  even : |n * 2 ^ s - x| = 2 ^ s / 2 → n % 2 = 0
  below : x < 2 * 2 ^ f * 2 ^ s
  above : s = 0 ∨ 2 ^ f * 2 ^ s ≤ x

section
variable {f s n : Nat} {x : ℚ}

/-- Rounding the quotient of integers: `x` is `m / 2^k` units of `2^s`. -/
theorem roundsAt_nearestEven {m k : Nat} (hx : x * 2 ^ k = m * 2 ^ s) (hbelow : m < 2 * 2 ^ f * 2 ^ k)
    (habove : s = 0 ∨ 2 ^ f * 2 ^ k ≤ m) : RoundsAt f x s (nearestEven m k) := by
  obtain ⟨hlo, hhi, htie⟩ := nearestEven_spec m k
  generalize nearestEven m k = n at *
  have hk : (0 : ℚ) < 2 ^ k := by positivity
  have hs : (0 : ℚ) < 2 ^ s := by positivity
  -- in units of `2^s / 2^k` the distance is that of integers
  have hdist : (n * 2 ^ s - x) * 2 ^ k = (n * 2 ^ k - m) * 2 ^ s := by rw [sub_mul, hx]; ring
  have habs : |n * 2 ^ s - x| * 2 ^ k = |(n * 2 ^ k - m : ℚ)| * 2 ^ s := by
    rw [← abs_of_pos hk, ← abs_mul, hdist, abs_mul, abs_of_pos hs, abs_of_pos hk]
  have hlo' : (2 * m : ℚ) ≤ 2 * (n * 2 ^ k) + 2 ^ k := mod_cast hlo
  have hhi' : (2 * (n * 2 ^ k) : ℚ) ≤ 2 * m + 2 ^ k := mod_cast hhi
  have hint : |(n * 2 ^ k - m : ℚ)| ≤ 2 ^ k / 2 := abs_le.2 ⟨by linarith, by linarith⟩
  refine ⟨?_, fun heq => htie ?_, ?_, habove.imp_right fun h => ?_⟩
  · refine le_of_mul_le_mul_right ?_ hk
    rw [habs]
    calc |(n * 2 ^ k - m : ℚ)| * 2 ^ s ≤ 2 ^ k / 2 * 2 ^ s := mul_le_mul_of_nonneg_right hint hs.le
      _ = 2 ^ s / 2 * 2 ^ k := by ring
  · rw [heq] at habs
    have hhalf : |(n * 2 ^ k - m : ℚ)| = 2 ^ k / 2 := mul_right_cancel₀ hs.ne' (by rw [← habs]; ring)
    rcases (abs_eq (by positivity)).1 hhalf with h | h
    · right
      have : (2 * (n * 2 ^ k) : ℚ) = 2 * m + 2 ^ k := by linarith
      exact mod_cast this
    · left
      have : (2 * m : ℚ) = 2 * (n * 2 ^ k) + 2 ^ k := by linarith
      exact mod_cast this
  · refine lt_of_mul_lt_mul_right ?_ hk.le
    rw [hx]
    have : (m : ℚ) < 2 * 2 ^ f * 2 ^ k := mod_cast hbelow
    calc (m : ℚ) * 2 ^ s < 2 * 2 ^ f * 2 ^ k * 2 ^ s := mul_lt_mul_of_pos_right this hs
      _ = 2 * 2 ^ f * 2 ^ s * 2 ^ k := by ring
  · refine le_of_mul_le_mul_right ?_ hk
    rw [hx]
    have : (2 ^ f * 2 ^ k : ℚ) ≤ m := mod_cast h
    calc (2 ^ f * 2 ^ s * 2 ^ k : ℚ) = 2 ^ f * 2 ^ k * 2 ^ s := by ring
      _ ≤ m * 2 ^ s := mul_le_mul_of_nonneg_right this hs.le

/-- A whole number of units is not changed. -/
theorem roundsAt_exact (hn : n < 2 * 2 ^ f) (hs : s = 0 ∨ 2 ^ f ≤ n) : RoundsAt f (n * 2 ^ s) s n := by
  have h := roundsAt_nearestEven (f := f) (k := 0) (m := n) (s := s) (x := n * 2 ^ s) (by simp) (by simpa using hn)
    (by simpa using hs)
  have hexact : nearestEven n 0 = n := by simpa using nearestEven_exact n 0
  rwa [hexact] at h

namespace RoundsAt

theorem le (h : RoundsAt f x s n) : n ≤ 2 * 2 ^ f := by
  have hs : (0 : ℚ) < 2 ^ s := by positivity
  have hnear := (abs_le.1 h.near).2
  have hlt : (n : ℚ) * 2 ^ s < (2 * 2 ^ f + 1) * 2 ^ s := by linarith [h.below]
  have hn : (n : ℚ) < 2 * 2 ^ f + 1 := lt_of_mul_lt_mul_right hlt hs.le
  have : n < 2 * 2 ^ f + 1 := mod_cast hn
  omega

theorem ge (h : RoundsAt f x s n) : s = 0 ∨ 2 ^ f ≤ n := by
  refine h.above.imp_right fun habove => ?_
  have hs : (0 : ℚ) < 2 ^ s := by positivity
  have hnear := (abs_le.1 h.near).1
  have hlt : (2 ^ f : ℚ) * 2 ^ s < (n + 1) * 2 ^ s := by linarith
  have hn : (2 ^ f : ℚ) < n + 1 := lt_of_mul_lt_mul_right hlt hs.le
  have : 2 ^ f < n + 1 := mod_cast hn
  omega

theorem gridValue_eq (h : RoundsAt f x s n) : (gridValue f (s * 2 ^ f + n) : ℚ) = n * 2 ^ s := by
  rw [gridValue_add h.le h.ge]
  push_cast
  rfl

/-- No multiple of the unit is nearer, and of two equally near ones `n` is the even one. -/
theorem nearest_multiple (h : RoundsAt f x s n) (j : ℤ) :
    |n * 2 ^ s - x| ≤ |j * 2 ^ s - x| ∧
    (|j * 2 ^ s - x| = |n * 2 ^ s - x| → (j : ℚ) * 2 ^ s = n * 2 ^ s ∨ n % 2 = 0) := by
  by_cases hj : j = n
  · subst hj
    exact ⟨le_rfl, fun _ => .inl rfl⟩
  have hs : (0 : ℚ) < 2 ^ s := by positivity
  have hone : (1 : ℚ) ≤ |(j - n : ℚ)| := by
    have : 1 ≤ |j - n| := Int.one_le_abs (sub_ne_zero.2 hj)
    exact mod_cast this
  have hgap : (2 : ℚ) ^ s ≤ |j * 2 ^ s - x| + |n * 2 ^ s - x| :=
    calc (2 : ℚ) ^ s ≤ |(j - n : ℚ)| * 2 ^ s := le_mul_of_one_le_left hs.le hone
      _ = |(j * 2 ^ s - x) - (n * 2 ^ s - x)| := by rw [← abs_of_pos hs, ← abs_mul, abs_of_pos hs]; ring_nf
      _ ≤ _ := abs_sub _ _
  have hnear := h.near
  exact ⟨by linarith, fun heq => .inr (h.even (by linarith))⟩

/-- No value of the format is nearer, and of two equally near ones `n` units are the even one: the values that are no
multiples of the unit lie below the binade of `x`. -/
theorem nearest (h : RoundsAt f x s n) {z : ℚ} (hz : OnGrid f z) :
    |n * 2 ^ s - x| ≤ |z - x| ∧ (|z - x| = |n * 2 ^ s - x| → z = n * 2 ^ s ∨ n % 2 = 0) := by
  obtain ⟨c, hc⟩ := hz
  have hcases : (∃ j : Nat, |z| = j * 2 ^ s) ∨ (|z| ≤ 2 ^ f * 2 ^ s ∧ 2 ^ f * 2 ^ s ≤ x) := by
    rcases h.above with rfl | habove
    · exact .inl ⟨_, by rw [hc, pow_zero, mul_one]⟩
    · rw [hc]
      rcases gridValue_multiple_or_le f s c with ⟨j, hj⟩ | hle
      · exact .inl ⟨j, mod_cast hj⟩
      · exact .inr ⟨mod_cast hle, habove⟩
  rcases hcases with ⟨j, hj⟩ | ⟨hle, habove⟩
  · rcases abs_choice z with habs | habs
    · have hz : z = ((j : ℤ) : ℚ) * 2 ^ s := by rw [← habs, hj, Int.cast_natCast]
      exact hz ▸ h.nearest_multiple j
    · have hz : z = ((-j : ℤ) : ℚ) * 2 ^ s := by push_cast; linarith
      exact hz ▸ h.nearest_multiple (-j)
  · obtain ⟨hnear, htie⟩ := h.nearest_multiple (2 ^ f)
    push_cast at hnear htie
    have hz : z ≤ 2 ^ f * 2 ^ s := (le_abs_self z).trans hle
    rw [abs_of_nonpos (a := 2 ^ f * 2 ^ s - x) (by linarith)] at hnear htie
    rw [abs_of_nonpos (a := z - x) (by linarith)]
    refine ⟨by linarith, fun heq => ?_⟩
    obtain rfl : z = 2 ^ f * 2 ^ s := by linarith
    exact htie heq

/-- With `2^S` the unit of the last binade, the magnitude is that of infinity or above exactly when the rounded value is
the end of that binade or above. -/
theorem overflow_iff_value (h : RoundsAt f x s n) (S : Nat) :
    (S + 2) * 2 ^ f ≤ s * 2 ^ f + n ↔ 2 * 2 ^ f * 2 ^ S ≤ n * 2 ^ s := by
  have hF : 0 < 2 ^ f := Nat.two_pow_pos f
  have hle := h.le
  rcases Nat.lt_trichotomy s S with hlt | rfl | hgt
  · have hpow : 2 ^ s < 2 ^ S := Nat.pow_lt_pow_right (by decide) hlt
    have hmul : (s + 1) * 2 ^ f ≤ S * 2 ^ f := Nat.mul_le_mul_right _ hlt
    refine iff_of_false (by rw [Nat.add_mul] at *; omega) (Nat.not_le.2 ?_)
    calc n * 2 ^ s ≤ 2 * 2 ^ f * 2 ^ s := Nat.mul_le_mul_right _ hle
      _ < 2 * 2 ^ f * 2 ^ S := Nat.mul_lt_mul_of_pos_left hpow (by omega)
  · rw [Nat.mul_le_mul_right_iff (Nat.two_pow_pos s), Nat.add_mul]
    omega
  · have hge : 2 ^ f ≤ n := h.ge.resolve_left (by omega)
    have hmul : (S + 1) * 2 ^ f ≤ s * 2 ^ f := Nat.mul_le_mul_right _ hgt
    refine iff_of_true (by rw [Nat.add_mul] at *; omega) ?_
    calc 2 * 2 ^ f * 2 ^ S = 2 ^ f * 2 ^ (S + 1) := by rw [pow_succ]; ring
      _ ≤ n * 2 ^ s := Nat.mul_le_mul hge (Nat.pow_le_pow_right (by decide) hgt)

/-- Where rounding overflows: from half a unit below the end of the last binade on. The tie there goes to the end, since
the largest finite magnitude is odd. -/
theorem overflow_iff (h : RoundsAt f x s n) (S : Nat) :
    (S + 2) * 2 ^ f ≤ s * 2 ^ f + n ↔ 2 * 2 ^ f * 2 ^ S - 2 ^ S / 2 ≤ x := by
  have hS : (0 : ℚ) < 2 ^ S := by positivity
  have hF : (1 : ℚ) ≤ 2 ^ f := one_le_pow₀ (by norm_num)
  have hFS : (2 : ℚ) ^ S ≤ 2 ^ f * 2 ^ S := le_mul_of_one_le_left hS.le hF
  have hbelow := h.below
  obtain ⟨hlo, hhi⟩ := abs_le.1 h.near
  rw [h.overflow_iff_value]
  rcases Nat.lt_trichotomy s S with hlt | rfl | hgt
  · have hpow : (2 : ℚ) ^ s * 2 ≤ 2 ^ S := by
      rw [← pow_succ]
      exact pow_le_pow_right₀ (by norm_num) hlt
    have hmul : (2 : ℚ) ^ f * (2 ^ s * 2) ≤ 2 ^ f * 2 ^ S := mul_le_mul_of_nonneg_left hpow (by linarith)
    refine iff_of_false (fun hle => ?_) (by linarith)
    have : (2 * 2 ^ f * 2 ^ S : ℚ) ≤ n * 2 ^ s := mod_cast hle
    linarith
  · refine ⟨fun hle => ?_, fun hle => ?_⟩
    · have : (2 * 2 ^ f * 2 ^ s : ℚ) ≤ n * 2 ^ s := mod_cast hle
      linarith
    · by_contra hlt
      have hn : n + 1 ≤ 2 * 2 ^ f := lt_of_mul_lt_mul_right (Nat.not_le.1 hlt) (Nat.zero_le _)
      have hn' : ((n + 1 : Nat) : ℚ) * 2 ^ s ≤ 2 * 2 ^ f * 2 ^ s := mul_le_mul_of_nonneg_right (mod_cast hn) hS.le
      push_cast at hn'
      have htie : (n : ℚ) * 2 ^ s - x = -(2 ^ s / 2) := by linarith
      have heven := h.even (by rw [htie, abs_neg, abs_of_pos (by linarith)])
      have hodd : (n + 1 : ℚ) * 2 ^ s = 2 * 2 ^ f * 2 ^ s := by linarith
      have hodd' : (n + 1 : ℚ) = 2 * 2 ^ f := mul_right_cancel₀ hS.ne' hodd
      have : n + 1 = 2 * 2 ^ f := mod_cast hodd'
      omega
  · have hpow : (2 : ℚ) ^ S * 2 ≤ 2 ^ s := by
      rw [← pow_succ]
      exact pow_le_pow_right₀ (by norm_num) hgt
    have hmul : (2 : ℚ) ^ f * (2 ^ S * 2) ≤ 2 ^ f * 2 ^ s := mul_le_mul_of_nonneg_left hpow (by linarith)
    have habove := h.above.resolve_left (by omega)
    refine iff_of_true ?_ (by linarith)
    have hge : 2 ^ f ≤ n := h.ge.resolve_left (by omega)
    calc 2 * 2 ^ f * 2 ^ S = 2 ^ f * 2 ^ (S + 1) := by rw [pow_succ]; ring
      _ ≤ n * 2 ^ s := Nat.mul_le_mul hge (Nat.pow_le_pow_right (by decide) hgt)

/-- `nearest` for numbers of either sign, and values in units of `1/u`. -/
theorem nearest_signed {x u : ℚ} (hu : 0 < u) (h : RoundsAt f (|x| * u) s n) {neg : Bool} (hx : x = signedQ neg |x|)
    {z : ℚ} (hz : OnGrid f (z * u)) :
    |signedQ neg (n * 2 ^ s) / u - x| ≤ |z - x| ∧
    (|z - x| = |signedQ neg (n * 2 ^ s) / u - x| → z = signedQ neg (n * 2 ^ s) / u ∨ n % 2 = 0) := by
  obtain ⟨c, hc⟩ := hz
  obtain ⟨hnear, htie⟩ := h.nearest (z := signedQ neg (z * u)) ⟨c, by rw [abs_signedQ, hc]⟩
  have hdist (y : ℚ) : |signedQ neg y / u - x| = |y - |x| * u| / u := by
    have hxu : x = signedQ neg (|x| * u) / u := by
      rw [signedQ_div, mul_div_cancel_right₀ _ hu.ne', ← hx]
    conv_lhs => rw [hxu, ← sub_div, signedQ_sub, abs_div, abs_signedQ, abs_of_pos hu]
  have hzu : z = signedQ neg (signedQ neg (z * u)) / u := by
    rw [signedQ_signedQ, mul_div_cancel_right₀ _ hu.ne']
  rw [hzu, hdist, hdist, div_le_div_iff_of_pos_right hu, div_left_inj' hu.ne', div_left_inj' hu.ne']
  refine ⟨hnear, fun heq => (htie heq).imp_left fun h => by rw [h]⟩

end RoundsAt

end

/-! ### `round32` -/

/-- Exponent and significand as `packMagnitude` joins them (R101). -/
theorem packMagnitude_eq {n s : Nat} {e : Int} (he : e = s - 126) (hn : n ≤ 2 * 2 ^ 23) (hs : s = 0 ∨ 2 ^ 23 ≤ n) :
    packMagnitude n e = s * 2 ^ 23 + n := by
  subst he
  unfold packMagnitude
  split_ifs <;> omega

/-- The pattern of sign `neg` and the magnitude of `n` units of `2^s`, or infinity if that is beyond. -/
def packRounded (neg : Bool) (s n : Nat) : Word := withSign neg (min (s * 2 ^ 23 + n) (255 * 2 ^ 23))

/-- The exponent that `round32` gives `m * 2^t` (R101). -/
def roundExponent (m : Nat) (t : Int) : Int := max ((Nat.log2 m : Int) + t) (-126)

/-- The significand that `round32` gives `m * 2^t` (R101). -/
def roundSignificand (m : Nat) (t : Int) : Nat :=
  if roundExponent m t - 23 - t ≤ 0 then m * 2 ^ (-(roundExponent m t - 23 - t)).toNat
  else nearestEven m (roundExponent m t - 23 - t).toNat

theorem round32_eq (neg : Bool) (m : Nat) (t : Int) :
    round32 neg m t =
      if 2 ^ 277 ≤ roundSignificand m t * 2 ^ (roundExponent m t + 126).toNat then withSign neg 0x7F800000
      else withSign neg (packMagnitude (roundSignificand m t) (roundExponent m t)) := rfl

/-- The significand is the rounded one in the units of the exponent: exact where they are no coarser than `2^t`. -/
theorem roundSignificand_roundsAt {m : Nat} (hm : m ≠ 0) (t : Int) :
    RoundsAt 23 (m * 2 ^ (t + 149)) (roundExponent m t + 126).toNat (roundSignificand m t) := by
  have hlo := Nat.log2_self_le hm
  have hhi := Nat.lt_log2_self (n := m)
  unfold roundSignificand
  generalize he : roundExponent m t = e
  rw [roundExponent] at he
  have hs : (((e + 126).toNat : Nat) : Int) = e + 126 := by omega
  generalize (e + 126).toNat = s at hs
  have hbinade : s = 0 ∨ e = m.log2 + t := by omega
  split
  case isTrue hk =>
    obtain ⟨j, hj⟩ : ∃ j : Nat, -(e - 23 - t) = j := ⟨_, (Int.toNat_of_nonneg (by omega)).symm⟩
    rw [hj, Int.toNat_natCast]
    have hx : (m : ℚ) * 2 ^ (t + 149) = ((m * 2 ^ j : Nat) : ℚ) * 2 ^ s := by
      push_cast
      rw [mul_assoc, ← pow_add, ← zpow_natCast]
      congr 2
      push_cast
      omega
    rw [hx]
    refine roundsAt_exact ?_ (hbinade.imp_right fun h => ?_)
    · calc m * 2 ^ j < 2 ^ (m.log2 + 1) * 2 ^ j := Nat.mul_lt_mul_of_pos_right hhi (Nat.two_pow_pos j)
        _ = 2 ^ (m.log2 + 1 + j) := (pow_add _ _ _).symm
        _ ≤ 2 ^ 24 := Nat.pow_le_pow_right (by decide) (by omega)
    · calc 2 ^ 23 ≤ 2 ^ (m.log2 + j) := Nat.pow_le_pow_right (by decide) (by omega)
        _ = 2 ^ m.log2 * 2 ^ j := pow_add _ _ _
        _ ≤ m * 2 ^ j := Nat.mul_le_mul_right _ hlo
  case isFalse hk =>
    obtain ⟨k, hk⟩ : ∃ k : Nat, e - 23 - t = k := ⟨_, (Int.toNat_of_nonneg (by omega)).symm⟩
    rw [hk, Int.toNat_natCast]
    refine roundsAt_nearestEven ?_ ?_ (hbinade.imp_right fun h => ?_)
    · rw [mul_assoc, ← zpow_natCast, ← zpow_natCast, ← zpow_add₀ two_ne_zero]
      congr 2
      omega
    · calc m < 2 ^ (m.log2 + 1) := hhi
        _ ≤ 2 ^ (24 + k) := Nat.pow_le_pow_right (by decide) (by omega)
        _ = 2 * 2 ^ 23 * 2 ^ k := by rw [pow_add]; rfl
    · calc 2 ^ 23 * 2 ^ k = 2 ^ (23 + k) := (pow_add _ _ _).symm
        _ ≤ 2 ^ m.log2 := Nat.pow_le_pow_right (by decide) (by omega)
        _ ≤ m := hlo

/-- `round32` rounds once, to nearest with ties to even, and packs the result (R101). -/
theorem round32_roundsAt (neg : Bool) {m : Nat} (hm : m ≠ 0) (t : Int) :
    ∃ s n, RoundsAt 23 (m * 2 ^ (t + 149)) s n ∧ round32 neg m t = packRounded neg s n := by
  have hr := roundSignificand_roundsAt hm t
  have hs : roundExponent m t = (roundExponent m t + 126).toNat - 126 := by unfold roundExponent; omega
  have hover := hr.overflow_iff_value 253
  refine ⟨_, _, hr, ?_⟩
  rw [round32_eq, packRounded, packMagnitude_eq hs hr.le hr.ge]
  have hend : 2 * 2 ^ 23 * 2 ^ 253 = 2 ^ 277 := by rw [← pow_succ', ← pow_add]
  rw [hend] at hover
  split_ifs with h
  · exact congrArg (withSign neg) (min_eq_right (hover.2 h)).symm
  · rw [min_eq_left (by omega)]

section
variable {neg : Bool} {s n : Nat} {x : ℚ}

@[simp] theorem signF_packRounded : signF (packRounded neg s n) = neg := signF_withSign neg (by omega)

theorem magF_packRounded : magF (packRounded neg s n) = min (s * 2 ^ 23 + n) (255 * 2 ^ 23) :=
  magF_withSign neg (by omega)

@[simp] theorem isNaN_packRounded : isNaN (packRounded neg s n) = false := by
  rw [Bool.eq_false_iff, ne_eq, isNaN_iff, magF_packRounded]
  omega

/-- Below the threshold the packed result is finite and has the rounded value. -/
theorem val32_packRounded (h : RoundsAt 23 x s n) (hfin : s * 2 ^ 23 + n < 255 * 2 ^ 23) :
    isFinite (packRounded neg s n) = true ∧ val32 (packRounded neg s n) = signedQ neg (n * 2 ^ s) / 2 ^ 149 := by
  rw [isFinite_iff, val32_eq, signF_packRounded, magF_packRounded, min_eq_left hfin.le, h.gridValue_eq]
  exact ⟨hfin, rfl⟩

/-- Rounding the magnitude of `x` and packing it with the sign of `x` is what R101 asks. -/
theorem correctlyRounded_packRounded (h : RoundsAt 23 (|x| * 2 ^ 149) s n) (hx : x = signedQ neg |x|) :
    correctlyRounded x (packRounded neg s n) := by
  have hover := h.overflow_iff 253
  have hthreshold : (2 * 2 ^ 23 * 2 ^ 253 - 2 ^ 253 / 2 : ℚ) = (2 ^ 128 - 2 ^ 103) * 2 ^ 149 := by norm_num
  rw [hthreshold, mul_le_mul_iff_left₀ (by positivity)] at hover
  refine ⟨fun hlt => ?_, fun hge => ?_⟩
  · have hfin : s * 2 ^ 23 + n < 255 * 2 ^ 23 := by
      rw [← not_le] at hlt ⊢
      exact fun hle => hlt (hover.1 hle)
    obtain ⟨hfinite, hval⟩ := val32_packRounded (neg := neg) h hfin
    refine ⟨hfinite, fun w _ => ?_⟩
    obtain ⟨hnear, htie⟩ := h.nearest_signed (by positivity) hx (onGrid_val32 w)
    rw [hval]
    refine ⟨hnear, fun heq => (htie heq).imp_right fun heven => ?_⟩
    rw [getLsbD_zero_eq_false_iff, magF_packRounded, min_eq_left hfin.le]
    omega
  · have hpos : x ≠ 0 := by
      rintro rfl
      norm_num at hge
    rw [packRounded, min_eq_right (hover.2 hge), eq_decide_of_eq_signedQ_abs hpos hx]
    by_cases h0 : x < 0 <;> simp [h0, withSign]

end

end Sys2Proof.Machine
end

section
/-! PROOFS. Arithmetic in terms of rounding: integers, products, sums and differences of finite patterns, infinities and
NaNs (O21, O22, O23). -/

namespace Sys2Proof.Machine

/-! ### Values that are not changed by rounding -/

/-- An integer of at most 24 bits times a power of two is the value of a magnitude. -/
theorem exists_gridValue_eq (s : Nat) {m : Nat} (hm : m ≤ 2 * 2 ^ 23) :
    ∃ c, c ≤ (s + 2) * 2 ^ 23 ∧ gridValue 23 c = m * 2 ^ s := by
  induction s generalizing m with
  | zero => exact ⟨m, by omega, by simpa using gridValue_add (s := 0) hm (.inl rfl)⟩
  | succ s ih =>
    rcases Nat.lt_or_ge m (2 ^ 23) with hlt | hge
    · obtain ⟨c, hc, hval⟩ := ih (m := 2 * m) (by omega)
      exact ⟨c, hc.trans (Nat.mul_le_mul_right _ (by omega)), by rw [hval, pow_succ]; ring⟩
    · exact ⟨(s + 1) * 2 ^ 23 + m, by rw [Nat.add_mul (s + 1)]; omega, gridValue_add (f := 23) hm (.inr hge)⟩

/-- If `x` is the value of a pattern far enough below the largest, then `x` correctly rounded is `x`. -/
theorem val32_eq_of_correctlyRounded {x : ℚ} {r : Word} {m s : Nat} (hm : m ≤ 2 * 2 ^ 23) (hs : s ≤ 252)
    (hx : |x| * 2 ^ 149 = m * 2 ^ s) (h : correctlyRounded x r) : isFinite r = true ∧ val32 r = x := by
  obtain ⟨c, hc, hval⟩ := exists_gridValue_eq s hm
  have hfin : c < 255 * 2 ^ 23 := by omega
  have hbound : |x| < 2 ^ 128 - 2 ^ 103 := by
    refine lt_of_mul_lt_mul_right (a := 2 ^ 149) ?_ (by positivity)
    rw [hx]
    calc (m : ℚ) * 2 ^ s ≤ (2 * 2 ^ 23) * 2 ^ 252 :=
          mul_le_mul (mod_cast hm) (pow_le_pow_right₀ (by norm_num) hs) (by positivity) (by positivity)
      _ < _ := by norm_num
  obtain ⟨hfinite, hnear⟩ := h.1 hbound
  have hw : isFinite (withSign (decide (x < 0)) c) = true := by rwa [isFinite_iff, magF_withSign _ (by omega)]
  have hvalw : val32 (withSign (decide (x < 0)) c) = x := by
    have hcast : (gridValue 23 c : ℚ) = |x| * 2 ^ 149 := by
      rw [hval, hx]
      push_cast
      rfl
    rw [val32_eq, signF_withSign _ (by omega), magF_withSign _ (by omega), hcast, signedQ_div,
      mul_div_cancel_right₀ _ (by positivity), ← eq_signedQ_abs]
  have hle := (hnear _ hw).1
  rw [hvalw, sub_self, abs_zero] at hle
  exact ⟨hfinite, sub_eq_zero.1 (abs_nonpos_iff.1 hle)⟩

theorem roundsAt_zero : RoundsAt 23 0 0 0 := by
  simpa using roundsAt_exact (f := 23) (s := 0) (n := 0) (by decide) (.inl rfl)

theorem correctlyRounded_zero (neg : Bool) : correctlyRounded 0 (packRounded neg 0 0) :=
  correctlyRounded_packRounded (by simpa using roundsAt_zero) (by cases neg <;> simp [signedQ])

/-- The exact nonzero result `x`, handed to `round32` as an integer of some power of two, is rounded once. -/
theorem round32_packRounded (neg : Bool) {z : Int} {k : Nat} {x : ℚ} (hz : z ≠ 0) (hx : (z : ℚ) = x * 2 ^ k) :
    ∃ s n, RoundsAt 23 (|x| * 2 ^ 149) s n ∧ round32 neg z.natAbs (-k) = packRounded neg s n := by
  have hk : (0 : ℚ) < 2 ^ k := by positivity
  have hmag : (z.natAbs : ℚ) * 2 ^ (-(k : Int) + 149) = |x| * 2 ^ 149 := by
    rw [Nat.cast_natAbs, Int.cast_abs, hx, abs_mul, abs_of_pos hk, zpow_add₀ two_ne_zero, zpow_neg, zpow_natCast,
      ← mul_assoc, mul_inv_cancel_right₀ hk.ne']
    rfl
  have hr := round32_roundsAt neg (Int.natAbs_ne_zero.2 hz) (-k)
  rwa [hmag] at hr

/-! ### Integers (R102) -/

/-- `i2f` rounds every integer once; its result has the sign of the integer. -/
theorem i2f_packRounded (n : Int) :
    ∃ s k, RoundsAt 23 (|(n : ℚ)| * 2 ^ 149) s k ∧ i2f n = packRounded (decide (n < 0)) s k := by
  rcases i2f_cases n with ⟨rfl, h⟩ | ⟨hn, h⟩
  · exact ⟨0, 0, by simpa using roundsAt_zero, h⟩
  · obtain ⟨s, k, hr, hk⟩ := round32_packRounded (decide (n < 0)) (k := 0) hn (by rw [pow_zero, mul_one])
    exact ⟨s, k, hr, h.trans hk⟩

theorem correctlyRounded_i2f (n : Int) : correctlyRounded n (i2f n) := by
  obtain ⟨s, k, hr, h⟩ := i2f_packRounded n
  have hneg : decide ((n : ℚ) < 0) = decide (n < 0) := by simp
  rw [h]
  exact correctlyRounded_packRounded hr (hneg ▸ eq_signedQ_abs (n : ℚ))

theorem signF_i2f (n : Int) : signF (i2f n) = decide (n < 0) := by
  obtain ⟨s, k, -, h⟩ := i2f_packRounded n
  rw [h, signF_packRounded]

theorem val32_i2f {n : Int} (h : |n| ≤ 2 ^ 24) : isFinite (i2f n) = true ∧ val32 (i2f n) = n := by
  rw [Int.abs_eq_natAbs] at h
  refine val32_eq_of_correctlyRounded (m := n.natAbs) (s := 149) (by omega) (by decide) ?_ (correctlyRounded_i2f n)
  rw [Nat.cast_natAbs, Int.cast_abs]

/-! ### Zeros -/

theorem gridValue_eq_zero_iff (f c : Nat) : gridValue f c = 0 ↔ c = 0 := by
  have hF : 0 < 2 ^ f := Nat.two_pow_pos f
  have hpow : 0 < 2 ^ (c / 2 ^ f - 1) := Nat.two_pow_pos _
  unfold gridValue
  split
  case isTrue h => rw [Nat.mod_eq_of_lt (Nat.lt_of_div_eq_zero hF h)]
  case isFalse h =>
    have hc : c ≠ 0 := fun h0 => h (by rw [h0, Nat.zero_div])
    exact iff_of_false (Nat.mul_pos (by omega) hpow).ne' hc

theorem val32_eq_zero_iff (w : Word) : val32 w = 0 ↔ isZero w = true := by
  rw [isZero_iff, ← gridValue_eq_zero_iff 23, val32_eq, div_eq_zero_iff, ← abs_eq_zero, abs_signedQ, abs_eq_zero]
  simp

theorem scaledF_eq (w : Word) : (scaledF w : ℚ) = val32 w * 2 ^ 149 := by
  rw [val32, div_mul_cancel₀ _ (by positivity)]

theorem scaledF_eq_zero_iff (w : Word) : scaledF w = 0 ↔ isZero w = true := by
  rw [← val32_eq_zero_iff, val32, div_eq_zero_iff, Int.cast_eq_zero]
  simp

theorem scaledF_mul_ne_zero {a b : Word} (ha : isZero a = false) (hb : isZero b = false) :
    scaledF a * scaledF b ≠ 0 := by
  rw [mul_ne_zero_iff, ne_eq, ne_eq, scaledF_eq_zero_iff, scaledF_eq_zero_iff, ha, hb]
  decide

/-! ### Finite operands (R103, R105, R106) -/

section
variable (p : Params) {a b : Word}

/-- A product of finite patterns is the exact product rounded once, with the exclusive-or of the signs. -/
theorem fmul_packRounded (ha : isFinite a = true) (hb : isFinite b = true) :
    ∃ s n, RoundsAt 23 (|val32 a * val32 b| * 2 ^ 149) s n ∧ fmul p a b = packRounded (signF a ^^ signF b) s n := by
  have hnan := isNaN_eq_false_of_isFinite ha
  have hnan' := isNaN_eq_false_of_isFinite hb
  have hinf := isInf_eq_false_of_isFinite ha
  have hinf' := isInf_eq_false_of_isFinite hb
  rcases fmul_cases p a b with ⟨h, -⟩ | ⟨h, -⟩ | ⟨h, heq⟩ | ⟨-, -, -, -, hz, hz', heq⟩
  · simp [hnan, hnan', hinf, hinf'] at h
  · simp [hinf, hinf'] at h
  · have hzero : val32 a * val32 b = 0 := by
      rw [mul_eq_zero, val32_eq_zero_iff, val32_eq_zero_iff]
      exact h
    exact ⟨0, 0, by simpa [hzero] using roundsAt_zero, heq⟩
  · have hscaled : ((scaledF a * scaledF b : Int) : ℚ) = val32 a * val32 b * 2 ^ 298 := by
      rw [Int.cast_mul, scaledF_eq, scaledF_eq, mul_mul_mul_comm, ← pow_add]
    obtain ⟨s, n, hr, hs⟩ := round32_packRounded (signF a ^^ signF b) (scaledF_mul_ne_zero hz hz') hscaled
    exact ⟨s, n, hr, heq.trans hs⟩

theorem correctlyRounded_fmul (ha : isFinite a = true) (hb : isFinite b = true) :
    correctlyRounded (val32 a * val32 b) (fmul p a b) := by
  obtain ⟨s, n, hr, h⟩ := fmul_packRounded p ha hb
  rw [h]
  refine correctlyRounded_packRounded hr ?_
  rw [val32_eq, val32_eq, signedQ_div, signedQ_div, signedQ_mul, abs_signedQ, abs_of_nonneg (by positivity)]

/-- A sum of finite patterns is the exact sum rounded once; the sign of a zero sum is fixed. -/
theorem fadd_of_isFinite (ha : isFinite a = true) (hb : isFinite b = true) :
    correctlyRounded (val32 a + val32 b) (fadd p a b) ∧
    (val32 a + val32 b ≠ 0 → signF (fadd p a b) = decide (val32 a + val32 b < 0)) ∧
    (val32 a + val32 b = 0 →
      fadd p a b = if a = 0x80000000#32 ∧ b = 0x80000000#32 then 0x80000000#32 else 0x00000000#32) := by
  have hnan := isNaN_eq_false_of_isFinite ha
  have hnan' := isNaN_eq_false_of_isFinite hb
  have hinf := isInf_eq_false_of_isFinite ha
  have hinf' := isInf_eq_false_of_isFinite hb
  have hscaled : ((scaledF a + scaledF b : Int) : ℚ) = (val32 a + val32 b) * 2 ^ 149 := by
    rw [Int.cast_add, scaledF_eq, scaledF_eq, add_mul]
  rcases fadd_cases p a b with ⟨h, -⟩ | ⟨h, -⟩ | ⟨h, -⟩ | ⟨-, -, -, -, hne, heq⟩ | ⟨-, -, -, -, hzero, heq⟩
  · simp [hnan, hnan', hinf] at h
  · simp [hinf] at h
  · simp [hinf'] at h
  · have hval : val32 a + val32 b ≠ 0 := by
      rw [← Int.cast_ne_zero (α := ℚ), hscaled] at hne
      exact left_ne_zero_of_mul hne
    have hneg : decide (scaledF a + scaledF b < 0) = decide (val32 a + val32 b < 0) := by
      have hscale : (val32 a + val32 b) * 2 ^ 149 < 0 * 2 ^ 149 ↔ val32 a + val32 b < 0 :=
        mul_lt_mul_iff_left₀ (by positivity)
      rw [decide_eq_decide, ← hscale, zero_mul, ← hscaled, Int.cast_lt_zero]
    obtain ⟨s, n, hr, hs⟩ := round32_packRounded (decide (val32 a + val32 b < 0)) hne hscaled
    rw [heq, hneg, show (-149 : Int) = -(149 : Nat) from rfl, hs]
    exact ⟨correctlyRounded_packRounded hr (eq_signedQ_abs _), fun _ => signF_packRounded, fun h => absurd h hval⟩
  · have hval : val32 a + val32 b = 0 := by
      rw [hzero, Int.cast_zero, eq_comm, mul_eq_zero] at hscaled
      exact hscaled.resolve_right (by positivity)
    rw [heq, hval]
    refine ⟨?_, fun h => absurd rfl h, fun _ => rfl⟩
    split
    · exact correctlyRounded_zero true
    · exact correctlyRounded_zero false

end

/-! ### Differences (R106) -/

theorem val32_flip (b : Word) : val32 (b ^^^ 0x80000000#32) = -val32 b := by
  rw [val32_eq, val32_eq, signF_flip, magF_flip, ← neg_div]
  cases signF b <;> simp [signedQ]

theorem flip_eq_negZero_iff (b : Word) : b ^^^ 0x80000000#32 = 0x80000000#32 ↔ b = 0#32 := by
  have hzero : (0x80000000#32 : Word) = 0#32 ^^^ 0x80000000#32 := rfl
  refine ⟨fun h => ?_, fun h => h ▸ hzero.symm⟩
  exact (BitVec.xor_left_inj _).1 (h.trans hzero)

/-! ### Infinite operands (R103, R105) -/

/-- The two infinities differ in their sign. -/
theorem eq_iff_signF_of_isInf {a b : Word} (ha : isInf a = true) (hb : isInf b = true) : a = b ↔ signF a = signF b :=
  ⟨fun h => by rw [h], fun h => word_eq_of_signF_magF h (by rw [(isInf_iff a).1 ha, (isInf_iff b).1 hb])⟩

section
variable (p : Params) {a b : Word}

theorem fmul_of_isInf (ha : isNaN a = false) (hb : isNaN b = false) (hinf : isInf a = true ∨ isInf b = true)
    (hza : isZero a = false) (hzb : isZero b = false) :
    fmul p a b = if signF a ^^ signF b then 0xFF800000#32 else 0x7F800000#32 := by
  rcases fmul_cases p a b with ⟨h, -⟩ | ⟨-, h⟩ | ⟨h, -⟩ | ⟨-, -, h, h', -⟩
  · simp [ha, hb, hza, hzb] at h
  · rw [h]
    cases signF a ^^ signF b <;> rfl
  · simp [hza, hzb] at h
  · simp [h, h'] at hinf

theorem fadd_of_isInf_left (hb : isNaN b = false) (hinf : isInf a = true) (h : isInf b = true → a = b) :
    fadd p a b = a := by
  have ha := isNaN_eq_false_of_isInf hinf
  rcases fadd_cases p a b with ⟨hc, -⟩ | ⟨-, heq⟩ | ⟨hc, heq⟩ | ⟨-, -, hc, -⟩ | ⟨-, -, hc, -⟩
  · rcases hc with hc | hc | ⟨-, hc, hne⟩
    · simp [ha] at hc
    · simp [hb] at hc
    · exact absurd (h hc) hne
  · exact heq
  · rw [heq, h hc]
  · simp [hinf] at hc
  · simp [hinf] at hc

theorem fadd_of_isInf_right (ha : isNaN a = false) (hinf : isInf a = false) (hinf' : isInf b = true) :
    fadd p a b = b := by
  have hb := isNaN_eq_false_of_isInf hinf'
  rcases fadd_cases p a b with ⟨hc, -⟩ | ⟨hc, -⟩ | ⟨-, heq⟩ | ⟨-, -, -, hc, -⟩ | ⟨-, -, -, hc, -⟩
  · simp [ha, hb, hinf] at hc
  · simp [hinf] at hc
  · exact heq
  · simp [hinf'] at hc
  · simp [hinf'] at hc

end

/-! ### NaNs (R104) -/

/-- The operands of which `fmul` makes a NaN (R103). -/
def MulNaN (a b : Word) : Prop :=
  isNaN a = true ∨ isNaN b = true ∨ (isInf a = true ∧ isZero b = true) ∨ (isZero a = true ∧ isInf b = true)

/-- The operands of which `fadd` makes a NaN (R105). -/
def AddNaN (a b : Word) : Prop :=
  isNaN a = true ∨ isNaN b = true ∨ (isInf a = true ∧ isInf b = true ∧ signF a ≠ signF b)

section
variable (p : Params) {a b : Word}

theorem isNaN_withSign_inf (neg : Bool) : isNaN (withSign neg 0x7F800000) = false := by cases neg <;> decide

theorem isNaN_withSign_zero (neg : Bool) : isNaN (withSign neg 0) = false := by cases neg <;> decide

theorem isNaN_round32 (neg : Bool) {m : Nat} (hm : m ≠ 0) (t : Int) : isNaN (round32 neg m t) = false := by
  obtain ⟨s, n, -, h⟩ := round32_roundsAt neg hm t
  rw [h, isNaN_packRounded]

theorem isNaN_canonNan {p : Params} (hp : p.wf) : isNaN p.canonNan = true := by
  obtain ⟨-, -, hquiet, -⟩ := hp
  have hbits := congrArg BitVec.toNat hquiet
  rw [BitVec.extractLsb'_toNat, Nat.shiftRight_eq_div_pow] at hbits
  change _ = 511 at hbits
  rw [isNaN_iff, magF, expF_eq, fracF_eq]
  omega

theorem fmul_of_mulNaN (h : MulNaN a b) : fmul p a b = p.canonNan := by
  unfold fmul
  rcases h with h | h | ⟨h, h'⟩ | ⟨h, h'⟩
  · simp [h]
  · simp [h]
  · simp [h, h']
  · simp [h, h']

theorem isNaN_fmul_of_not_mulNaN (h : ¬ MulNaN a b) : isNaN (fmul p a b) = false := by
  rcases fmul_cases p a b with ⟨hc, -⟩ | ⟨-, heq⟩ | ⟨-, heq⟩ | ⟨-, -, -, -, hza, hzb, heq⟩
  · exact absurd hc h
  · rw [heq, isNaN_withSign_inf]
  · rw [heq, isNaN_withSign_zero]
  · rw [heq, isNaN_round32 _ (Int.natAbs_ne_zero.2 (scaledF_mul_ne_zero hza hzb))]

theorem fadd_of_addNaN (h : AddNaN a b) : fadd p a b = p.canonNan := by
  unfold fadd
  rcases h with h | h | ⟨ha, hb, hne⟩
  · simp [h]
  · simp [h]
  · have hab : a ≠ b := fun heq => hne (by rw [heq])
    simp [ha, hb, hab]

theorem isNaN_fadd_of_not_addNaN (h : ¬ AddNaN a b) : isNaN (fadd p a b) = false := by
  rcases fadd_cases p a b with ⟨hc, -⟩ | ⟨hinf, heq⟩ | ⟨hinf, heq⟩ | ⟨-, -, -, -, hne, heq⟩ | ⟨-, -, -, -, -, heq⟩
  · refine absurd (hc.imp_right (Or.imp_right ?_)) h
    exact fun ⟨ha, hb, hne⟩ => ⟨ha, hb, fun hs => hne ((eq_iff_signF_of_isInf ha hb).2 hs)⟩
  · rw [heq, isNaN_eq_false_of_isInf hinf]
  · rw [heq, isNaN_eq_false_of_isInf hinf]
  · rw [heq, isNaN_round32 _ (Int.natAbs_ne_zero.2 hne)]
  · rw [heq]
    split <;> decide

theorem fmul_comm (a b : Word) : fmul p a b = fmul p b a := by
  simp only [fmul, Bool.or_comm (isNaN b), Bool.or_comm (isInf b), Bool.or_comm (isZero b), Bool.xor_comm (signF b),
    Int.mul_comm (scaledF b), Bool.and_comm (isInf b), Bool.and_comm (isZero b), Bool.or_comm (isZero a && isInf b)]

theorem fadd_comm (a b : Word) : fadd p a b = fadd p b a := by
  by_cases hab : a = b
  · rw [hab]
  simp only [fadd, Bool.or_comm (isNaN b), Bool.and_comm (isInf b), Int.add_comm (scaledF b),
    and_comm (a := b = _), if_neg hab, if_neg (Ne.symm hab)]
  cases isInf a <;> cases isInf b <;> simp

/-- A NaN comes of the named operands only, and it is `CANON_NAN`. -/
theorem isNaN_fmul_iff (hp : p.wf) : isNaN (fmul p a b) = true ↔ MulNaN a b := by
  refine ⟨fun h => by_contra fun hno => ?_, fun h => ?_⟩
  · simp [isNaN_fmul_of_not_mulNaN p hno] at h
  · rw [fmul_of_mulNaN p h, isNaN_canonNan hp]

theorem isNaN_fadd_iff (hp : p.wf) : isNaN (fadd p a b) = true ↔ AddNaN a b := by
  refine ⟨fun h => by_contra fun hno => ?_, fun h => ?_⟩
  · simp [isNaN_fadd_of_not_addNaN p hno] at h
  · rw [fadd_of_addNaN p h, isNaN_canonNan hp]

theorem addNaN_flip_iff : AddNaN a (b ^^^ 0x80000000#32) ↔
    isNaN a = true ∨ isNaN b = true ∨ (isInf a = true ∧ isInf b = true ∧ signF a = signF b) := by
  rw [AddNaN, isNaN_flip, isInf_flip, signF_flip]
  cases signF a <;> cases signF b <;> simp

end

/-! ### The obligations -/

/-- Settles O21: an integer of at most 24 bits is a value of the format, so rounding does not change it. -/
theorem integerPatternsAreExact : Obligations.IntegerPatternsAreExact := by
  intro n h
  obtain ⟨hfinite, hval⟩ := val32_i2f h
  exact ⟨hfinite, hval, signF_i2f n, fun h0 => by rw [h0]; rfl⟩

/-- Settles O22: a difference is the sum with the flipped second operand. -/
theorem arithmeticIsCorrectlyRounded : Obligations.ArithmeticIsCorrectlyRounded := by
  intro p a b
  refine ⟨fun ha hb => ?_, fun ha hb => ⟨fmul_of_isInf p ha hb, fun hinf hinf' => ⟨?_, ?_⟩,
    fun hinf hinf' => ⟨?_, ?_⟩, fun hinf hinf' => ⟨fun hab => ?_, fun hab => ?_⟩⟩⟩
  · obtain ⟨s, n, -, hmul⟩ := fmul_packRounded p ha hb
    obtain ⟨hadd, haddSign, haddZero⟩ := fadd_of_isFinite p ha hb
    obtain ⟨hsub, hsubSign, hsubZero⟩ := fadd_of_isFinite p ha ((isFinite_flip b).trans hb)
    rw [val32_flip, ← sub_eq_add_neg] at hsub hsubSign hsubZero
    simp only [flip_eq_negZero_iff] at hsubZero
    exact ⟨correctlyRounded_fmul p ha hb, by rw [hmul, signF_packRounded], hadd, haddSign, haddZero, hsub, hsubSign,
      hsubZero⟩
  · exact fadd_of_isInf_left p hb hinf (by simp [hinf'])
  · exact fadd_of_isInf_left p ((isNaN_flip b).trans hb) hinf (by simp [isInf_flip, hinf'])
  · exact fadd_of_isInf_right p ha hinf hinf'
  · exact fadd_of_isInf_right p ha hinf ((isInf_flip b).trans hinf')
  · exact fadd_of_isInf_left p hb hinf fun _ => hab
  · refine fadd_of_isInf_left p ((isNaN_flip b).trans hb) hinf fun hinfb => ?_
    rw [ne_eq, eq_iff_signF_of_isInf hinf hinf'] at hab
    rw [eq_iff_signF_of_isInf hinf hinfb, signF_flip]
    exact Bool.eq_not.2 hab

/-- Settles O23: the operands that make a NaN are named by `MulNaN` and `AddNaN`, and of no others comes one. -/
theorem onlyTheNamedCasesGiveNaNAndItIsCanonical : Obligations.OnlyTheNamedCasesGiveNaNAndItIsCanonical := by
  intro p a b hp
  have hmul := isNaN_fmul_iff p (a := a) (b := b) hp
  have hadd := isNaN_fadd_iff p (a := a) (b := b) hp
  have hsub := isNaN_fadd_iff p (a := a) (b := b ^^^ 0x80000000#32) hp
  exact ⟨fmul_comm p a b, fadd_comm p a b, hmul, hadd, hsub.trans addNaN_flip_iff,
    fun h => fmul_of_mulNaN p (hmul.1 h), fun h => fadd_of_addNaN p (hadd.1 h), fun h => fadd_of_addNaN p (hsub.1 h)⟩

end Sys2Proof.Machine
end

section
/-! PROOFS. `h2f` keeps the value of a half, `e8m0h` gives a power of two, and products with a converted scale are exact
(O13, O17, O24). -/

namespace Sys2Proof.Machine

/-! ### The cases of `h2f` (R113, R114) -/

section
variable (p : Params) {h : Half}

theorem extractLsb'_exponent_eq_iff (v : BitVec 5) : h.extractLsb' 10 5 = v ↔ expH h = v.toNat := by
  rw [← BitVec.toNat_inj, expH]

theorem extractLsb'_fraction_eq_iff (v : BitVec 10) : h.extractLsb' 0 10 = v ↔ fracH h = v.toNat := by
  rw [← BitVec.toNat_inj, fracH]

theorem h2f_of_zero (he : expH h = 0) (hm : fracH h = 0) : h2f p h = packF (h.extractLsb' 15 1) 0#8 0#23 := by
  simp [h2f, extractLsb'_exponent_eq_iff, extractLsb'_fraction_eq_iff, he, hm]

theorem h2f_of_subnormal (he : expH h = 0) (hm : fracH h ≠ 0) :
    h2f p h = packF (h.extractLsb' 15 1) (BitVec.ofNat 8 (103 + (fracH h).log2))
      ((h.extractLsb' 0 10).setWidth 23 <<< (23 - (fracH h).log2)) := by
  have hfrac : (h.extractLsb' 0 10).toNat = fracH h := rfl
  simp [h2f, extractLsb'_exponent_eq_iff, extractLsb'_fraction_eq_iff, he, hm, hfrac]

theorem h2f_of_normal (he : expH h ≠ 0) (hfin : expH h ≠ 31) :
    h2f p h = packF (h.extractLsb' 15 1) ((h.extractLsb' 10 5).setWidth 8 + 112#8) (h.extractLsb' 0 10 ++ 0#13) := by
  simp [h2f, extractLsb'_exponent_eq_iff, he, hfin]

theorem h2f_of_inf (he : expH h = 31) (hm : fracH h = 0) : h2f p h = packF (h.extractLsb' 15 1) 0xFF#8 0#23 := by
  simp [h2f, extractLsb'_exponent_eq_iff, extractLsb'_fraction_eq_iff, he, hm]

/-- A NaN keeps its payload in the upper fraction bits, with the quiet bit set if `H2F_QUIET` (R114). -/
theorem h2f_of_nan (he : expH h = 31) (hm : fracH h ≠ 0) :
    h2f p h = packF (h.extractLsb' 15 1) 0xFF#8
      ((h.extractLsb' 0 10 ||| (if p.h2fQuiet then 0x200#10 else 0#10)) ++ 0#13) := by
  have hquiet (m : BitVec 10) : (m ++ 0#13) ||| 0x400000#23 = (m ||| 0x200#10) ++ 0#13 := by
    rw [show (0x400000#23 : BitVec 23) = 0x200#10 ++ 0#13 from rfl, BitVec.or_append]
    rfl
  simp only [h2f, extractLsb'_exponent_eq_iff, extractLsb'_fraction_eq_iff]
  rw [if_neg (by simp [hm]), if_neg (by simp [he]), if_neg (by simp [hm]), if_pos (by simp [he])]
  cases p.h2fQuiet
  · simp
  · simp [hquiet]

theorem h2f_cases (h : Half) :
    (expH h = 0 ∧ fracH h = 0) ∨ (expH h = 0 ∧ fracH h ≠ 0) ∨ (expH h ≠ 0 ∧ expH h ≠ 31) ∨
    (expH h = 31 ∧ fracH h = 0) ∨ (expH h = 31 ∧ fracH h ≠ 0) := by
  omega

theorem extractLsb'_sign_h2f (h : Half) : (h2f p h).extractLsb' 31 1 = h.extractLsb' 15 1 := by
  have hpack : ∃ e m, h2f p h = packF (h.extractLsb' 15 1) e m := by
    rcases h2f_cases h with ⟨he, hm⟩ | ⟨he, hm⟩ | ⟨he, hm⟩ | ⟨he, hm⟩ | ⟨he, hm⟩
    · exact ⟨_, _, h2f_of_zero p he hm⟩
    · exact ⟨_, _, h2f_of_subnormal p he hm⟩
    · exact ⟨_, _, h2f_of_normal p he hm⟩
    · exact ⟨_, _, h2f_of_inf p he hm⟩
    · exact ⟨_, _, h2f_of_nan p he hm⟩
  obtain ⟨e, m, hem⟩ := hpack
  rw [hem, extractLsb'_sign_packF]

theorem signF_h2f (h : Half) : signF (h2f p h) = h.getLsbD 15 := by
  rw [← getLsbD_extractLsb'_sign, extractLsb'_sign_h2f]
  simp

/-! ### The magnitude of `h2f` (R113) -/

/-- A normal half: the exponent is rebiased, the significand gets 13 more bits. -/
theorem magF_h2f_of_normal (he : expH h ≠ 0) (hfin : expH h ≠ 31) :
    magF (h2f p h) = (expH h + 111) * 2 ^ 23 + (2 ^ 10 + fracH h) * 2 ^ 13 := by
  have hlt := expH_lt h
  have hexp : ((h.extractLsb' 10 5).setWidth 8 + 112#8).toNat = expH h + 112 := by
    rw [BitVec.toNat_add, BitVec.toNat_setWidth]
    change (expH h % 2 ^ 8 + 112) % 2 ^ 8 = _
    omega
  have hfrac : (h.extractLsb' 0 10 ++ 0#13).toNat = fracH h * 2 ^ 13 :=
    (toNat_append_eq_add _ 0#13).trans (Nat.add_zero _)
  rw [h2f_of_normal p he hfin, magF_packF, hexp, hfrac]
  omega

/-- A subnormal half is normal as binary32: its fraction is shifted up to 24 bits. -/
theorem magF_h2f_of_subnormal (he : expH h = 0) (hm : fracH h ≠ 0) :
    magF (h2f p h) = (102 + (fracH h).log2) * 2 ^ 23 + fracH h * 2 ^ (23 - (fracH h).log2) ∧
    2 ^ 23 ≤ fracH h * 2 ^ (23 - (fracH h).log2) ∧ fracH h * 2 ^ (23 - (fracH h).log2) < 2 * 2 ^ 23 ∧
    (fracH h).log2 < 10 := by
  have hlo := Nat.log2_self_le hm
  have hhi := Nat.lt_log2_self (n := fracH h)
  have hlog : (fracH h).log2 < 10 := (Nat.log2_lt hm).2 (fracH_lt h)
  have hexp : (BitVec.ofNat 8 (103 + (fracH h).log2)).toNat = 103 + (fracH h).log2 := by
    rw [BitVec.toNat_ofNat]
    omega
  have hfrac : ((h.extractLsb' 0 10).setWidth 23 <<< (23 - (fracH h).log2)).toNat =
      fracH h * 2 ^ (23 - (fracH h).log2) % 2 ^ 23 := by
    have hwide : (h.extractLsb' 0 10).toNat % 2 ^ 23 = fracH h := Nat.mod_eq_of_lt ((fracH_lt h).trans (by decide))
    rw [BitVec.toNat_shiftLeft, BitVec.toNat_setWidth, Nat.shiftLeft_eq, hwide]
  rw [h2f_of_subnormal p he hm, magF_packF, hexp, hfrac]
  generalize (fracH h).log2 = l at *
  have hbelow : 2 ^ 23 ≤ fracH h * 2 ^ (23 - l) :=
    calc 2 ^ 23 = 2 ^ l * 2 ^ (23 - l) := by rw [← pow_add, Nat.add_sub_cancel' (by omega)]
      _ ≤ fracH h * 2 ^ (23 - l) := Nat.mul_le_mul_right _ hlo
  have habove : fracH h * 2 ^ (23 - l) < 2 * 2 ^ 23 :=
    calc fracH h * 2 ^ (23 - l) < 2 ^ (l + 1) * 2 ^ (23 - l) := Nat.mul_lt_mul_of_pos_right hhi (Nat.two_pow_pos _)
      _ = 2 ^ 24 := by rw [← pow_add]; congr 1; omega
  exact ⟨by omega, hbelow, habove, hlog⟩

theorem magF_h2f_of_zero (he : expH h = 0) (hm : fracH h = 0) : magF (h2f p h) = 0 := by
  rw [h2f_of_zero p he hm, magF_packF]
  rfl

theorem magF_h2f_of_inf (he : expH h = 31) (hm : fracH h = 0) : magF (h2f p h) = 255 * 2 ^ 23 := by
  rw [h2f_of_inf p he hm, magF_packF]
  rfl

theorem expF_h2f_of_nan (he : expH h = 31) (hm : fracH h ≠ 0) : expF (h2f p h) = 255 := by
  rw [h2f_of_nan p he hm, expF_packF]
  rfl

theorem magH_of_normal (he : expH h ≠ 0) : magH h = (expH h - 1) * 2 ^ 10 + (2 ^ 10 + fracH h) := by
  rw [magH]
  omega

/-- The value of a finite half, in units of `2^-149`, is that of its magnitude in units of `2^-24`. -/
theorem gridValue_magF_h2f (hfin : isFiniteH h = true) :
    isFinite (h2f p h) = true ∧ gridValue 23 (magF (h2f p h)) = gridValue 10 (magH h) * 2 ^ 125 := by
  have hlt := fracH_lt h
  rw [isFiniteH, bne_iff_ne] at hfin
  rw [isFinite_iff]
  rcases h2f_cases h with ⟨he, hm⟩ | ⟨he, hm⟩ | ⟨he, -⟩ | ⟨he, -⟩ | ⟨he, -⟩
  · have hmag : magH h = 0 := by simp [magH, he, hm]
    rw [magF_h2f_of_zero p he hm, hmag]
    simp [gridValue]
  · obtain ⟨hmag, hbelow, habove, hlog⟩ := magF_h2f_of_subnormal p he hm
    have hhalf : gridValue 10 (0 * 2 ^ 10 + fracH h) = fracH h * 2 ^ 0 := gridValue_add (by omega) (.inl rfl)
    rw [hmag, gridValue_add habove.le (.inr hbelow), magH, he, hhalf, mul_assoc, ← pow_add, pow_zero, mul_one]
    exact ⟨by omega, by congr 2; omega⟩
  · rw [magF_h2f_of_normal p he hfin, magH_of_normal he, gridValue_add (by omega) (.inr (by omega)),
      gridValue_add (by omega) (.inr (by omega)), mul_assoc, mul_assoc, ← pow_add, ← pow_add]
    exact ⟨by have := expH_lt h; omega, by congr 2; omega⟩
  · exact absurd he hfin
  · exact absurd he hfin

/-- `h2f` keeps the value of a finite half (R113). -/
theorem val32_h2f (hfin : isFiniteH h = true) : isFinite (h2f p h) = true ∧ val32 (h2f p h) = val16 h := by
  obtain ⟨hfinite, hgrid⟩ := gridValue_magF_h2f p hfin
  refine ⟨hfinite, ?_⟩
  rw [val32_eq, val16_eq, signF_h2f, hgrid, signedQ_div, signedQ_div]
  congr 1
  push_cast
  norm_num
  ring

theorem isInf_h2f (hinf : isInfH h = true) : isInf (h2f p h) = true := by
  simp only [isInfH, Bool.and_eq_true, beq_iff_eq] at hinf
  rw [isInf_iff, magF_h2f_of_inf p hinf.1 hinf.2]

/-- The fields of a converted NaN (R114). -/
theorem h2f_nan_fields (hnan : isNaNH h = true) :
    expF (h2f p h) = 255 ∧ (h2f p h).extractLsb' 0 13 = 0#13 ∧
    (h2f p h).extractLsb' 13 10 = h.extractLsb' 0 10 ||| (if p.h2fQuiet then 0x200#10 else 0#10) := by
  simp only [isNaNH, Bool.and_eq_true, beq_iff_eq, bne_iff_ne] at hnan
  obtain ⟨he, hm⟩ := hnan
  refine ⟨expF_h2f_of_nan p he hm, ?_⟩
  rw [h2f_of_nan p he hm]
  generalize (h.extractLsb' 0 10 ||| if p.h2fQuiet then 0x200#10 else 0#10) = v
  have hv := v.isLt
  have happ : (v ++ 0#13).toNat = v.toNat * 2 ^ 13 :=
    (toNat_append_eq_add _ 0#13).trans (Nat.add_zero _)
  constructor <;> apply BitVec.eq_of_toNat_eq <;>
    rw [BitVec.extractLsb'_toNat, packF_toNat, happ, Nat.shiftRight_eq_div_pow]
  · change _ = 0
    omega
  · omega

theorem isNaN_h2f_of_isNaNH (hnan : isNaNH h = true) : isNaN (h2f p h) = true := by
  obtain ⟨he, -, hpayload⟩ := h2f_nan_fields p hnan
  simp only [isNaNH, Bool.and_eq_true, beq_iff_eq, bne_iff_ne] at hnan
  simp only [isNaN, Bool.and_eq_true, beq_iff_eq, bne_iff_ne]
  refine ⟨he, fun hzero => hnan.2 ?_⟩
  have hbits := congrArg BitVec.toNat hpayload
  rw [BitVec.extractLsb'_toNat, Nat.shiftRight_eq_div_pow, BitVec.toNat_or] at hbits
  have hle : fracH h ≤ fracH h ||| (if p.h2fQuiet then 0x200#10 else 0#10).toNat := Nat.left_le_or
  rw [fracF_eq] at hzero
  change _ = fracH h ||| _ at hbits
  omega

/-- `h2f` gives NaN for a NaN and for nothing else. -/
theorem isNaN_h2f (h : Half) : isNaN (h2f p h) = isNaNH h := by
  cases hnan : isNaNH h with
  | true => exact isNaN_h2f_of_isNaNH p hnan
  | false =>
    rcases class_of_half h with hc | hc | hc
    · exact isNaN_eq_false_of_isFinite (val32_h2f p hc).1
    · exact isNaN_eq_false_of_isInf (isInf_h2f p hc)
    · simp [hnan] at hc

end

/-! ### Powers of two (R123) -/

theorem e8m0h_spec (x : Byte) : isFinite (e8m0h x) = true ∧ signF (e8m0h x) = false ∧
    gridValue 23 (magF (e8m0h x)) = 2 ^ (x.toNat + 21) := by
  unfold e8m0h
  split
  case isTrue h =>
    have hlt := x.isLt
    have hexp : (x - 1#8).toNat = x.toNat - 1 := BitVec.toNat_sub_of_le (BitVec.le_def.2 (Nat.le_of_succ_le h))
    have hmag : magF (packF 0#1 (x - 1#8) 0#23) = (x.toNat - 2) * 2 ^ 23 + 2 ^ 23 := by
      rw [magF_packF, hexp]
      change _ + 0 = _
      omega
    rw [isFinite_iff, signF_packF, hmag, gridValue_add (by omega) (.inr le_rfl), ← pow_add]
    exact ⟨by omega, rfl, by congr 1; omega⟩
  case isFalse h =>
    split
    case isTrue h1 =>
      subst h1
      decide
    case isFalse h1 =>
      obtain rfl : x = 0#8 := by
        rw [← BitVec.toNat_inj] at h1 ⊢
        change x.toNat ≠ 1 at h1
        change x.toNat = 0
        omega
      decide

theorem val32_e8m0h (x : Byte) : val32 (e8m0h x) = 2 ^ x.toNat / 2 ^ 128 := by
  obtain ⟨-, hsign, hgrid⟩ := e8m0h_spec x
  rw [val32_eq, hsign, hgrid, signedQ, if_neg (by decide), div_eq_div_iff (by positivity) (by positivity)]
  push_cast
  rw [← pow_add, ← pow_add]

/-! ### Products with a half scale (R108) -/

section
variable {h : Half}

/-- A finite half is an integer of 11 bits times a power of two. -/
theorem gridValue_magH_eq (hfin : isFiniteH h = true) :
    ∃ k j, k < 2 ^ 11 ∧ j ≤ 29 ∧ gridValue 10 (magH h) = k * 2 ^ j := by
  have hf := fracH_lt h
  have he := expH_lt h
  rw [isFiniteH, bne_iff_ne] at hfin
  by_cases h0 : expH h = 0
  · exact ⟨fracH h, 0, by omega, by omega, by rw [magH, h0, gridValue_add (by omega) (.inl rfl)]⟩
  · exact ⟨2 ^ 10 + fracH h, expH h - 1, by omega, by omega,
      by rw [magH_of_normal h0, gridValue_add (by omega) (.inr (by omega))]⟩

/-- Its product with an integer of 13 bits has 24 bits, so rounding does not change it. -/
theorem val32_eq_of_halfProduct {z : Int} {r : Word} (hfin : isFiniteH h = true) (hz : |z| < 2 ^ 13)
    (hr : correctlyRounded (val16 h * z) r) : isFinite r = true ∧ val32 r = val16 h * z := by
  obtain ⟨k, j, hk, hj, hgrid⟩ := gridValue_magH_eq hfin
  rw [Int.abs_eq_natAbs] at hz
  have hz' : z.natAbs < 2 ^ 13 := mod_cast hz
  have hprod : k * z.natAbs ≤ 2 ^ 11 * 2 ^ 13 := Nat.mul_le_mul hk.le hz'.le
  refine val32_eq_of_correctlyRounded (m := k * z.natAbs) (s := j + 125) (by omega) (by omega) ?_ hr
  rw [abs_mul, val16_eq, hgrid, signedQ_div, abs_signedQ, abs_of_nonneg (by positivity), pow_add]
  push_cast [Nat.cast_natAbs]
  ring

end

/-! ### The obligations -/

/-- Settles O13: a finite half keeps its value, the special patterns are read off their fields. -/
theorem h2fCompletesWithTheExactValue : Obligations.H2fCompletesWithTheExactValue :=
  fun _ => ⟨_, rfl, rfl, signF_h2f _ _, val32_h2f _, isInf_h2f _, h2f_nan_fields _⟩

/-- Settles O17: codes 0 and 1 give the two subnormals, every other code its own exponent. -/
theorem e8m0hCompletesWithAPowerOfTwo : Obligations.E8m0hCompletesWithAPowerOfTwo := by
  intro s
  obtain ⟨hfin, -, -⟩ := e8m0h_spec s.opaByte
  refine ⟨_, rfl, rfl, hfin, (val32_e8m0h s.opaByte).trans ?_⟩
  rw [State.opaByte, BitVec.extractLsb'_toNat, Nat.shiftRight_zero]

/-- Settles O24: the scale is an integer of 11 bits in units of a power of two, the codes together one of 13 bits, and
so no product needs more than 24 bits. -/
theorem halfScaleProductsAreExact : Obligations.HalfScaleProductsAreExact := by
  intro p h m n hfin hlo hhi
  have hm : m ≠ 0 := by rintro rfl; simp at hlo
  have hn : n ≠ 0 := by rintro rfl; simp at hlo
  have hm' : |m| < 2 ^ 13 := lt_of_le_of_lt (by rw [abs_mul]; nlinarith [Int.one_le_abs hn, abs_nonneg m]) hhi
  have hn' : |n| < 2 ^ 13 := lt_of_le_of_lt (by rw [abs_mul]; nlinarith [Int.one_le_abs hm, abs_nonneg n]) hhi
  obtain ⟨hscale, hscaleVal⟩ := val32_h2f p hfin
  obtain ⟨him, himVal⟩ := val32_i2f (n := m) (hm'.le.trans (by decide))
  obtain ⟨hin, hinVal⟩ := val32_i2f (n := n) (hn'.le.trans (by decide))
  have hone := correctlyRounded_fmul p hscale him
  rw [hscaleVal, himVal] at hone
  obtain ⟨hfinOne, hvalOne⟩ := val32_eq_of_halfProduct hfin hm' hone
  have htwo := correctlyRounded_fmul p hfinOne hin
  rw [hvalOne, hinVal, mul_assoc, ← Int.cast_mul] at htwo
  obtain ⟨hfinTwo, hvalTwo⟩ := val32_eq_of_halfProduct hfin hhi htwo
  exact ⟨hfinOne, hvalOne, hfinTwo, by rw [hvalTwo, Int.cast_mul, mul_assoc]⟩

end Sys2Proof.Machine
end

section
/-! PROOFS. `f2h` rounds to the nearest half, and it undoes `h2f` (O14, O15, O16). -/

namespace Sys2Proof.Machine

/-! ### The cases of `f2h` (R119, R121) -/

section
variable (p : Params) {w : Word}

theorem f2h_of_isNaN (h : isNaN w = true) : f2h p w = w.extractLsb' 31 1 ++ p.f2hNan := by
  simp only [isNaN, Bool.and_eq_true, beq_iff_eq, bne_iff_ne] at h
  exact if_pos h

theorem f2h_of_isInf (h : isInf w = true) : f2h p w = w.extractLsb' 31 1 ++ BitVec.ofNat 15 (31 * 2 ^ 10) := by
  simp only [isInf, Bool.and_eq_true, beq_iff_eq] at h
  obtain ⟨he, hm⟩ := h
  exact (if_neg fun hn => hn.2 hm).trans (if_pos he)

/-- From the least normal half on: the significand loses 13 bits, the exponent is rebiased, and a carry or an exponent
beyond the format gives infinity. -/
theorem f2h_of_normal (hlo : 113 ≤ expF w) (hhi : expF w ≠ 255) :
    f2h p w = w.extractLsb' 31 1 ++
      BitVec.ofNat 15 (min ((expF w - 113) * 2 ^ 10 + nearestEven (2 ^ 23 + fracF w) 13) (31 * 2 ^ 10)) := by
  have hround : (if 0x1000 < fracF w % 2 ^ 13 ∨ (fracF w % 2 ^ 13 = 0x1000 ∧
        ((expF w - 112) * 2 ^ 10 + fracF w / 2 ^ 13) % 2 = 1)
      then (expF w - 112) * 2 ^ 10 + fracF w / 2 ^ 13 + 1 else (expF w - 112) * 2 ^ 10 + fracF w / 2 ^ 13) =
      (expF w - 113) * 2 ^ 10 + nearestEven (2 ^ 23 + fracF w) 13 := by
    simp only [nearestEven]
    split <;> split <;> omega
  have hexp : (w.extractLsb' 23 8).toNat = expF w := rfl
  have hfrac : (w.extractLsb' 0 23).toNat = fracF w := rfl
  simp only [f2h, hexp, hfrac]
  rw [if_neg (by simp [hhi]), if_neg hhi, if_pos hlo, hround, min_def]
  congr 2
  split <;> split <;> omega

/-- Below it: the significand is shifted down to the subnormal's unit. -/
theorem f2h_of_subnormal (hlo : 101 < expF w) (hhi : expF w < 113) :
    f2h p w = w.extractLsb' 31 1 ++ BitVec.ofNat 15 (nearestEven (2 ^ 23 + fracF w) (126 - expF w)) := by
  obtain ⟨k, hk⟩ : ∃ k, 126 - expF w = k + 1 := ⟨125 - expF w, by omega⟩
  have hexp : (w.extractLsb' 23 8).toNat = expF w := rfl
  have hfrac : (w.extractLsb' 0 23).toNat = fracF w := rfl
  have hsig : 0x800000 + fracF w = 2 ^ 23 + fracF w := rfl
  simp only [f2h, hexp, hfrac, hsig]
  rw [if_neg (by omega), if_neg (by omega), if_neg (by omega), if_neg (by omega), hk, nearestEven, pow_succ]
  congr 2
  simp only [Nat.add_sub_cancel]
  split <;> split <;> omega

/-- Less than half a unit: a zero. -/
theorem f2h_of_tiny (h : expF w ≤ 101) : f2h p w = w.extractLsb' 31 1 ++ 0#15 := by
  have hexp : (w.extractLsb' 23 8).toNat = expF w := rfl
  simp only [f2h, hexp]
  rw [if_neg (by omega), if_neg (by omega), if_neg (by omega), if_pos h]

/-! ### `f2h` rounds (R119) -/

/-- The magnitude of a nonzero exponent field: the significand with its hidden bit, in the units of the exponent. -/
theorem gridValue_magF_of_normal (h : expF w ≠ 0) :
    gridValue 23 (magF w) = (2 ^ 23 + fracF w) * 2 ^ (expF w - 1) := by
  have hf := fracF_lt w
  have hmag : magF w = (expF w - 1) * 2 ^ 23 + (2 ^ 23 + fracF w) := by rw [magF]; omega
  rw [hmag, gridValue_add (by omega) (.inr (by omega))]

theorem gridValue_magF_lt_of_tiny (h : expF w ≤ 101) : gridValue 23 (magF w) < 2 ^ 124 := by
  have hf := fracF_lt w
  by_cases h0 : expF w = 0
  · have hgrid : gridValue 23 (0 * 2 ^ 23 + fracF w) = fracF w * 2 ^ 0 := gridValue_add (by omega) (.inl rfl)
    rw [magF, h0, hgrid]
    omega
  · rw [gridValue_magF_of_normal h0]
    calc (2 ^ 23 + fracF w) * 2 ^ (expF w - 1)
        < 2 ^ 24 * 2 ^ (expF w - 1) := Nat.mul_lt_mul_of_pos_right (by omega) (Nat.two_pow_pos _)
      _ ≤ 2 ^ 24 * 2 ^ 100 := Nat.mul_le_mul_left _ (Nat.pow_le_pow_right (by decide) (by omega))
      _ = 2 ^ 124 := (pow_add _ _ _).symm

/-- A finite value in units of `2^-24`. -/
theorem abs_val32_mul (w : Word) : |val32 w| * 2 ^ 24 * 2 ^ 125 = gridValue 23 (magF w) := by
  rw [val32_eq, signedQ_div, abs_signedQ, abs_of_nonneg (by positivity), mul_assoc, ← pow_add,
    div_mul_cancel₀ _ (by positivity)]

theorem mul_two_pow_cancel {x y : ℚ} {a b : Nat} (c : Nat) (h : x * 2 ^ (a + c) = y * 2 ^ (b + c)) :
    x * 2 ^ a = y * 2 ^ b := by
  refine mul_right_cancel₀ (b := (2 : ℚ) ^ c) (by positivity) ?_
  rwa [mul_assoc, mul_assoc, ← pow_add, ← pow_add]

/-- The magnitude of a normal value in the units of a coarser exponent `s`: `k` bits of the significand are lost. -/
theorem abs_val32_of_normal (h : expF w ≠ 0) {s k : Nat} (hk : expF w + k = s + 126) (hk' : k ≤ 125) :
    |val32 w| * 2 ^ 24 * 2 ^ k = (2 ^ 23 + fracF w : Nat) * 2 ^ s := by
  have hval := abs_val32_mul w
  rw [gridValue_magF_of_normal h] at hval
  refine mul_two_pow_cancel (125 - k) ?_
  rw [show k + (125 - k) = 125 by omega, show s + (125 - k) = expF w - 1 by omega]
  exact mod_cast hval

/-- `f2h` rounds the value once, to nearest with ties to even, and packs the result with the sign (R119). -/
theorem f2h_roundsAt (h : isFinite w = true) :
    ∃ s n, RoundsAt 10 (|val32 w| * 2 ^ 24) s n ∧
      f2h p w = w.extractLsb' 31 1 ++ BitVec.ofNat 15 (min (s * 2 ^ 10 + n) (31 * 2 ^ 10)) := by
  have hf := fracF_lt w
  have hfin : expF w ≠ 255 := by simpa [isFinite] using h
  rcases Nat.lt_or_ge (expF w) 113 with hlt | hge
  · rcases Nat.lt_or_ge 101 (expF w) with hgt | hle
    · have hpow : 2 ^ 14 ≤ 2 ^ (126 - expF w) := Nat.pow_le_pow_right (by decide) (by omega)
      have hr : RoundsAt 10 (|val32 w| * 2 ^ 24) 0 (nearestEven (2 ^ 23 + fracF w) (126 - expF w)) :=
        roundsAt_nearestEven (abs_val32_of_normal (by omega) (by omega) (by omega)) (by omega) (.inl rfl)
      have := hr.le
      refine ⟨0, _, hr, ?_⟩
      rw [f2h_of_subnormal p hgt hlt, min_eq_left (by omega), Nat.zero_mul, Nat.zero_add]
    · have hgrid : (gridValue 23 (magF w) : ℚ) < 2 ^ 124 := mod_cast gridValue_magF_lt_of_tiny hle
      have hsmall : |val32 w| * 2 ^ 24 < 1 / 2 := by
        have := abs_val32_mul w
        linarith
      have hpos : 0 ≤ |val32 w| * 2 ^ 24 := by positivity
      refine ⟨0, 0, ⟨?_, fun _ => rfl, by linarith, .inl rfl⟩, f2h_of_tiny p hle⟩
      rw [Nat.cast_zero, zero_mul, zero_sub, abs_neg, abs_of_nonneg hpos, pow_zero]
      exact hsmall.le
  · exact ⟨expF w - 113, _,
      roundsAt_nearestEven (abs_val32_of_normal (by omega) (by omega) (by omega)) (by omega) (.inr (by omega)),
      f2h_of_normal p hge hfin⟩

end

/-! ### What `f2h` gives (R119, R122) -/

section
variable (p : Params) {w : Word}

theorem getLsbD_sign_f2h (w : Word) : (f2h p w).getLsbD 15 = signF w := by
  have hpack : ∃ v : BitVec 15, f2h p w = w.extractLsb' 31 1 ++ v := by
    rcases class_of_word w with h | h | h
    · obtain ⟨s, n, -, heq⟩ := f2h_roundsAt p h
      exact ⟨_, heq⟩
    · exact ⟨_, f2h_of_isInf p h⟩
    · exact ⟨_, f2h_of_isNaN p h⟩
  obtain ⟨v, hv⟩ := hpack
  rw [hv, getLsbD_sign_append, getLsbD_extractLsb'_sign]

theorem isInfH_f2h_of_isInf (h : isInf w = true) : isInfH (f2h p w) = true := by
  rw [f2h_of_isInf p h, isInfH_iff, magH_append]
  rfl

/-- Below 65520 the result is a nearest half, ties to even; from there on it is infinity. -/
theorem f2h_of_isFinite (hfin : isFinite w = true) :
    (|val32 w| < 65520 → isFiniteH (f2h p w) = true ∧
      ∀ g, isFiniteH g = true → |val16 (f2h p w) - val32 w| ≤ |val16 g - val32 w| ∧
        (|val16 g - val32 w| = |val16 (f2h p w) - val32 w| → val16 g = val16 (f2h p w) ∨ (f2h p w).getLsbD 0 = false)) ∧
    (65520 ≤ |val32 w| → isInfH (f2h p w) = true) := by
  obtain ⟨s, n, hr, heq⟩ := f2h_roundsAt p hfin
  have hmag : magH (f2h p w) = min (s * 2 ^ 10 + n) (31 * 2 ^ 10) := by
    rw [heq, magH_append_ofNat _ (min_le_right _ _)]
  have hsign := getLsbD_sign_f2h p w
  generalize f2h p w = r at hmag hsign
  have hover := hr.overflow_iff 29
  have hthreshold : (2 * 2 ^ 10 * 2 ^ 29 - 2 ^ 29 / 2 : ℚ) = 65520 * 2 ^ 24 := by norm_num
  rw [hthreshold, mul_le_mul_iff_left₀ (by positivity)] at hover
  refine ⟨fun hlt => ?_, fun hge => ?_⟩
  · have hbelow : s * 2 ^ 10 + n < 31 * 2 ^ 10 := by
      rw [← not_le] at hlt ⊢
      exact fun hle => hlt (hover.1 hle)
    rw [min_eq_left hbelow.le] at hmag
    refine ⟨(isFiniteH_iff r).2 (hmag ▸ hbelow), fun g _ => ?_⟩
    have hval : val32 w = signedQ (signF w) |val32 w| := by
      rw [val32_eq, signedQ_div, abs_signedQ, abs_of_nonneg (by positivity)]
    obtain ⟨hnear, htie⟩ := hr.nearest_signed (by positivity) hval (onGrid_val16 g)
    rw [val16_eq r, hsign, hmag, hr.gridValue_eq]
    refine ⟨hnear, fun htied => (htie htied).imp_right fun heven => ?_⟩
    rw [getLsbD_zero_eq_false_iff_magH, hmag]
    omega
  · rw [isInfH_iff, hmag, min_eq_right (hover.2 hge)]

end

/-! ### `f2h` undoes `h2f` (R122) -/

section
variable (p : Params) {h : Half}

/-- On a finite half no bit that `f2h` drops is set. -/
theorem f2h_h2f_of_isFiniteH (hfin : isFiniteH h = true) :
    f2h p (h2f p h) = h.extractLsb' 15 1 ++ BitVec.ofNat 15 (magH h) := by
  have hlt := fracH_lt h
  have hf := fracF_lt (h2f p h)
  have hmag : magF (h2f p h) = expF (h2f p h) * 2 ^ 23 + fracF (h2f p h) := rfl
  have hmagH : magH h = expH h * 2 ^ 10 + fracH h := rfl
  have hmagH_lt := (isFiniteH_iff h).1 hfin
  rw [isFiniteH, bne_iff_ne] at hfin
  rcases h2f_cases h with ⟨he, hm⟩ | ⟨he, hm⟩ | ⟨he, -⟩ | ⟨he, -⟩ | ⟨he, -⟩
  · rw [magF_h2f_of_zero p he hm] at hmag
    rw [f2h_of_tiny p (by omega), extractLsb'_sign_h2f, hmagH, he, hm, Nat.zero_mul]
  · obtain ⟨hsub, hbelow, habove, hlog⟩ := magF_h2f_of_subnormal p he hm
    rw [hsub] at hmag
    have hexp : expF (h2f p h) = 103 + (fracH h).log2 := by omega
    have hsig : 2 ^ 23 + fracF (h2f p h) = fracH h * 2 ^ (23 - (fracH h).log2) := by omega
    have hshift : 126 - (103 + (fracH h).log2) = 23 - (fracH h).log2 := by omega
    rw [f2h_of_subnormal p (by omega) (by omega), hsig, hexp, hshift, nearestEven_exact, extractLsb'_sign_h2f, hmagH,
      he, Nat.zero_mul, Nat.zero_add]
  · rw [magF_h2f_of_normal p he hfin] at hmag
    have hexp : expF (h2f p h) = expH h + 112 := by omega
    have hsig : 2 ^ 23 + fracF (h2f p h) = (2 ^ 10 + fracH h) * 2 ^ 13 := by omega
    have hrebias : expH h + 112 - 113 = expH h - 1 := by omega
    have := expH_lt h
    rw [f2h_of_normal p (by omega) (by omega), hsig, hexp, nearestEven_exact, hrebias, ← magH_of_normal he,
      min_eq_left hmagH_lt.le, extractLsb'_sign_h2f]
  · exact absurd he hfin
  · exact absurd he hfin

theorem f2h_h2f (hnan : isNaNH h = false) : f2h p (h2f p h) = h := by
  rcases class_of_half h with hc | hc | hc
  · rw [f2h_h2f_of_isFiniteH p hc, sign_append_magH]
  · rw [f2h_of_isInf p (isInf_h2f p hc), extractLsb'_sign_h2f, ← (isInfH_iff h).1 hc, sign_append_magH]
  · simp [hnan] at hc

end

/-! ### The obligations -/

/-- Settles O14: off NaN `f2h` is a left inverse. -/
theorem h2fIsInjectiveOffNaN : Obligations.H2fIsInjectiveOffNaN :=
  fun p g h => ⟨fun hg hh heq => by rw [← f2h_h2f p hg, heq, f2h_h2f p hh], isNaN_h2f p h⟩

/-- Settles O15: the lower half of the result is `f2h`, which rounds once. -/
theorem f2hCompletesRoundingToNearestEven : Obligations.F2hCompletesRoundingToNearestEven := by
  intro s
  refine ⟨s.completeScalar ((f2h s.params s.opa).setWidth 32), rfl, rfl, ?_⟩
  obtain ⟨hlow, hhigh⟩ := halves_of_setWidth (f2h s.params s.opa)
  simp only [completeScalar_res0, hlow, hhigh]
  refine ⟨trivial, getLsbD_sign_f2h _ _, fun hfin => (f2h_of_isFinite _ hfin).1, fun hfin => (f2h_of_isFinite _ hfin).2,
    isInfH_f2h_of_isInf _, fun hnan => ?_⟩
  rw [f2h_of_isNaN _ hnan, extractLsb'_append_low]

/-- Settles O16: no rounding happens off NaN, and a NaN stays one. -/
theorem f2hUndoesH2f : Obligations.F2hUndoesH2f :=
  fun p h => ⟨f2h_h2f p, fun hnan => by rw [f2h_of_isNaN p (isNaN_h2f_of_isNaNH p hnan), extractLsb'_sign_h2f]⟩

end Sys2Proof.Machine
end

section
/-! PROOFS. Block fields as the statements write them, products of a converted scale and a byte code, and `DQ8_K` in
both layouts of its scale (O31). -/

namespace Sys2Proof.Machine

/-! ### Block fields (R11, R13, R50) -/

theorem s8_eq_toInt (b : Byte) : s8 b = b.toInt := by
  unfold s8
  rw [BitVec.toInt_eq_toNat_cond]
  split <;> split <;> omega

theorem abs_byte_toInt_le (b : Byte) : |b.toInt| ≤ 2 ^ 7 := by
  rw [← s8_eq_toInt, abs_le]
  have := s8_range b
  omega

theorem blk32_eq_append (blk : Nat → Byte) (o : Nat) :
    blk32 blk o = blk (o + 3) ++ blk (o + 2) ++ blk (o + 1) ++ blk o := by
  rw [blk32, memRead_four, BitVec.ofNat_toNat, BitVec.setWidth_eq]

/-- The bytes of block `b` of a format whose blocks have `n` bytes. -/
theorem block_eq_ibufByte {s : State} {f : BlockFormat} {n : Nat} (hn : f.blockBytes s.params = n) (b o : Nat) :
    s.block f b o = s.ibufByte (s.src.toNat + b * n + o) := by
  subst hn
  rfl

theorem blk16_block (s : State) (f : BlockFormat) (b o : Nat) : blk16 (s.block f b) o = blockHalf s f b o := by
  simp [blk16, memRead, State.block, State.bytesAt]

/-! ### One product of a scale and a code (R103, R108) -/

theorem signF_fmul_i2f (p : Params) {a : Word} {q : Int} (ha : isFinite a = true) (hq : |q| ≤ 2 ^ 24) :
    signF (fmul p a (i2f q)) = (signF a ^^ decide (q < 0)) := by
  obtain ⟨s, n, -, hprod⟩ := fmul_packRounded p ha (val32_i2f hq).1
  rw [hprod, signF_packRounded, signF_i2f]

/-- Unlike R108's products this one may have the code 0. -/
theorem fmul_h2f_i2f_exact (p : Params) {h : Half} {q : Int} (hfin : isFiniteH h = true) (hq : |q| < 2 ^ 13) :
    isFinite (fmul p (h2f p h) (i2f q)) = true ∧ val32 (fmul p (h2f p h) (i2f q)) = val16 h * q ∧
      signF (fmul p (h2f p h) (i2f q)) = (h.getLsbD 15 ^^ decide (q < 0)) := by
  have hq24 : |q| ≤ 2 ^ 24 := hq.le.trans (by decide)
  obtain ⟨hscale, hscaleVal⟩ := val32_h2f p hfin
  obtain ⟨hcode, hcodeVal⟩ := val32_i2f hq24
  have hround := correctlyRounded_fmul p hscale hcode
  rw [hscaleVal, hcodeVal] at hround
  obtain ⟨hout, hval⟩ := val32_eq_of_halfProduct hfin hq hround
  exact ⟨hout, hval, by rw [signF_fmul_i2f p hscale hq24, signF_h2f]⟩

/-! ### The elements of q8_K (R202) -/

section
variable {p : Params} (blk : Nat → Byte) (e : Nat)

theorem elemQ8_K_of_half (h : p.q8kDF32 = false) :
    elemQ8_K p blk e = fmul p (h2f p (blk16 blk 0)) (i2f (blk (2 + e)).toInt) := by
  simp [elemQ8_K, codeQ8_K, h, s8_eq_toInt]

theorem elemQ8_K_of_word (h : p.q8kDF32 = true) :
    elemQ8_K p blk e = fmul p (blk 3 ++ blk 2 ++ blk 1 ++ blk 0) (i2f (blk (4 + e)).toInt) := by
  simp [elemQ8_K, codeQ8_K, h, s8_eq_toInt, blk32_eq_append]

end

/-! ### The obligation -/

/-- Settles O31: the output is the element of its block, and the layout fixes the scale and the place of the code. -/
theorem dq8KInBothLayouts : Obligations.Dq8KInBothLayouts := by
  intro s b e hb he hfit
  obtain ⟨t, hexec, -, hplace, -⟩ := blockDecoderPlacesEveryElement .dq8_K .q8_K s rfl hfit
  have hout : t.obufWord (outputCell s .q8_K b e) = elemQ8_K s.params (s.block .q8_K b) e := hplace b hb e he
  refine ⟨t, hexec, fun hhalf => ?_, fun hword => ?_⟩
  · have hsize : BlockFormat.q8_K.blockBytes s.params = 290 := by simp [BlockFormat.blockBytes, hhalf]
    rw [elemQ8_K_of_half _ _ hhalf, blk16_block, block_eq_ibufByte hsize] at hout
    refine ⟨hout, fun hfin => ?_⟩
    rw [hout]
    exact fmul_h2f_i2f_exact s.params hfin ((abs_byte_toInt_le _).trans_lt (by decide))
  · have hsize : BlockFormat.q8_K.blockBytes s.params = 292 := by simp [BlockFormat.blockBytes, hword]
    simp only [elemQ8_K_of_word _ _ hword, block_eq_ibufByte hsize] at hout
    obtain ⟨hcode, hcodeVal⟩ := val32_i2f ((abs_byte_toInt_le _).trans (by decide))
    exact ⟨_, hcode, hcodeVal, signF_i2f _, hout⟩

end Sys2Proof.Machine
end

section
/-! PROOFS. The length error of a block decoder and the decode of no elements (O9, O12), and a command run again on the
state it left (O32). -/

namespace Sys2Proof.Machine

/-! ### The length check (R162, R176) -/

/-- A decode of no elements writes nothing. -/
theorem setObufRange_zero (s : State) (base : Nat) (v : Nat → Word) : s.setObufRange base 0 v = s := rfl

section
variable {s : State} {i : Instr} {f : BlockFormat}

/-- Counts that disagree are reported before the ranges are looked at (R162, R221). -/
theorem exec_block_of_lengthError (hc : classOf i = .block f) (hlen : s.nb.toNat * f.elems ≠ s.k.toNat) :
    exec i s = .next (s.raiseError .invalidLength) := by
  rw [exec_block_elemOf hc]
  rcases decodeBlocks_cases s f (elemOf s.params f) with ⟨-, he⟩ | ⟨heq, -⟩ | ⟨heq, -⟩
  · rw [he]
  · exact absurd heq hlen
  · exact absurd heq hlen

/-- Counts that agree end in a success or in the range error (R163). -/
theorem exec_block_of_lengthOk (hc : classOf i = .block f) (hlen : s.nb.toNat * f.elems = s.k.toNat) :
    ∃ t, exec i s = .next t ∧ (t.status = statusSuccess ∨ t.status = statusError .bufferRange) := by
  by_cases hrange : s.params.ibufBytes < s.src.toNat + s.nb.toNat * f.blockBytes s.params ∨
      s.params.obufWords < s.dst.toNat + s.k.toNat
  · exact ⟨_, exec_block_of_rangeError hc hlen hrange, .inr rfl⟩
  · rw [not_or, Nat.not_lt, Nat.not_lt] at hrange
    exact ⟨_, exec_block_of_decodeFits hc ⟨hlen, hrange⟩, .inl rfl⟩

end

/-! ### A command run again (R175, R261) -/

/-- In canonical form a range written twice with the same values is the range written once. -/
theorem putCells_putCells {α : Type} {m : List (Nat × α)} (hm : cellsWf m) (base n : Nat) (v : Nat → α) :
    putCells (putCells m base n v) base n v = putCells m base n v := by
  have honce := cellsWf_putCells base n v hm
  refine cells_ext (cellsWf_putCells base n v honce) honce fun a => ?_
  simp only [cellAt_putCells]
  split <;> rfl

theorem setObufRange_complete_twice {s : State} (hwf : cellsWf s.obuf) (base n : Nat) (v : Nat → Word) :
    ((s.setObufRange base n v).complete.setObufRange base n v).complete = (s.setObufRange base n v).complete := by
  simp only [State.setObufRange, State.complete, putCells_putCells hwf]

/-- The outputs of a decode depend on the parameters, `SRC` and `IBUF` alone, and no success changes those. -/
theorem blockOutput_setObufRange_complete (s : State) (f : BlockFormat) (elem : ElemFn) (base n : Nat)
    (v : Nat → Word) : (s.setObufRange base n v).complete.blockOutput f elem = s.blockOutput f elem := rfl

section
variable {s t : State} {i : Instr}

theorem exec_again_of_conversion (hc : classOf i = .conversion) (h : exec i s = .next t) : exec i t = .next t := by
  obtain ⟨val, hval⟩ := exec_conversion hc
  obtain rfl := Host.Outcome.next.inj ((hval s).symm.trans h)
  exact hval _

theorem exec_again_of_extraction (hc : classOf i = .extraction) (h : exec i s = .next t) : exec i t = .next t := by
  rcases exec_extraction hc with hill | ⟨v0, v1, -, hv⟩
  · obtain rfl := Host.Outcome.next.inj ((hill s).symm.trans h)
    exact hill _
  · obtain rfl := Host.Outcome.next.inj ((hv s).symm.trans h)
    rw [hv]
    rcases extractScale_cases s (v0 (s.bytesAt 0)) (v1 (s.bytesAt 0)) with ⟨hout, he⟩ | ⟨hin, he⟩ <;> rw [he]
    · exact congrArg _ (if_pos hout)
    · exact congrArg _ (if_neg (Nat.not_lt.2 hin))

/-- The checks of the second run find the arguments of the first, and its outputs are the ones already written. -/
theorem exec_again_of_block {f : BlockFormat} (hc : classOf i = .block f) (hwf : cellsWf s.obuf)
    (h : exec i s = .next t) : exec i t = .next t := by
  rw [exec_block_elemOf hc, Host.Outcome.next.injEq] at h
  obtain ⟨hp, hsrc, hdst, hk, hnb⟩ : s.params = t.params ∧ s.src = t.src ∧ s.dst = t.dst ∧ s.k = t.k ∧ s.nb = t.nb := by
    subst h
    simp
  rw [exec_block_elemOf hc, ← hp]
  rcases decodeBlocks_of_sameArguments hp hsrc hdst hk hnb f (elemOf s.params f) (elemOf s.params f) with
    ⟨e, he, he'⟩ | ⟨-, he, he'⟩
  · rw [he', ← h, he]
    rfl
  · rw [he', ← h, he, blockOutput_setObufRange_complete, setObufRange_complete_twice hwf]

end

/-! ### The obligations -/

/-- Settles O9: the length check comes first, and it is the only source of `InvalidLength`. -/
theorem invalidLengthExactlyOnCountMismatch : Obligations.InvalidLengthExactlyOnCountMismatch := by
  intro i f s hc
  refine ⟨exec_block_of_lengthError hc, fun hmod => ?_, fun hlen => ?_⟩
  · exact exec_block_of_lengthError hc ((lengthCheck_iff s f).1 (.inl hmod))
  · obtain ⟨t, ht, hst⟩ := exec_block_of_lengthOk hc hlen
    exact ⟨t, ht, by rcases hst with hst | hst <;> rw [hst] <;> decide⟩

/-- Settles O12: with `K = 0` the counts agree exactly when `NB = 0`, and then both ranges are empty. -/
theorem zeroElementDecode : Obligations.ZeroElementDecode := by
  intro i f s hc hk
  have hk0 : s.k.toNat = 0 := by rw [hk]; rfl
  refine ⟨fun hnb hin hout => ?_, fun hnb hrange => ?_, fun hnb => ?_⟩
  · have hnb0 : s.nb.toNat = 0 := by rw [hnb]; rfl
    have hfit : decodeFits s f := by simpa [decodeFits, hk0, hnb0] using ⟨hin, hout⟩
    rw [exec_block_of_decodeFits hc hfit, hk0, setObufRange_zero]
    rfl
  · have hnb0 : s.nb.toNat = 0 := by rw [hnb]; rfl
    exact exec_block_of_rangeError hc (by simp [hk0, hnb0]) (by simpa [hk0, hnb0] using hrange)
  · have hnb0 : s.nb.toNat ≠ 0 := fun h0 => hnb (BitVec.eq_of_toNat_eq h0)
    refine exec_block_of_lengthError hc ?_
    rw [hk0]
    exact Nat.mul_ne_zero hnb0 (elems_pos f).ne'

/-- Settles O32: in each class the second run finds the operands of the first. -/
theorem repeatingACommandChangesNothing : Obligations.RepeatingACommandChangesNothing := by
  intro i s t hwf h
  cases hc : classOf i with
  | conversion => exact exec_again_of_conversion hc h
  | extraction => exact exec_again_of_extraction hc h
  | block f => exact exec_again_of_block hc hwf h

end Sys2Proof.Machine
end

section
/-! PROOFS. The codes of the linear formats as the statements write them, the ranges of all codes, and what the linear
decoders put out (O27, O28, O50). -/

namespace Sys2Proof.Machine

/-! ### Packed fields in arithmetic (R50, R167, R172) -/

/-- Bit `e` of a little-endian field is bit `e mod 8` of its byte `e div 8`. -/
theorem testBit_memRead (b : Nat → Byte) {a n e : Nat} (he : e < 8 * n) :
    (memRead b a n).testBit e = (b (a + e / 8)).toNat.testBit (e % 8) := by
  induction n generalizing a e with
  | zero => omega
  | succ n ih =>
    rw [memRead, Nat.add_comm, Nat.testBit_two_pow_mul_add _ (b a).isLt]
    split
    case isTrue hlow => rw [Nat.div_eq_of_lt hlow, Nat.mod_eq_of_lt hlow, Nat.add_zero]
    case isFalse hhigh =>
      have hbyte : a + 1 + (e - 8) / 8 = a + e / 8 := by omega
      have hbit : (e - 8) % 8 = e % 8 := by omega
      rw [ih (by omega), hbyte, hbit]

theorem nib_eq (qs : Nat → Byte) (e : Nat) : nib qs e = (qs (e % 16)).toNat / 16 ^ (e / 16) % 16 := by
  rw [nib, Nat.and_two_pow_sub_one_eq_mod _ 4, Nat.shiftRight_eq_div_pow, Nat.pow_mul]

theorem hb_blk32 (blk : Nat → Byte) (o : Nat) {e : Nat} (he : e < 32) :
    hb (blk32 blk o) e = (blk (o + e / 8)).toNat / 2 ^ (e % 8) % 2 := by
  have hword : (blk32 blk o).toNat = memRead blk o 4 := Nat.mod_eq_of_lt (memRead_lt blk o 4)
  rw [hb, hword, Nat.and_one_is_mod, Nat.shiftRight_eq_div_pow, ← Nat.toNat_testBit, testBit_memRead blk he,
    Nat.toNat_testBit]

/-- The fifth bit stands above the nibble. -/
theorem code5_eq (qs : Nat → Byte) (qh : Word) (e : Nat) : code5 qs qh e = nib qs e + 16 * hb qh e := by
  rw [code5, Nat.or_comm, ← Nat.shiftLeft_add_eq_or_of_lt (nib_lt qs e), Nat.shiftLeft_eq]
  omega

theorem code5_blk32 (qs blk : Nat → Byte) (o : Nat) {e : Nat} (he : e < 32) :
    code5 qs (blk32 blk o) e =
      (qs (e % 16)).toNat / 16 ^ (e / 16) % 16 + 16 * ((blk (o + e / 8)).toNat / 2 ^ (e % 8) % 2) := by
  rw [code5_eq, nib_eq, hb_blk32 blk o he]

/-! ### Codes in arithmetic (R165, R166, R168 to R170) -/

section
variable (blk : Nat → Byte) {e : Nat}

theorem codeQ4_0_eq : codeQ4_0 blk e = ((blk (2 + e % 16)).toNat / 16 ^ (e / 16) % 16 : Nat) - 8 := by
  rw [codeQ4_0, nib_eq]
  rfl

theorem codeQ4_1_eq : codeQ4_1 blk e = ((blk (4 + e % 16)).toNat / 16 ^ (e / 16) % 16 : Nat) := by
  rw [codeQ4_1, nib_eq]
  rfl

theorem codeQ5_0_eq (he : e < 32) : codeQ5_0 blk e = ((blk (6 + e % 16)).toNat / 16 ^ (e / 16) % 16 +
    16 * ((blk (2 + e / 8)).toNat / 2 ^ (e % 8) % 2) : Nat) - 16 := by
  rw [codeQ5_0, code5_blk32 _ blk 2 he]
  rfl

theorem codeQ5_1_eq (he : e < 32) : codeQ5_1 blk e = ((blk (8 + e % 16)).toNat / 16 ^ (e / 16) % 16 +
    16 * ((blk (4 + e / 8)).toNat / 2 ^ (e % 8) % 2) : Nat) := by
  rw [codeQ5_1, code5_blk32 _ blk 4 he]
  rfl

theorem codeQ8_0_eq : codeQ8_0 blk e = (blk (2 + e)).toInt := s8_eq_toInt _

end

/-! ### The outputs of the linear decoders (R165 to R170) -/

section
variable {s : State} {i : Instr} {f : BlockFormat} {b e : Nat}

/-- The cell of an element of a decode whose arguments are in order. -/
theorem exec_block_outputCell (hc : classOf i = .block f) (hfit : decodeFits s f) (hb : b < s.nb.toNat)
    (he : e < f.elems) :
    ∃ t, exec i s = .next t ∧ t.obufWord (outputCell s f b e) = elemOf s.params f (s.block f b) e := by
  obtain ⟨t, hexec, -, hplace, -⟩ := blockDecoderPlacesEveryElement i f s hc hfit
  exact ⟨t, hexec, hplace b hb e he⟩

/-- A format whose element is code times scale: with a finite scale no bit is lost (R108). -/
theorem exec_block_product {q : Int} (hc : classOf i = .block f)
    (helem : elemOf s.params f (s.block f b) e = fmul s.params (i2f q) (h2f s.params (blk16 (s.block f b) 0)))
    (hq : |q| < 2 ^ 13) (hb : b < s.nb.toNat) (he : e < f.elems) (hfit : decodeFits s f) :
    ∃ t, exec i s = .next t ∧
      (let d := blockHalf s f b 0
       let out := t.obufWord (outputCell s f b e)
       out = fmul s.params (i2f q) (h2f s.params d) ∧
       (isFiniteH d = true →
         isFinite out = true ∧ val32 out = val16 d * q ∧ signF out = (d.getLsbD 15 ^^ decide (q < 0)))) := by
  obtain ⟨t, hexec, hout⟩ := exec_block_outputCell hc hfit hb he
  rw [helem, blk16_block] at hout
  refine ⟨t, hexec, hout, fun hfin => ?_⟩
  rw [hout, fmul_comm]
  exact fmul_h2f_i2f_exact s.params hfin hq

/-- A format whose element is code times scale plus a minimum, with an unsigned code `n`: with a finite scale the
product loses no bit, so that the sum is rounded once (R105, R108). -/
theorem exec_block_productPlusMin {q : Int} {n : Nat} (hc : classOf i = .block f)
    (helem : elemOf s.params f (s.block f b) e = fadd s.params
      (fmul s.params (i2f q) (h2f s.params (blk16 (s.block f b) 0))) (h2f s.params (blk16 (s.block f b) 2)))
    (hqn : q = n) (hq : |q| < 2 ^ 13) (hb : b < s.nb.toNat) (he : e < f.elems) (hfit : decodeFits s f) :
    ∃ t, exec i s = .next t ∧
      (let d := blockHalf s f b 0
       let out := t.obufWord (outputCell s f b e)
       let m := h2f s.params (blockHalf s f b 2)
       out = fadd s.params (fmul s.params (i2f n) (h2f s.params d)) m ∧
       (isFiniteH d = true → ∃ x, isFinite x = true ∧ val32 x = val16 d * n ∧ signF x = d.getLsbD 15 ∧
         out = fadd s.params x m)) := by
  obtain ⟨t, hexec, hout⟩ := exec_block_outputCell hc hfit hb he
  rw [helem, hqn, blk16_block, blk16_block] at hout
  refine ⟨t, hexec, hout, fun hfin => ?_⟩
  obtain ⟨hx, hval, hsign⟩ := fmul_h2f_i2f_exact s.params hfin (hqn ▸ hq)
  rw [decide_eq_false (Int.natCast_nonneg n).not_gt, Bool.xor_false] at hsign
  rw [fmul_comm] at hout
  exact ⟨_, hx, hval, hsign, hout⟩

end

/-! ### Products of codes (R204) -/

/-- The largest factors are those of q6_K: a scale of a signed byte and a code of six bits less 32. -/
theorem abs_scale_mul_code_le {m q : Int} (hm : -128 ≤ m ∧ m ≤ 128) (hq : -32 ≤ q ∧ q ≤ 32) : |m * q| ≤ 4096 := by
  rw [abs_mul]
  exact mul_le_mul (abs_le.2 hm) (abs_le.2 hq) (abs_nonneg q) (by decide)

/-! ### The obligations -/

/-- Settles O27: each element is its block's code times its block's scale. -/
theorem linearDecodersWithoutMinimum : Obligations.LinearDecodersWithoutMinimum := by
  intro s b e hb he
  refine ⟨fun hfit => ?_, fun hfit => ?_, fun hfit => ?_⟩
  · have hrange := codeQ4_0_range (s.block .q4_0 b) e
    have h := exec_block_product (i := .dq4_0) rfl rfl (abs_lt.2 (by omega)) hb he hfit
    rwa [codeQ4_0_eq] at h
  · have hrange := codeQ5_0_range (s.block .q5_0 b) e
    have h := exec_block_product (i := .dq5_0) rfl rfl (abs_lt.2 (by omega)) hb he hfit
    rwa [codeQ5_0_eq _ he] at h
  · have hrange := codeQ8_0_range (s.block .q8_0 b) e
    have h := exec_block_product (i := .dq8_0) rfl rfl (abs_lt.2 (by omega)) hb he hfit
    rwa [codeQ8_0_eq] at h

/-- Settles O28: each element is its block's code times its block's scale, plus its block's minimum. -/
theorem linearDecodersWithMinimum : Obligations.LinearDecodersWithMinimum := by
  intro s b e hb he
  refine ⟨fun hfit => ?_, fun hfit => ?_⟩
  · have hrange := codeQ4_1_range (s.block .q4_1 b) e
    exact exec_block_productPlusMin rfl rfl (codeQ4_1_eq _) (abs_lt.2 (by omega)) hb he hfit
  · have hrange := codeQ5_1_range (s.block .q5_1 b) e
    exact exec_block_productPlusMin rfl rfl (codeQ5_1_eq _ he) (abs_lt.2 (by omega)) hb he hfit

/-- Settles O50: a range lemma per code, and one bound for all products. -/
theorem codesLieInTheirRanges : Obligations.CodesLieInTheirRanges := by
  intro p blk e
  have hs2 := scaleQ2_K_range blk e
  have hc2 := codeQ2_K_range blk e
  have hs3 := scaleQ3_K_range blk e
  have hc3 := codeQ3_K_range blk e
  have hs45 := scaleQ45_K_range blk e
  have hc4 := codeQ4_K_range blk e
  have hc5 := codeQ5_K_range blk e
  have hs6 := scaleQ6_K_range blk e
  have hc6 := codeQ6_K_range blk e
  exact ⟨codeQ4_0_range blk e, codeQ4_1_range blk e, codeQ5_0_range blk e, codeQ5_1_range blk e, codeQ8_0_range blk e,
    hs2, minQ2_K_range blk e, hc2, hs3, hc3, hs45, minQ45_K_range blk e, hc4, hc5, hs6, hc6, codeQ8_K_range blk e p,
    abs_scale_mul_code_le (by omega) (by omega), abs_scale_mul_code_le (by omega) (by omega),
    abs_scale_mul_code_le (by omega) (by omega), abs_scale_mul_code_le (by omega) (by omega),
    abs_scale_mul_code_le (by omega) (by omega)⟩

end Sys2Proof.Machine
end

section
/-! PROOFS. Products of a zero, infinite or NaN pattern and an integer code, once and in a chain (O25). -/

namespace Sys2Proof.Machine

/-! ### Patterns of the special values -/

theorem isFinite_of_isZero {w : Word} (h : isZero w = true) : isFinite w = true := by
  rw [isZero_iff] at h
  rw [isFinite_iff, h]
  decide

theorem isZero_eq_false_of_isInf {w : Word} (h : isInf w = true) : isZero w = false := by
  rw [isInf_iff] at h
  rw [Bool.eq_false_iff, ne_eq, isZero_iff, h]
  decide

theorem isZero_i2f {q : Int} (hq : |q| ≤ 2 ^ 24) : isZero (i2f q) = decide (q = 0) := by
  rw [Bool.eq_iff_iff, ← val32_eq_zero_iff, (val32_i2f hq).2, Int.cast_eq_zero, decide_eq_true_iff]

theorem isZero_h2f (p : Params) {h : Half} (he : expH h = 0) (hm : fracH h = 0) : isZero (h2f p h) = true :=
  (isZero_iff _).2 (magF_h2f_of_zero p he hm)

/-- The infinity of a sign (R103). -/
theorem infinity_fields (neg : Bool) :
    isInf (if neg then 0xFF800000#32 else 0x7F800000#32) = true ∧
    signF (if neg then 0xFF800000#32 else 0x7F800000#32) = neg := by cases neg <;> decide

/-- The zero of a sign (R103). -/
theorem zero_fields (neg : Bool) :
    isZero (if neg then 0x80000000#32 else 0x00000000#32) = true ∧
    signF (if neg then 0x80000000#32 else 0x00000000#32) = neg := by cases neg <;> decide

/-! ### One product with a code (R103, R104) -/

section
variable (p : Params) {a : Word} {q : Int}

theorem fmul_of_isZero {b : Word} (ha : isZero a = true) (hb : isFinite b = true) :
    fmul p a b = if signF a ^^ signF b then 0x80000000#32 else 0x00000000#32 := by
  have hfin := isFinite_of_isZero ha
  have hnan := isNaN_eq_false_of_isFinite hfin
  have hnan' := isNaN_eq_false_of_isFinite hb
  have hinf := isInf_eq_false_of_isFinite hfin
  have hinf' := isInf_eq_false_of_isFinite hb
  rcases fmul_cases p a b with ⟨h, -⟩ | ⟨h, -⟩ | ⟨-, h⟩ | ⟨-, -, -, -, h, -⟩
  · simp [hnan, hnan', hinf, hinf'] at h
  · simp [hinf, hinf'] at h
  · rw [h]
    cases signF a ^^ signF b <;> rfl
  · simp [ha] at h

theorem fmul_i2f_of_isZero (ha : isZero a = true) (hq : |q| ≤ 2 ^ 24) :
    fmul p a (i2f q) = if signF a ^^ decide (q < 0) then 0x80000000#32 else 0x00000000#32 := by
  rw [fmul_of_isZero p ha (val32_i2f hq).1, signF_i2f]

/-- An infinity times the code 0 has no value; times any other code it is an infinity. -/
theorem fmul_i2f_of_isInf (ha : isInf a = true) (hq : |q| ≤ 2 ^ 24) :
    fmul p a (i2f q) =
      if q = 0 then p.canonNan else if signF a ^^ decide (q < 0) then 0xFF800000#32 else 0x7F800000#32 := by
  have hzero := isZero_i2f hq
  by_cases h0 : q = 0
  · rw [if_pos h0]
    exact fmul_of_mulNaN p (.inr (.inr (.inl ⟨ha, by rw [hzero, decide_eq_true h0]⟩)))
  · rw [decide_eq_false h0] at hzero
    rw [if_neg h0, fmul_of_isInf p (isNaN_eq_false_of_isInf ha) (isNaN_eq_false_of_isFinite (val32_i2f hq).1) (.inl ha)
      (isZero_eq_false_of_isInf ha) hzero, signF_i2f]

theorem fmul_of_isNaN_left (ha : isNaN a = true) (b : Word) : fmul p a b = p.canonNan := fmul_of_mulNaN p (.inl ha)

end

/-! ### Two products in a chain (R190, R206) -/

section
variable {p : Params} {h : Half} {m q : Int}

theorem scaledCode_of_zero (hm : |m| ≤ 2 ^ 24) (hq : |q| ≤ 2 ^ 24) (he : expH h = 0) (hf : fracH h = 0) :
    scaledCode p h m q =
      if (h.getLsbD 15 ^^ decide (m < 0)) ^^ decide (q < 0) then 0x80000000#32 else 0x00000000#32 := by
  have hinner := fmul_i2f_of_isZero p (isZero_h2f p he hf) hm
  obtain ⟨hzero, hsign⟩ := zero_fields (signF (h2f p h) ^^ decide (m < 0))
  rw [scaledCode, hinner, fmul_i2f_of_isZero p hzero hq, hsign, signF_h2f]

/-- `CANON_NAN` of the first product stays one in the second, because it is a NaN (R8). -/
theorem scaledCode_of_isInfH (hp : p.wf) (hm : |m| ≤ 2 ^ 24) (hq : |q| ≤ 2 ^ 24) (hinf : isInfH h = true) :
    scaledCode p h m q =
      if m = 0 ∨ q = 0 then p.canonNan
      else if (h.getLsbD 15 ^^ decide (m < 0)) ^^ decide (q < 0) then 0xFF800000#32 else 0x7F800000#32 := by
  have hinner := fmul_i2f_of_isInf p (isInf_h2f p hinf) hm
  by_cases h0 : m = 0
  · rw [if_pos h0] at hinner
    rw [scaledCode, hinner, if_pos (.inl h0), fmul_of_isNaN_left p (isNaN_canonNan hp)]
  · rw [if_neg h0] at hinner
    obtain ⟨hout, hsign⟩ := infinity_fields (signF (h2f p h) ^^ decide (m < 0))
    rw [scaledCode, hinner, fmul_i2f_of_isInf p hout hq, hsign, signF_h2f]
    simp only [h0, false_or]

theorem scaledCode_of_isNaNH (hp : p.wf) (hnan : isNaNH h = true) : scaledCode p h m q = p.canonNan := by
  rw [scaledCode, fmul_of_isNaN_left p (isNaN_h2f_of_isNaNH p hnan), fmul_of_isNaN_left p (isNaN_canonNan hp)]

end

/-! ### The obligation -/

/-- Settles O25: the converted scale keeps its class and sign, and each product with a code keeps the class of its
left factor or makes `CANON_NAN`. -/
theorem specialScalesPropagate : Obligations.SpecialScalesPropagate := by
  have hwide {z : Int} (hz : |z| ≤ 128) : |z| ≤ 2 ^ 24 := hz.trans (by decide)
  refine ⟨fun p h q hq => ?_, fun p h m q hp hm hq => ?_⟩
  · rw [fmul_comm]
    refine ⟨fun hinf => ?_, fun hnan => ?_, fun he hf => ?_⟩
    · rw [fmul_i2f_of_isInf p (isInf_h2f p hinf) (hwide hq), signF_h2f]
    · exact fmul_of_isNaN_left p (isNaN_h2f_of_isNaNH p hnan) _
    · rw [fmul_i2f_of_isZero p (isZero_h2f p he hf) (hwide hq), signF_h2f]
  · exact ⟨scaledCode_of_isInfH hp (hwide hm) (hwide hq), scaledCode_of_isNaNH hp,
      scaledCode_of_zero (hwide hm) (hwide hq)⟩

end Sys2Proof.Machine
end

section
/-! PROOFS. The packed scales in arithmetic, what the two extractors write (O18, O19), and the twelve bytes read back
from the sixteen values of either packing (O20). -/

namespace Sys2Proof.Machine

/-! ### The packed values in arithmetic (R180, R184) -/

/-- A field of at most four bits with another above it. -/
theorem or_shiftLeft_four {lo : Nat} (hlo : lo < 16) (hi : Nat) : lo ||| hi <<< 4 = lo + 16 * hi := by
  rw [Nat.or_comm, ← Nat.shiftLeft_add_eq_or_of_lt hlo, Nat.shiftLeft_eq, Nat.mul_comm, Nat.add_comm]

theorem gsmScale_eq (q : Nat → Byte) (j : Nat) : gsmScale q j =
    if j < 4 then (q j).toNat % 64 else (q (j + 4)).toNat % 16 + 16 * ((q (j - 4)).toNat / 64) := by
  rw [gsmScale, Nat.and_two_pow_sub_one_eq_mod _ 6, Nat.and_two_pow_sub_one_eq_mod _ 4,
    or_shiftLeft_four (Nat.mod_lt _ (by decide)), Nat.shiftRight_eq_div_pow]

theorem gsmMin_eq (q : Nat → Byte) (j : Nat) : gsmMin q j =
    if j < 4 then (q (j + 4)).toNat % 64 else (q (j + 4)).toNat / 16 + 16 * ((q j).toNat / 64) := by
  have hhigh : (q (j + 4)).toNat >>> 4 < 16 := by
    have := (q (j + 4)).isLt
    rw [Nat.shiftRight_eq_div_pow]
    omega
  rw [gsmMin, Nat.and_two_pow_sub_one_eq_mod _ 6, or_shiftLeft_four hhigh, Nat.shiftRight_eq_div_pow,
    Nat.shiftRight_eq_div_pow]

/-- The group `t div 4` says which nibble and which pair of bits: the four branches of R184 in one formula. -/
theorem sc3_eq (b : Nat → Byte) {t : Nat} (ht : t < 16) : sc3 b t =
    (b (4 * (t / 4 % 2) + t % 4)).toNat / 16 ^ (t / 4 / 2) % 16 + 16 * ((b (8 + t % 4)).toNat / 4 ^ (t / 4) % 4) := by
  have hlow := (b (t % 4)).isLt
  have hhigh := (b (4 + t % 4)).isLt
  have hnibble (x : Nat) : x &&& 15 = x % 16 := Nat.and_two_pow_sub_one_eq_mod x 4
  have hpair (x : Nat) : x &&& 3 = x % 4 := Nat.and_two_pow_sub_one_eq_mod x 2
  have hgroup : t / 4 = 0 ∨ t / 4 = 1 ∨ t / 4 = 2 ∨ t / 4 = 3 := by omega
  rcases hgroup with hg | hg | hg | hg <;>
    simp (disch := omega) [sc3, hg, hnibble, hpair, Nat.shiftRight_eq_div_pow, or_shiftLeft_four, Nat.mod_eq_of_lt]

/-! ### What the extractors write (R181, R185) -/

section
variable {s : State} {j : BitVec 4}

theorem extractScale_of_fits (h : s.src.toNat + 12 ≤ s.params.ibufBytes) (v0 v1 : Word) :
    s.extractScale v0 v1 = s.completeScalar2 v0 v1 := if_neg (Nat.not_lt.2 h)

theorem exec_gsm6_of_fits (hj : j.toNat ≤ 7) (h : s.src.toNat + 12 ≤ s.params.ibufBytes) :
    exec (.gsm6 j) s = .next (s.completeScalar2 (BitVec.ofNat 32 (gsmScale (s.bytesAt 0) j.toNat))
      (BitVec.ofNat 32 (gsmMin (s.bytesAt 0) j.toNat))) := by
  rw [exec, execGsm6, if_neg (Nat.not_lt.2 hj), extractScale_of_fits h]

theorem exec_gsm6_of_illegal (hj : 7 < j.toNat) : exec (.gsm6 j) s = .next (s.raiseError .illegalCommand) := by
  rw [exec, execGsm6, if_pos hj]

theorem exec_sc3k_of_fits (h : s.src.toNat + 12 ≤ s.params.ibufBytes) :
    exec (.sc3k j) s = .next (s.completeScalar2 (BitVec.ofInt 32 ((sc3 (s.bytesAt 0) j.toNat : Int) - 32))
      (BitVec.ofNat 32 (sc3 (s.bytesAt 0) j.toNat))) := by
  rw [exec, execSc3k, extractScale_of_fits h]

end

/-- Two's complement keeps the biased code, because a raw code has six bits. -/
theorem toInt_biasedScale (b : Nat → Byte) (t : Nat) :
    (BitVec.ofInt 32 ((sc3 b t : Int) - 32)).toInt = (sc3 b t : Int) - 32 := by
  have := sc3_lt b t
  rw [BitVec.toInt_ofInt, Int.bmod_eq_of_le] <;> omega

/-! ### The bytes from the values (the bit maps of R182 and R186) -/

section
variable (q : Nat → Byte) {k : Nat}

/-- R182: the top two bits of the first eight bytes stand in the later scales and minima, and the last four bytes in
the low nibbles of those. -/
theorem bytes_of_gsm (hk : k < 4) :
    (q k).toNat = gsmScale q k + 64 * (gsmScale q (k + 4) / 16) ∧
    (q (k + 4)).toNat = gsmMin q k + 64 * (gsmMin q (k + 4) / 16) ∧
    (q (k + 8)).toNat = gsmScale q (k + 4) % 16 + 16 * (gsmMin q (k + 4) % 16) := by
  have hlater : ¬ k + 4 < 4 := by omega
  have := (q (k + 8)).isLt
  simp only [gsmScale_eq, gsmMin_eq, if_pos hk, if_neg hlater, Nat.add_sub_cancel, Nat.add_assoc, Nat.reduceAdd]
  omega

/-- R186: the first eight bytes stand in the low nibbles, and each of the last four in the high bits of four values. -/
theorem bytes_of_sc3 (hk : k < 4) :
    (q k).toNat = sc3 q k % 16 + 16 * (sc3 q (k + 8) % 16) ∧
    (q (k + 4)).toNat = sc3 q (k + 4) % 16 + 16 * (sc3 q (k + 12) % 16) ∧
    (q (k + 8)).toNat =
      sc3 q k / 16 + 4 * (sc3 q (k + 4) / 16) + 16 * (sc3 q (k + 8) / 16) + 64 * (sc3 q (k + 12) / 16) := by
  have h0 := (q k).isLt
  have h4 := (q (k + 4)).isLt
  have h8 := (q (k + 8)).isLt
  rw [sc3_eq q (t := k) (by omega), sc3_eq q (t := k + 4) (by omega), sc3_eq q (t := k + 8) (by omega),
    sc3_eq q (t := k + 12) (by omega)]
  have hmod : (k + 4) % 4 = k ∧ (k + 8) % 4 = k ∧ (k + 12) % 4 = k := by omega
  have hdiv : (k + 4) / 4 = 1 ∧ (k + 8) / 4 = 2 ∧ (k + 12) / 4 = 3 := by omega
  simp only [hmod, hdiv, Nat.mod_eq_of_lt hk, Nat.div_eq_of_lt hk, Nat.add_comm _ k, Nat.add_zero, Nat.reduceMod,
    Nat.reduceMul, Nat.reduceDiv, Nat.reducePow]
  omega

end

/-- Twelve bytes are three rows of four. -/
theorem bytes_eq_of_rows {q r : Nat → Byte}
    (h : ∀ k < 4, (q k).toNat = (r k).toNat ∧ (q (k + 4)).toNat = (r (k + 4)).toNat ∧
      (q (k + 8)).toNat = (r (k + 8)).toNat) : ∀ o < 12, q o = r o := by
  intro o ho
  obtain ⟨h0, h4, h8⟩ := h (o % 4) (Nat.mod_lt _ (by decide))
  have hrow : o % 4 = o ∨ o % 4 + 4 = o ∨ o % 4 + 8 = o := by omega
  rcases hrow with hrow | hrow | hrow
  · exact BitVec.eq_of_toNat_eq (hrow ▸ h0)
  · exact BitVec.eq_of_toNat_eq (hrow ▸ h4)
  · exact BitVec.eq_of_toNat_eq (hrow ▸ h8)

/-! ### The obligations -/

/-- Settles O18: with the range and the index in order the command writes the two values of R180 in arithmetic. -/
theorem gsm6CompletesWithScaleAndMinimum : Obligations.Gsm6CompletesWithScaleAndMinimum := by
  refine fun s j => ⟨fun hj hfit => ?_, exec_gsm6_of_illegal⟩
  rw [exec_gsm6_of_fits hj hfit, gsmScale_eq, gsmMin_eq]
  rfl

/-- Settles O19: the code of R184 in one formula, and two's complement keeps it less 32. -/
theorem sc3kCompletesWithTheBiasedScale : Obligations.Sc3kCompletesWithTheBiasedScale := by
  intro s j hfit
  have hcode := sc3_eq (s.bytesAt 0) j.isLt
  refine ⟨_, exec_sc3k_of_fits hfit, ?_, ?_⟩
  · rw [hcode]
    rfl
  · rw [completeScalar2_res0, toInt_biasedScale, hcode]
    push_cast
    rfl

/-- Settles O20: the bit maps give every byte from the extracted values. -/
theorem packedScalesLoseNoBit : Obligations.PackedScalesLoseNoBit := by
  intro q r
  refine ⟨fun hgsm => bytes_eq_of_rows fun k hk => ?_, fun hsc3 => bytes_eq_of_rows fun k hk => ?_⟩
  · obtain ⟨hs, hm⟩ := hgsm k (by omega)
    obtain ⟨hs', hm'⟩ := hgsm (k + 4) (by omega)
    simp only [bytes_of_gsm _ hk, hs, hm, hs', hm', and_self]
  · simp only [bytes_of_sc3 _ hk, hsc3 k (by omega), hsc3 (k + 4) (by omega), hsc3 (k + 8) (by omega),
      hsc3 (k + 12) (by omega), and_self]

end Sys2Proof.Machine
end

section
/-! PROOFS. A pattern is its sign and its value; products of finite patterns that stand for integers of 13 bits with a
converted scale, and the association of the products of a super-block element (O49). -/

namespace Sys2Proof.Machine

/-! ### A pattern is its sign and its value (R100) -/

/-- Every magnitude is some units of a spacing that also reaches the next magnitude. -/
theorem exists_significand (f c : Nat) :
    ∃ s n, c = s * 2 ^ f + n ∧ n + 1 ≤ 2 * 2 ^ f ∧ (s = 0 ∨ 2 ^ f ≤ n) := by
  have hmod : c % 2 ^ f < 2 ^ f := Nat.mod_lt c (Nat.two_pow_pos f)
  have hdiv := Nat.div_add_mod' c (2 ^ f)
  rcases Nat.eq_zero_or_pos (c / 2 ^ f) with hlow | hhigh
  · exact ⟨0, c % 2 ^ f, by rw [← hlow, hdiv], by omega, .inl rfl⟩
  · refine ⟨c / 2 ^ f - 1, 2 ^ f + c % 2 ^ f, ?_, by omega, .inr (by omega)⟩
    rw [← Nat.add_assoc, ← Nat.succ_mul, Nat.succ_eq_add_one, Nat.sub_add_cancel hhigh, hdiv]

theorem strictMono_gridValue (f : Nat) : StrictMono (gridValue f) := by
  refine strictMono_nat_of_lt_succ fun c => ?_
  obtain ⟨s, n, rfl, hn, hs⟩ := exists_significand f c
  rw [gridValue_add (by omega) hs, Nat.add_assoc, gridValue_add hn (by omega)]
  exact Nat.mul_lt_mul_of_pos_right n.lt_succ_self (Nat.two_pow_pos s)

theorem word_eq_of_signF_val32 {v w : Word} (hs : signF v = signF w) (hval : val32 v = val32 w) : v = w := by
  refine word_eq_of_signF_magF hs ((strictMono_gridValue 23).injective ?_)
  rw [val32_eq, val32_eq, hs, div_left_inj' (by positivity)] at hval
  simpa using congrArg (signedQ (signF w)) hval

/-! ### Exact products of finite patterns (R103, R108) -/

section
variable (p : Params) {h : Half} {a b : Word} {m q : Int}

theorem signF_fmul (ha : isFinite a = true) (hb : isFinite b = true) : signF (fmul p a b) = (signF a ^^ signF b) := by
  obtain ⟨s, n, -, hprod⟩ := fmul_packRounded p ha hb
  rw [hprod, signF_packRounded]

/-- A product whose exact value is a half times an integer of 13 bits loses no bit. -/
theorem fmul_exact_of_halfProduct {z : Int} (ha : isFinite a = true) (hb : isFinite b = true)
    (hfin : isFiniteH h = true) (hz : |z| < 2 ^ 13) (hval : val32 a * val32 b = val16 h * z) :
    isFinite (fmul p a b) = true ∧ val32 (fmul p a b) = val16 h * z :=
  val32_eq_of_halfProduct hfin hz (hval ▸ correctlyRounded_fmul p ha hb)

/-- The product of two codes is exact, though a zero product may be a negative zero. -/
theorem fmul_i2f_i2f_exact (hm : |m| ≤ 2 ^ 24) (hq : |q| ≤ 2 ^ 24) (hmq : |m * q| ≤ 2 ^ 24) :
    isFinite (fmul p (i2f m) (i2f q)) = true ∧ val32 (fmul p (i2f m) (i2f q)) = (m * q : Int) ∧
      signF (fmul p (i2f m) (i2f q)) = (decide (m < 0) ^^ decide (q < 0)) := by
  obtain ⟨hfin, hval⟩ := val32_i2f hm
  obtain ⟨hfin', hval'⟩ := val32_i2f hq
  have hround := correctlyRounded_fmul p hfin hfin'
  rw [hval, hval', ← Int.cast_mul] at hround
  rw [Int.abs_eq_natAbs] at hmq
  obtain ⟨hout, hprod⟩ := val32_eq_of_correctlyRounded (m := (m * q).natAbs) (s := 149) (by omega) (by decide)
    (by rw [Nat.cast_natAbs, Int.cast_abs]) hround
  exact ⟨hout, hprod, by rw [signF_fmul p hfin hfin', signF_i2f, signF_i2f]⟩

/-- The chain of two products is exact, zero codes included. -/
theorem scaledCode_exact (hfin : isFiniteH h = true) (hm : |m| < 2 ^ 13) (hq : |q| ≤ 2 ^ 24)
    (hmq : |m * q| < 2 ^ 13) :
    isFinite (scaledCode p h m q) = true ∧ val32 (scaledCode p h m q) = val16 h * m * q ∧
      signF (scaledCode p h m q) = ((h.getLsbD 15 ^^ decide (m < 0)) ^^ decide (q < 0)) := by
  obtain ⟨hinner, hinnerVal, hinnerSign⟩ := fmul_h2f_i2f_exact p hfin hm
  obtain ⟨hcode, hcodeVal⟩ := val32_i2f hq
  have hexact : val32 (fmul p (h2f p h) (i2f m)) * val32 (i2f q) = val16 h * (m * q : Int) := by
    rw [hinnerVal, hcodeVal, Int.cast_mul, mul_assoc]
  obtain ⟨hout, hval⟩ := fmul_exact_of_halfProduct p hinner hcode hfin hmq hexact
  exact ⟨hout, by rw [scaledCode, hval, Int.cast_mul, mul_assoc],
    by rw [scaledCode, signF_fmul_i2f p hinner hq, hinnerSign]⟩

/-! ### The codes multiplied first (R206) -/

theorem scaledCode_assoc_of_isFiniteH (hfin : isFiniteH h = true) (hm : |m| < 2 ^ 13) (hq : |q| ≤ 2 ^ 24)
    (hmq : |m * q| < 2 ^ 13) : scaledCode p h m q = fmul p (h2f p h) (fmul p (i2f m) (i2f q)) := by
  obtain ⟨hscale, hscaleVal⟩ := val32_h2f p hfin
  obtain ⟨-, hleft, hleftSign⟩ := scaledCode_exact p hfin hm hq hmq
  obtain ⟨hcodes, hcodesVal, hcodesSign⟩ :=
    fmul_i2f_i2f_exact p (hm.le.trans (by decide)) hq (hmq.le.trans (by decide))
  obtain ⟨-, hright⟩ := fmul_exact_of_halfProduct p hscale hcodes hfin hmq (by rw [hscaleVal, hcodesVal])
  apply word_eq_of_signF_val32
  · rw [hleftSign, signF_fmul p hscale hcodes, signF_h2f, hcodesSign, Bool.xor_assoc]
  · rw [hleft, hright, Int.cast_mul, mul_assoc]

/-- An infinity meets a zero product of the codes exactly when it meets a zero code. -/
theorem scaledCode_assoc_of_isInfH {p : Params} (hp : p.wf) (hinf : isInfH h = true) (hm : |m| ≤ 2 ^ 24)
    (hq : |q| ≤ 2 ^ 24) (hmq : |m * q| ≤ 2 ^ 24) :
    scaledCode p h m q = fmul p (h2f p h) (fmul p (i2f m) (i2f q)) := by
  have hscale := isInf_h2f p hinf
  obtain ⟨hcodes, hcodesVal, hcodesSign⟩ := fmul_i2f_i2f_exact p hm hq hmq
  have hzero : isZero (fmul p (i2f m) (i2f q)) = true ↔ m = 0 ∨ q = 0 := by
    rw [← val32_eq_zero_iff, hcodesVal, Int.cast_eq_zero, mul_eq_zero]
  rw [scaledCode_of_isInfH hp hm hq hinf]
  split
  case isTrue h0 => exact (fmul_of_mulNaN p (.inr (.inr (.inl ⟨hscale, hzero.2 h0⟩)))).symm
  case isFalse h0 =>
    rw [fmul_of_isInf p (isNaN_eq_false_of_isInf hscale) (isNaN_eq_false_of_isFinite hcodes) (.inl hscale)
      (isZero_eq_false_of_isInf hscale) (Bool.eq_false_iff.2 (mt hzero.1 h0)), signF_h2f, hcodesSign, Bool.xor_assoc]

theorem scaledCode_assoc_of_isNaNH {p : Params} (hp : p.wf) (hnan : isNaNH h = true) :
    scaledCode p h m q = fmul p (h2f p h) (fmul p (i2f m) (i2f q)) := by
  rw [scaledCode_of_isNaNH hp hnan, fmul_of_isNaN_left p (isNaN_h2f_of_isNaNH p hnan)]

end

/-- The codes may be multiplied first for every class of scale: finite, infinite and NaN. -/
theorem scaledCode_assoc {p : Params} {m q : Int} (hp : p.wf) (h : Half) (hm : |m| < 2 ^ 13) (hq : |q| ≤ 2 ^ 24)
    (hmq : |m * q| < 2 ^ 13) : scaledCode p h m q = fmul p (h2f p h) (fmul p (i2f m) (i2f q)) := by
  rcases class_of_half h with hc | hc | hc
  · exact scaledCode_assoc_of_isFiniteH p hc hm hq hmq
  · exact scaledCode_assoc_of_isInfH hp hc (hm.le.trans (by decide)) hq (hmq.le.trans (by decide))
  · exact scaledCode_assoc_of_isNaNH hp hc

/-! ### The obligation -/

/-- Settles O49: the codes may be multiplied first, and their product is commutative, so that either code may be the
first factor of the scale. -/
theorem scaleProductsAssociate : Obligations.ScaleProductsAssociate := by
  intro p h m q hp hm hq hmq
  have hm13 : |m| < 2 ^ 13 := hm.trans_lt (by decide)
  have hq13 : |q| < 2 ^ 13 := hq.trans_lt (by decide)
  have hassoc := scaledCode_assoc hp h hm13 (hq13.le.trans (by decide)) hmq
  refine ⟨hassoc, hassoc.trans ?_⟩
  rw [fmul_comm p (i2f m)]
  exact (scaledCode_assoc hp h hq13 (hm13.le.trans (by decide)) (mul_comm m q ▸ hmq)).symm

end Sys2Proof.Machine
end

section
/-! PROOFS. The codes of the super-block formats as the statements write them, and what their decoders with a
half-precision scale put out (O29, O30). -/

namespace Sys2Proof.Machine

/-! ### Packed fields in arithmetic (R193, R197, R199, R201) -/

theorem q2_eq (qs : Nat → Byte) (e : Nat) :
    q2 qs e = (qs (32 * (e / 128) + e % 32)).toNat / 4 ^ (e % 128 / 32) % 4 := by
  rw [q2, Nat.and_two_pow_sub_one_eq_mod _ 2, Nat.shiftRight_eq_div_pow, Nat.pow_mul]

theorem nibK_eq (qs : Nat → Byte) (e : Nat) :
    nibK qs e = (qs (32 * (e / 64) + e % 32)).toNat / 16 ^ (e / 32 % 2) % 16 := by
  rw [nibK, Nat.and_two_pow_sub_one_eq_mod _ 4, Nat.shiftRight_eq_div_pow, Nat.pow_mul]

theorem hbK_eq (a : Nat → Byte) (e : Nat) : hbK a e = (a (e % 32)).toNat / 2 ^ (e / 32) % 2 := by
  rw [hbK, Nat.and_one_is_mod, Nat.shiftRight_eq_div_pow]

/-- Span `g` of a half takes its nibbles from the bytes of span `g mod 2`, and two bits stand above each. -/
theorem code6_eq (blk : Nat → Byte) (e : Nat) :
    code6 blk e = (blk (64 * (e / 128) + 32 * (e / 32 % 2) + e % 32)).toNat / 16 ^ (e / 64 % 2) % 16 +
      16 * ((blk (128 + 32 * (e / 128) + e % 32)).toNat / 4 ^ (e / 32 % 4) % 4) := by
  have hspan : e % 128 / 32 = e / 32 % 4 := by omega
  have hrow : e / 32 % 4 % 2 = e / 32 % 2 := by omega
  have hnibble : e / 32 % 4 / 2 = e / 64 % 2 := by omega
  rw [code6, hspan, hrow, hnibble, Nat.and_two_pow_sub_one_eq_mod _ 4, Nat.and_two_pow_sub_one_eq_mod _ 2,
    or_shiftLeft_four (Nat.mod_lt _ (by decide)), Nat.shiftRight_eq_div_pow, Nat.shiftRight_eq_div_pow, Nat.pow_mul,
    Nat.pow_mul]

/-! ### Scales, minima and codes in arithmetic (R192, R194, R196, R198, R200) -/

section
variable (blk : Nat → Byte) (e : Nat)

theorem scaleQ2_K_eq : scaleQ2_K blk e = ((blk (e / 16)).toNat % 16 : Nat) := by
  rw [scaleQ2_K, Nat.and_two_pow_sub_one_eq_mod _ 4]

theorem minQ2_K_eq : minQ2_K blk e = ((blk (e / 16)).toNat / 16 : Nat) := by
  rw [minQ2_K, Nat.shiftRight_eq_div_pow]

theorem codeQ2_K_eq : codeQ2_K blk e =
    ((blk (16 + 32 * (e / 128) + e % 32)).toNat / 4 ^ (e % 128 / 32) % 4 : Nat) := by
  rw [codeQ2_K, q2_eq, fieldAt, Nat.add_assoc]

theorem codeQ3_K_eq : codeQ3_K blk e =
    ((blk (32 + 32 * (e / 128) + e % 32)).toNat / 4 ^ (e % 128 / 32) % 4 +
      4 * ((blk (e % 32)).toNat / 2 ^ (e / 32) % 2) : Nat) - 4 := by
  rw [codeQ3_K, q2_eq, hbK_eq, fieldAt, Nat.add_assoc, Nat.cast_add, Nat.cast_mul, Nat.cast_ofNat]

theorem codeQ4_K_eq : codeQ4_K blk e =
    ((blk (16 + 32 * (e / 64) + e % 32)).toNat / 16 ^ (e / 32 % 2) % 16 : Nat) := by
  rw [codeQ4_K, nibK_eq, fieldAt, Nat.add_assoc]

theorem codeQ5_K_eq : codeQ5_K blk e =
    ((blk (48 + 32 * (e / 64) + e % 32)).toNat / 16 ^ (e / 32 % 2) % 16 +
      16 * ((blk (16 + e % 32)).toNat / 2 ^ (e / 32) % 2) : Nat) := by
  rw [codeQ5_K, nibK_eq, hbK_eq, fieldAt, fieldAt, Nat.add_assoc, Nat.cast_add, Nat.cast_mul, Nat.cast_ofNat]

theorem scaleQ6_K_eq : scaleQ6_K blk e = (blk (192 + e / 16)).toInt := s8_eq_toInt _

theorem codeQ6_K_eq : codeQ6_K blk e =
    ((blk (64 * (e / 128) + 32 * (e / 32 % 2) + e % 32)).toNat / 16 ^ (e / 64 % 2) % 16 +
      16 * ((blk (128 + 32 * (e / 128) + e % 32)).toNat / 4 ^ (e / 32 % 4) % 4) : Nat) - 32 := by
  rw [codeQ6_K, code6_eq]

end

/-! ### The outputs of the super-block decoders (R190, R205, R206) -/

/-- In the ranges of R204 the products with a finite scale are exact. -/
theorem scaledCode_exact_of_range (p : Params) {h : Half} {m q : Int} (hfin : isFiniteH h = true)
    (hm : -128 ≤ m ∧ m ≤ 128) (hq : -32 ≤ q ∧ q ≤ 32) :
    isFinite (scaledCode p h m q) = true ∧ val32 (scaledCode p h m q) = val16 h * m * q ∧
      signF (scaledCode p h m q) = ((h.getLsbD 15 ^^ decide (m < 0)) ^^ decide (q < 0)) :=
  scaledCode_exact p hfin ((abs_le.2 hm).trans_lt (by decide)) ((abs_le.2 hq).trans (by decide))
    ((abs_scale_mul_code_le hm hq).trans_lt (by decide))

section
variable {s : State} {i : Instr} {f : BlockFormat} {b e o : Nat}

/-- A format whose element is scale times sub-block scale times code, with the scale at offset `o`. -/
theorem exec_block_scaledCode {m q : Int} (hc : classOf i = .block f)
    (helem : elemOf s.params f (s.block f b) e = scaledCode s.params (blk16 (s.block f b) o) m q)
    (hm : -128 ≤ m ∧ m ≤ 128) (hq : -32 ≤ q ∧ q ≤ 32) (hb : b < s.nb.toNat) (he : e < f.elems)
    (hfit : decodeFits s f) :
    ∃ t, exec i s = .next t ∧
      (let d := blockHalf s f b o
       let out := t.obufWord (outputCell s f b e)
       out = fmul s.params (fmul s.params (h2f s.params d) (i2f m)) (i2f q) ∧
       (isFiniteH d = true → isFinite out = true ∧ val32 out = val16 d * m * q ∧
         signF out = ((d.getLsbD 15 ^^ decide (m < 0)) ^^ decide (q < 0)))) := by
  obtain ⟨t, hexec, hout⟩ := exec_block_outputCell hc hfit hb he
  rw [helem, blk16_block] at hout
  refine ⟨t, hexec, hout, fun hfin => ?_⟩
  rw [hout]
  exact scaledCode_exact_of_range s.params hfin hm hq

/-- A format whose element is such a product less a minimum scale, at offset `o'`, times a sub-block minimum, with
unsigned factors: with finite scales neither product loses a bit, so that the difference is rounded once (R205). -/
theorem exec_block_scaledCodeLessMin {o' sc qc mc : Nat} {m q mn : Int} (hc : classOf i = .block f)
    (helem : elemOf s.params f (s.block f b) e =
      scaledCodeLessMin s.params (blk16 (s.block f b) o) (blk16 (s.block f b) o') m q mn)
    (hsc : m = sc) (hqc : q = qc) (hmc : mn = mc) (hm : m ≤ 128) (hq : q ≤ 32) (hmn : mn ≤ 128)
    (hb : b < s.nb.toNat) (he : e < f.elems) (hfit : decodeFits s f) :
    ∃ t, exec i s = .next t ∧
      (let d := blockHalf s f b o
       let dmin := blockHalf s f b o'
       let out := t.obufWord (outputCell s f b e)
       out = fsub s.params (fmul s.params (fmul s.params (h2f s.params d) (i2f sc)) (i2f qc))
         (fmul s.params (h2f s.params dmin) (i2f mc)) ∧
       (isFiniteH d = true → isFiniteH dmin = true → ∃ x y, isFinite x = true ∧ isFinite y = true ∧
         val32 x = val16 d * sc * qc ∧ signF x = d.getLsbD 15 ∧ val32 y = val16 dmin * mc ∧
         signF y = dmin.getLsbD 15 ∧ out = fsub s.params x y)) := by
  subst hsc hqc hmc
  obtain ⟨t, hexec, hout⟩ := exec_block_outputCell hc hfit hb he
  rw [helem, blk16_block, blk16_block] at hout
  refine ⟨t, hexec, hout, fun hfin hfin' => ?_⟩
  have hpos (n : Nat) (g : Bool) : (g ^^ decide ((n : Int) < 0)) = g := by
    rw [decide_eq_false (Int.natCast_nonneg n).not_gt, Bool.xor_false]
  obtain ⟨hx, hxVal, hxSign⟩ :=
    scaledCode_exact_of_range s.params hfin (m := sc) (q := qc) (by omega) (by omega)
  obtain ⟨hy, hyVal, hySign⟩ := fmul_h2f_i2f_exact s.params hfin' (q := mc) (abs_lt.2 (by omega))
  rw [hpos, hpos] at hxSign
  rw [hpos] at hySign
  exact ⟨_, _, hx, hy, hxVal, hxSign, hyVal, hySign, hout⟩

end

/-! ### The obligations -/

/-- Settles O30: each element is its block's scale times its sub-block's scale times its code. -/
theorem superBlockDecodersWithoutMinimum : Obligations.SuperBlockDecodersWithoutMinimum := by
  intro s b e hb he
  refine ⟨fun hfit => ?_, fun hfit => ?_⟩
  · have hscale := scaleQ3_K_range (s.block .q3_K b) e
    have hcode := codeQ3_K_range (s.block .q3_K b) e
    have h := exec_block_scaledCode (i := .dq3_K) rfl rfl (by omega) (by omega) hb he hfit
    rwa [codeQ3_K_eq] at h
  · have hscale := scaleQ6_K_range (s.block .q6_K b) e
    have hcode := codeQ6_K_range (s.block .q6_K b) e
    have h := exec_block_scaledCode (i := .dq6_K) rfl rfl (by omega) (by omega) hb he hfit
    rwa [scaleQ6_K_eq, codeQ6_K_eq] at h

/-- Settles O29: each element is such a product less its block's minimum scale times its sub-block's minimum. -/
theorem superBlockDecodersWithMinimum : Obligations.SuperBlockDecodersWithMinimum := by
  intro s b e hb he
  refine ⟨fun hfit => ?_, fun hfit => ?_, fun hfit => ?_⟩
  · have hscale := scaleQ2_K_range (s.block .q2_K b) e
    have hcode := codeQ2_K_range (s.block .q2_K b) e
    have hmin := minQ2_K_range (s.block .q2_K b) e
    exact exec_block_scaledCodeLessMin rfl rfl (scaleQ2_K_eq _ e) (codeQ2_K_eq _ e) (minQ2_K_eq _ e) (by omega)
      (by omega) (by omega) hb he hfit
  · have hscale := scaleQ45_K_range (s.block .q4_K b) e
    have hcode := codeQ4_K_range (s.block .q4_K b) e
    have hmin := minQ45_K_range (s.block .q4_K b) e
    exact exec_block_scaledCodeLessMin rfl rfl rfl (codeQ4_K_eq _ e) rfl (by omega) (by omega) (by omega) hb he hfit
  · have hscale := scaleQ45_K_range (s.block .q5_K b) e
    have hcode := codeQ5_K_range (s.block .q5_K b) e
    have hmin := minQ45_K_range (s.block .q5_K b) e
    exact exec_block_scaledCodeLessMin rfl rfl rfl (codeQ5_K_eq _ e) rfl (by omega) (by omega) (by omega) hb he hfit

end Sys2Proof.Machine
end

section
/-! PROOFS. How a command in flight can end: every error goes through the one exception entry (O11). -/

namespace Sys2Proof.Machine

/-- An error, of a command or of a word that is none, is `raiseError` on the state in flight, or the completion is a
success (R33, R225). -/
theorem completeCommand_raises_or_succeeds (s : State) :
    (∃ e, s.completeCommand = .next (s.raiseError e)) ∨
    (∃ t, s.completeCommand = .next t ∧ t.status = statusSuccess) := by
  rcases completeCommand_cases s with ⟨i, -, hc⟩ | ⟨_, -, hc⟩
  · rw [hc]
    rcases exec_cases i s with he | ⟨_, _, -, -, he⟩ | ⟨_, -, he⟩ | ⟨_, _, -, he⟩
    · exact .inl he
    · exact .inr ⟨_, he, rfl⟩
    · exact .inr ⟨_, he, rfl⟩
    · exact .inr ⟨_, he, rfl⟩
  · exact .inl ⟨_, hc⟩

/-- A success does not set `ERR` (R26, R33). -/
theorem errFlag_of_success {t : State} (h : t.status = statusSuccess) : t.errFlag = 0#1 := by
  rw [State.errFlag, h]
  decide

/-- The three codes of R220. -/
theorem code_values (e : CmdError) : e.code = 1#32 ∨ e.code = 2#32 ∨ e.code = 3#32 := by
  cases e with
  | invalidLength => exact .inl rfl
  | illegalCommand => exact .inr (.inl rfl)
  | bufferRange => exact .inr (.inr rfl)

/-- Settles O11: an end with `ERR` is no success, so it is the exception entry, which changes `STATUS` and the phase. -/
theorem errorChangesStatusAndPhaseOnly : Obligations.ErrorChangesStatusAndPhaseOnly := by
  intro s t ht herr
  rcases completeCommand_raises_or_succeeds s with ⟨e, he⟩ | ⟨u, hu, hst⟩
  · obtain rfl := Host.Outcome.next.inj (ht.symm.trans he)
    exact ⟨e.code, code_values e, rfl⟩
  · obtain rfl := Host.Outcome.next.inj (ht.symm.trans hu)
    exact absurd (herr.symm.trans (errFlag_of_success hst)) (by decide)

end Sys2Proof.Machine
end

section
/-! PROOFS. The hazards of the model are what R257 and R258 forbid (O36), and what a step does while reset is asserted
and when the reset input changes (O43, O53). -/

namespace Sys2Proof.Machine

/-! ### The nine registers and their offsets (R21) -/

theorem regTarget_eq_register_iff {o : Nat} {r : Reg} : regTarget o = .register r ↔ o = r.offset := by
  refine ⟨fun h => ?_, fun h => h ▸ regTarget_offset r⟩
  unfold regTarget at h
  split at h
  case h_10 => split_ifs at h
  all_goals
    obtain rfl := RegTarget.register.inj h
    rfl

/-! ### What the hazards ask of the command in flight (R55, R257, R258) -/

section
variable (s : State)

theorem isScalarCommand_iff : s.isScalarCommand = true ↔ scalarInFlight s := by
  unfold State.isScalarCommand State.commandClass scalarInFlight
  cases decode s.cmd with
  | error _ => simp
  | ok i => cases hc : classOf i <;> simp [hc]

theorem writesObuf_iff (c : Nat) : s.writesObuf c = true ↔ writtenByCommand s c := by
  unfold State.writesObuf State.commandClass writtenByCommand
  cases decode s.cmd with
  | error _ => simp
  | ok i => cases hc : classOf i <;> simp [hc]

theorem readsIbuf_iff (c : Nat) : s.readsIbuf c = true ↔ readByCommand s c := by
  unfold State.readsIbuf State.readLength State.commandClass readByCommand
  cases decode s.cmd with
  | error _ => simp
  | ok i => cases hc : classOf i <;> simp [hc]

/-! ### Each hazard -/

/-- An offset that names no register is in no hazard's list (R257, R258). -/
theorem hazard_of_noRegister {o : Nat} (h : ∀ r, regTarget o ≠ .register r) :
    s.hazard (.readReg o) = none ∧ ∀ v, s.hazard (.writeReg o v) = none := by
  simp only [State.hazard]
  cases ht : regTarget o with
  | register r => exact absurd ht (h r)
  | _ => exact ⟨rfl, fun _ => rfl⟩

theorem hazard_readReg_offset (r : Reg) : s.hazard (.readReg r.offset) = s.readRegHazard r := by
  simp only [State.hazard, regTarget_offset]

theorem hazard_writeReg_offset (r : Reg) (v : Word) : s.hazard (.writeReg r.offset v) = s.writeRegHazard r := by
  simp only [State.hazard, regTarget_offset]

/-- Of the registers only the results of a scalar command are forbidden to a read. -/
theorem hazard_readReg_iff (o : Nat) :
    s.hazard (.readReg o) ≠ none ↔ (o = 0x1C ∨ o = 0x20) ∧ s.isScalarCommand = true := by
  by_cases h : ∃ r, regTarget o = .register r
  · obtain ⟨r, hr⟩ := h
    obtain rfl := regTarget_eq_register_iff.1 hr
    rw [hazard_readReg_offset]
    cases r <;> simp [State.readRegHazard, Reg.offset, Reg.number]
  · rw [not_exists] at h
    simp only [(hazard_of_noRegister s h).1, ne_eq, not_true_eq_false, false_iff]
    rintro ⟨rfl | rfl, -⟩
    · exact h .res0 rfl
    · exact h .res1 rfl

/-- Forbidden to a write are `CMD`, the argument registers, and the results of a scalar command. -/
theorem hazard_writeReg_iff (o : Nat) (v : Word) :
    s.hazard (.writeReg o v) ≠ none ↔ o = 0x00 ∨ o = 0x08 ∨ o = 0x0C ∨ o = 0x10 ∨ o = 0x14 ∨ o = 0x18 ∨
      ((o = 0x1C ∨ o = 0x20) ∧ s.isScalarCommand = true) := by
  by_cases h : ∃ r, regTarget o = .register r
  · obtain ⟨r, hr⟩ := h
    obtain rfl := regTarget_eq_register_iff.1 hr
    rw [hazard_writeReg_offset]
    cases r <;> simp [State.writeRegHazard, Reg.offset, Reg.number]
  · rw [not_exists] at h
    simp only [(hazard_of_noRegister s h).2, ne_eq, not_true_eq_false, false_iff]
    rintro (rfl | rfl | rfl | rfl | rfl | rfl | ⟨rfl | rfl, -⟩)
    exacts [h .cmd rfl, h .src rfl, h .dst rfl, h .k rfl, h .nb rfl, h .opa rfl, h .res0 rfl, h .res1 rfl]

/-- A write of `IBUF` is forbidden if one of its bytes is in the range the command reads. -/
theorem hazard_writeIbuf_iff (w : Width) (a : Nat) (v : Word) :
    s.hazard (.writeIbuf w a v) ≠ none ↔ ∃ c, a ≤ c ∧ c < a + w.bytes ∧ s.readsIbuf c = true := by
  simp only [State.hazard, ne_eq, ite_eq_right_iff, reduceCtorEq, imp_false, not_not, List.any_eq_true, List.mem_range]
  constructor
  · rintro ⟨t, ht, hc⟩
    exact ⟨a + t, by omega, by omega, hc⟩
  · rintro ⟨c, hlo, hhi, hc⟩
    exact ⟨c - a, by omega, by rwa [Nat.add_sub_cancel' hlo]⟩

theorem hazard_readObuf_iff (i : Nat) : s.hazard (.readObuf i) ≠ none ↔ s.writesObuf i = true := by
  simp [State.hazard]

theorem hazard_writeObuf_iff (i : Nat) (v : Word) : s.hazard (.writeObuf i v) ≠ none ↔ s.writesObuf i = true :=
  hazard_readObuf_iff s i

/-- The model finds a hazard exactly where R257 or R258 forbids the access. -/
theorem hazard_iff_forbiddenWhileBusy (a : HostAccess) : s.hazard a ≠ none ↔ forbiddenWhileBusy s a := by
  cases a with
  | readReg o => rw [hazard_readReg_iff, isScalarCommand_iff]; rfl
  | writeReg o v => rw [hazard_writeReg_iff, isScalarCommand_iff]; rfl
  | readIbuf w i => exact iff_of_false (not_not.2 rfl) id
  | writeIbuf w i v => simp only [hazard_writeIbuf_iff, readsIbuf_iff]; rfl
  | readObuf i => rw [hazard_readObuf_iff, writesObuf_iff]; rfl
  | writeObuf i v => rw [hazard_writeObuf_iff, writesObuf_iff]; rfl

end

/-! ### Refusal and reset -/

section
variable {s : State} {a : HostAccess} {rest : List Input}

/-- While a command is in flight an access that breaks a hazard is refused (R259). -/
theorem step_of_hazard (hr : s.resetPin = false) (hph : s.phase = .busy) (hf : a.fault s.params = none)
    (hz : s.hazard a ≠ none) (hi : s.inputs = .host a :: rest) : ∃ r, step s = .refused r := by
  rw [step_host hi]
  rcases hostAccess_cases { s with inputs := rest } a with
    ⟨hr', -⟩ | ⟨-, f, hf', -⟩ | ⟨-, -, -, r, -, h⟩ | ⟨-, -, hz', -⟩
  · simp [hr] at hr'
  · simp [hf] at hf'
  · exact ⟨r, h⟩
  · exact absurd (hz' hph) hz

/-- An asserted reset is looked at before anything else: no fault, no refusal, no effect (R250). -/
theorem hostAccess_of_resetPin (hr : s.resetPin = true) (a : HostAccess) : s.hostAccess a = .next s := if_pos hr

theorem dquTurn_of_resetPin (hr : s.resetPin = true) : s.dquTurn = .next s := if_pos hr

theorem step_assertReset (hi : s.inputs = .assertReset :: rest) :
    step s = .next { s with inputs := rest, resetPin := true } := by
  simp only [step, hi, State.act]

/-- A release of an input that is not asserted is no reset (log 6). -/
theorem step_releaseReset_of_notAsserted (hi : s.inputs = .releaseReset :: rest) (hr : s.resetPin = false) :
    step s = .next { s with inputs := rest } := by
  simp only [step, hi, State.act, hr, Bool.false_eq_true, if_false]

end

/-! ### The obligations -/

/-- Settles O36: an access is forbidden exactly if it has a hazard, which while busy decides between refusal and
effect. -/
theorem forbiddenAccessesAreRefused : Obligations.ForbiddenAccessesAreRefused := by
  intro s a rest hph hr hi hf
  rw [← hazard_iff_forbiddenWhileBusy]
  exact ⟨fun hz => step_of_hazard hr hph hf hz hi, fun hz => step_of_hostPermitted hr ⟨hf, fun _ => not_not.1 hz⟩ hi⟩

/-- Settles O43: an access and a turn, listed or not, find the reset asserted. -/
theorem assertedResetIgnoresHostAndCommand : Obligations.AssertedResetIgnoresHostAndCommand := by
  intro s rest hr
  exact ⟨fun a hi => (step_host hi).trans (hostAccess_of_resetPin (s := { s with inputs := rest }) hr a),
    fun hi => (step_dquTurn hi).trans (dquTurn_of_resetPin (s := { s with inputs := rest }) hr),
    fun hi => (step_noInput hi).trans (dquTurn_of_resetPin hr)⟩

/-- Settles O53: each of the two inputs by its own step. -/
theorem assertingResetChangesThePinAlone : Obligations.AssertingResetChangesThePinAlone :=
  fun _ _ => ⟨step_assertReset, step_releaseReset_of_notAsserted⟩

end Sys2Proof.Machine
end

section
/-! PROOFS. A permitted access leaves the command in flight its operands, so the completion does the same thing before it
and after it; and what the completion does commutes with the access (O35). -/

namespace Sys2Proof.Machine

/-! ### What a completion does -/

/-- One completion as data: all that it stores, the reads being done (R33, R56, R225). -/
inductive CompletionEffect where
  | error (e : CmdError)
  | outputs (base n : Nat) (v : Nat → Word)
  | result (v : Word)
  | results (v0 v1 : Word)

namespace CompletionEffect

def apply (s : State) : CompletionEffect → State
  | error e => s.raiseError e
  | outputs base n v => (s.setObufRange base n v).complete
  | result v => s.completeScalar v
  | results v0 v1 => s.completeScalar2 v0 v1

/-- The effect stays in what R55 and R23 give the command in flight to write: its `OBUF` range, or the results of a
scalar command. These are what R258 keeps the host away from. -/
def Within (s : State) : CompletionEffect → Prop
  | error _ => True
  | outputs base n _ => ∀ c, base ≤ c → c < base + n → s.writesObuf c = true
  | result _ => s.isScalarCommand = true
  | results _ _ => s.isScalarCommand = true

/-- The completion in `s` and the one in `u` do the same thing, which stays within what the command in `s` may write. -/
def Shared (s u : State) (o o' : Host.Outcome State Fault Refusal) : Prop :=
  ∃ d : CompletionEffect, d.Within s ∧ o = .next (d.apply s) ∧ o' = .next (d.apply u)

end CompletionEffect

section
open CompletionEffect
variable {s u : State} {i : Instr}

theorem shared_of_conversion (h : SameOperands s u) (hs : s.commandClass = some (classOf i))
    (hc : classOf i = .conversion) : Shared s u (exec i s) (exec i u) := by
  rw [hc] at hs
  obtain ⟨val, hval⟩ := exec_conversion hc
  refine ⟨.result (val s.params s.opa), by simp [Within, State.isScalarCommand, hs], hval s, ?_⟩
  rw [hval, ← h.params, ← h.opa hs]
  rfl

theorem shared_of_extraction (h : SameOperands s u) (hs : s.commandClass = some (classOf i))
    (hc : classOf i = .extraction) : Shared s u (exec i s) (exec i u) := by
  rw [hc] at hs
  have hsrc : s.src = u.src := h.src (by simp [hs]) (by simp [hs])
  rcases exec_extraction hc with hill | ⟨v0, v1, hv, hexec⟩
  · exact ⟨.error .illegalCommand, trivial, hill s, hill u⟩
  · obtain ⟨h0, h1⟩ := hv _ _ (bytesAt_eq_of_sameOperands h hs)
    rw [hexec, hexec, ← h0, ← h1]
    rcases extractScale_of_sameArguments h.params hsrc _ _ _ _ with ⟨he, he'⟩ | ⟨he, he'⟩ <;> rw [he, he']
    · exact ⟨.error .bufferRange, trivial, rfl, rfl⟩
    · exact ⟨.results _ _, by simp [Within, State.isScalarCommand, hs], rfl, rfl⟩

theorem shared_of_block {f : BlockFormat} (h : SameOperands s u) (hs : s.commandClass = some (classOf i))
    (hc : classOf i = .block f) : Shared s u (exec i s) (exec i u) := by
  rw [hc] at hs
  have hsrc : s.src = u.src := h.src (by simp [hs]) (by simp [hs])
  obtain ⟨hdst, hk, hnb⟩ := h.block f hs
  rw [exec_block_elemOf hc, exec_block_elemOf hc]
  rcases decodeBlocks_of_sameArguments h.params hsrc hdst hk hnb f (elemOf s.params f) (elemOf u.params f) with
    ⟨e, he, he'⟩ | ⟨hlen, he, he'⟩ <;> rw [he, he']
  · exact ⟨.error e, trivial, rfl, rfl⟩
  · refine ⟨.outputs s.dst.toNat s.k.toNat (s.blockOutput f (elemOf s.params f)),
      fun c hlo hhi => (writesObuf_block_iff hs c).2 ⟨hlo, hhi⟩, rfl, ?_⟩
    have houts : ∀ r < s.k.toNat,
        u.blockOutput f (elemOf u.params f) r = s.blockOutput f (elemOf s.params f) r :=
      fun r hr => (blockOutput_eq_of_sameOperands h hs hlen hr).symm
    simp only [apply, State.setObufRange, putCells_congr _ _ _ houts]

/-- In two states with the same operands the completion does the same thing (R31, R55). -/
theorem completeCommand_shared (h : SameOperands s u) : Shared s u s.completeCommand u.completeCommand := by
  simp only [State.completeCommand, ← h.cmd]
  cases hd : decode s.cmd with
  | error _ => exact ⟨.error .illegalCommand, trivial, rfl, rfl⟩
  | ok i =>
    have hs := commandClass_of_decode hd
    cases hc : classOf i with
    | conversion => exact shared_of_conversion h hs hc
    | extraction => exact shared_of_extraction h hs hc
    | block f => exact shared_of_block h hs hc

end

/-! ### What an access without hazard leaves alone (R257) -/

section
variable {s : State} {a : HostAccess}

/-- The registers that no hazard protects ignore writes (R26, R35). -/
theorem writeReg_of_noHazard {r : Reg} (h : s.writeRegHazard r = none) (u : State) (v : Word) : u.writeReg r v = u := by
  cases r with
  | status | res0 | res1 => rfl
  | _ => simp [State.writeRegHazard] at h

theorem accessEffect_writeReg_of_noHazard {o : Nat} {v : Word} (h : s.hazard (.writeReg o v) = none) (u : State) :
    u.accessEffect (.writeReg o v) = u := by
  simp only [State.accessEffect]
  cases ht : regTarget o with
  | register r =>
    simp only [State.hazard, ht] at h
    exact writeReg_of_noHazard h u v
  | _ => rfl

/-- An access without hazard changes the buffers and the replies at most. -/
theorem accessEffect_of_noHazard (h : s.hazard a = none) :
    s.accessEffect a = { s with
      ibuf := (s.accessEffect a).ibuf, obuf := (s.accessEffect a).obuf, replies := (s.accessEffect a).replies } := by
  cases a with
  | readReg o => simp only [State.accessEffect]; split <;> rfl
  | writeReg o v => rw [accessEffect_writeReg_of_noHazard h]
  | readIbuf w i => rfl
  | writeIbuf w i v => rw [State.accessEffect, setIbufBytes_frame]
  | readObuf i => rfl
  | writeObuf i v => rfl

/-- An access without hazard writes no byte that the command in flight reads. -/
theorem accessEffect_ibufByte_of_readsIbuf (h : s.hazard a = none) {c : Nat} (hc : s.readsIbuf c = true) :
    (s.accessEffect a).ibufByte c = s.ibufByte c := by
  refine accessEffect_ibufByte fun w i v ha => ?_
  subst ha
  by_contra hin
  exact (hazard_writeIbuf_iff s w i v).2 ⟨c, by omega, by omega, hc⟩ h

theorem sameOperands_accessEffect (h : s.hazard a = none) : SameOperands s (s.accessEffect a) := by
  have he := accessEffect_of_noHazard h
  exact {
    params := (congrArg State.params he).symm
    cmd := (congrArg State.cmd he).symm
    opa := fun _ => (congrArg State.opa he).symm
    src := fun _ _ => (congrArg State.src he).symm
    block := fun _ _ =>
      ⟨(congrArg State.dst he).symm, (congrArg State.k he).symm, (congrArg State.nb he).symm⟩
    bytes := fun _ hc => (accessEffect_ibufByte_of_readsIbuf h hc).symm }

/-- A permitted access is answered with its effect. -/
theorem hostAccess_of_hostPermitted (hr : s.resetPin = false) (hp : hostPermitted s a) :
    s.hostAccess a = .next (s.accessEffect a) :=
  (step_host (s := { s with inputs := .host a :: s.inputs }) rfl).symm.trans
    (step_of_hostPermitted (s := { s with inputs := .host a :: s.inputs }) hr hp rfl)

end

/-! ### The effect of a completion and the effect of an access -/

/-- In canonical form a range and a cell outside it can be written in either order. -/
theorem putCells_putCell_comm {α : Type} {m : List (Nat × α)} (hm : cellsWf m) {base n a : Nat} (v : Nat → α) (x : α)
    (ha : ¬ (base ≤ a ∧ a < base + n)) : putCell (putCells m base n v) a x = putCells (putCell m a x) base n v := by
  refine cells_ext (cellsWf_putCell a x (cellsWf_putCells base n v hm))
    (cellsWf_putCells base n v (cellsWf_putCell a x hm)) fun b => ?_
  simp only [cellAt_putCell, cellAt_putCells]
  split
  · rename_i hb
    rw [if_neg (hb ▸ ha)]
  · rfl

namespace CompletionEffect

section
variable (d : CompletionEffect) (s : State)

theorem apply_phase : (d.apply s).phase = .idle := by cases d <;> rfl

theorem apply_params : (d.apply s).params = s.params := by cases d <;> rfl

theorem apply_resetPin : (d.apply s).resetPin = s.resetPin := by cases d <;> rfl

theorem apply_ibufByte : (d.apply s).ibufByte = s.ibufByte := by cases d <;> rfl

theorem apply_answer (v : Word) : (d.apply s).answer v = d.apply (s.answer v) := by cases d <;> rfl

theorem apply_setIbufByte (a : Nat) (b : Byte) : (d.apply s).setIbufByte a b = d.apply (s.setIbufByte a b) := by
  cases d <;> rfl

theorem apply_setIbufBytes (a : Nat) (v : Word) (n : Nat) :
    (d.apply s).setIbufBytes a v n = d.apply (s.setIbufBytes a v n) := by
  induction n generalizing s a v with
  | zero => rfl
  | succ n ih => rw [State.setIbufBytes, apply_setIbufByte, ih, State.setIbufBytes]

end

section
variable {d : CompletionEffect} {s : State}

/-- No completion changes a register that the host may read meanwhile, `STATUS` apart (R258, R260). -/
theorem apply_readReg (hd : d.Within s) {r : Reg} (hst : r ≠ .status) (hz : s.readRegHazard r = none) :
    (d.apply s).readReg r = s.readReg r := by
  cases d with
  | error e | outputs base n v =>
    cases r with
    | status => exact absurd rfl hst
    | _ => rfl
  | result v | results v0 v1 =>
    have hsc : s.isScalarCommand = true := hd
    cases r with
    | status => exact absurd rfl hst
    | res0 | res1 => simp [State.readRegHazard, hsc] at hz
    | _ => rfl

/-- A cell outside the range of the command is outside the range of its outputs. -/
theorem outside_of_within {base n c : Nat} {v : Nat → Word} (hd : (outputs base n v).Within s)
    (hc : s.writesObuf c = false) : ¬ (base ≤ c ∧ c < base + n) :=
  fun ⟨hlo, hhi⟩ => by simp [hd c hlo hhi] at hc

theorem apply_obufWord (hd : d.Within s) {c : Nat} (hc : s.writesObuf c = false) :
    (d.apply s).obufWord c = s.obufWord c := by
  cases d with
  | outputs base n v =>
    rw [apply, complete_obufWord, setObufRange_obufWord, if_neg (outside_of_within hd hc)]
  | _ => rfl

theorem apply_setObufWord (hwf : cellsWf s.obuf) (hd : d.Within s) {c : Nat} (hc : s.writesObuf c = false) (w : Word) :
    (d.apply s).setObufWord c w = d.apply (s.setObufWord c w) := by
  cases d with
  | outputs base n v =>
    simp only [apply, State.setObufWord, State.setObufRange, State.complete,
      putCells_putCell_comm hwf v w (outside_of_within hd hc)]
  | _ => rfl

/-- The effect of a completion and that of an access without hazard, a read of `STATUS` apart, in either order (R260). -/
theorem apply_accessEffect (hwf : cellsWf s.obuf) (hd : d.Within s) {a : HostAccess} (hz : s.hazard a = none)
    (hst : a ≠ .readReg 4) : (d.apply s).accessEffect a = d.apply (s.accessEffect a) := by
  cases a with
  | readReg o =>
    simp only [State.accessEffect]
    cases ht : regTarget o with
    | register r =>
      obtain rfl := regTarget_eq_register_iff.1 ht
      rw [hazard_readReg_offset] at hz
      have hr : r ≠ .status := fun hr => hst (by rw [hr]; rfl)
      simp only [apply_readReg hd hr hz, apply_answer]
    | reserved => exact apply_answer d s _
    | insideWord => rfl
    | outside => rfl
  | writeReg o v => rw [accessEffect_writeReg_of_noHazard hz, accessEffect_writeReg_of_noHazard hz]
  | readIbuf w i => simp only [State.accessEffect, apply_ibufByte, apply_answer]
  | writeIbuf w i v => exact apply_setIbufBytes d s i v w.bytes
  | readObuf i =>
    have hc : s.writesObuf i = false := by simpa [State.hazard] using hz
    simp only [State.accessEffect, apply_obufWord hd hc, apply_answer]
  | writeObuf i v =>
    have hc : s.writesObuf i = false := by simpa [State.hazard] using hz
    exact apply_setObufWord hwf hd hc v

end

end CompletionEffect

/-! ### The obligation -/

/-- Settles O35: the access leaves the operands, so the completion does the same thing in both orders, and that
commutes with the access, which is permitted to an idle unit too. -/
theorem permittedAccessCommutesWithCompletion : Obligations.PermittedAccessCommutesWithCompletion := by
  intro s a hinv hph hr hp hst
  obtain ⟨hf, hz⟩ := hp
  obtain ⟨d, hd, hs, hu⟩ := completeCommand_shared (sameOperands_accessEffect (hz hph))
  refine ⟨_, _, _, hostAccess_of_hostPermitted hr ⟨hf, hz⟩, hu, hs, ?_⟩
  have hidle : hostPermitted (d.apply s) a :=
    hostPermitted_of_idle (d.apply_phase s) (by rw [d.apply_params]; exact hf)
  rw [hostAccess_of_hostPermitted ((d.apply_resetPin s).trans hr) hidle,
    CompletionEffect.apply_accessEffect hinv.obufWf hd (hz hph) hst]

end Sys2Proof.Machine
end
